-- ==== Sys2Proof/Word.lean ====
section
/-! DEFINITION. The word types and the value types of the block: command words, bytes, `Num` scalars
and complex pairs (00_scope R8, R9). -/

namespace Sys2Proof

/-- A command word (30_encoding R90). -/
abbrev Word := BitVec 32

/-- An output byte (10_state R53). -/
abbrev Byte := BitVec 8

/-- A value of the configured arithmetic `Num` (00_scope R9), held as the exact number it stands for.
Which numbers occur, and how results are rounded to them, is the parameter NUM (`NumParam`). -/
abbrev Scalar := Rat

/-- `Complex` of 00_scope R9: a pair of `Num`. -/
structure Cplx where
  re : Scalar
  im : Scalar
deriving DecidableEq, Repr, Inhabited

/-- The complex zero. -/
def Cplx.zero : Cplx := ⟨0, 0⟩

/-- A positive number, positive by its form: `(num + 1) / (den + 1)`. For instance parameters that the
spec only bounds below by 0. -/
structure PosRat where
  num : Nat
  den : Nat
deriving DecidableEq, Repr, Inhabited

/-- The number a `PosRat` stands for. -/
def PosRat.val (p : PosRat) : Scalar := ((p.num + 1 : Nat) : Rat) / ((p.den + 1 : Nat) : Rat)

/-- A positive real number, positive by its form: the number is `Real.exp log`, and every positive real is that
of exactly one `log`. For the real parameters of 00_scope R6. -/
structure PosReal where
  log : ℝ
deriving Inhabited

end Sys2Proof
end

