-- ==== Sys2Proof/Config.lean ====
section
/-! DEFINITION. What an instance fixes (00_scope R6): the form of the arithmetic NUM, the instance
parameters, and the free values that the spec leaves open, each an opaque constant. -/

namespace Sys2Proof

/-- The formulas over the reals that NUM rounds (00_scope R9), each with all the values it is computed from. -/
inductive Formula where
  /-- a constant of a rule, 0.66 (44_demux R240) -/
  | constant (value : Rat)
  /-- Re gamma(m) (40_estimator R133), from the samples of EBUF -/
  | gammaRe (ebuf : List Cplx) (len m : Nat)
  /-- Im gamma(m) (40_estimator R133) -/
  | gammaIm (ebuf : List Cplx) (len m : Nat)
  /-- Phi(m) (40_estimator R133) -/
  | phi (ebuf : List Cplx) (len m : Nat)
  /-- Score(m) (40_estimator R134) -/
  | score (ebuf : List Cplx) (len m : Nat)
  /-- eps, from gamma(mstar) (40_estimator R140) -/
  | offset (gamma : Cplx)
  /-- the smoothed CONF (40_estimator R138) -/
  | confidence (conf : Scalar) (d : Int)
  /-- Re TD[j], from its sample `z` (40_estimator R142) -/
  | outputRe (z : Cplx) (nco eps : Scalar) (j : Nat)
  /-- Im TD[j] (40_estimator R142) -/
  | outputIm (z : Cplx) (nco eps : Scalar) (j : Nat)
  /-- NCO + 2 pi eps (40_estimator R143) -/
  | advance (nco eps : Scalar)
  /-- Re FD[k] (41_fft R171) -/
  | binRe (td : List Cplx) (k : Nat)
  /-- Im FD[k] (41_fft R171) -/
  | binIm (td : List Cplx) (k : Nat)
  /-- the pilot amplitude |p| * 3/4 (42_equalizer R182) -/
  | pilotAmplitude (p : Cplx)
  /-- the gap t1 - t0 (42_equalizer R183) -/
  | gap (t0 t1 : Scalar)
  /-- t1 shifted by 2 pi (42_equalizer R183) -/
  | unwrapped (t0 t1 : Scalar)
  /-- the interpolated phase of carrier `c` before it is re-wrapped (42_equalizer R184) -/
  | phase (c0 c1 c : Nat) (t0 t1 : Scalar)
  /-- the interpolated amplitude of carrier `c` (42_equalizer R184) -/
  | amplitude (c0 c1 c : Nat) (a0 a1 : Scalar)
  /-- Re Apply(x, ph, amp) (42_equalizer R186) -/
  | appliedRe (x : Cplx) (ph amp : Scalar)
  /-- Im Apply(x, ph, amp) (42_equalizer R186) -/
  | appliedIm (x : Cplx) (ph amp : Scalar)
  /-- Re(z * conj(prev)) (43_tps R201) -/
  | dot (z prev : Cplx)
  /-- |e| - nominal (44_demux R237, R238) -/
  | deviation (e : Cplx) (nominal : Rat)
deriving DecidableEq, Repr

/-- The parameter NUM of 00_scope R6, R9: how the arithmetic rounds. Nothing that the spec leaves to NUM
(92_eei_decisions D2: the rounding, the evaluation order with the incremental updates of 40_estimator R135, the
accuracy of sqrt, atan2, cos and sin) is fixed here: `rnd` may give any value for a formula and its operands, so it
is the result of evaluating that formula in any order, by any algorithm, with any intermediate roundings. The
operations over it are in Machine/Numeric.lean. Log 1, log 3. -/
structure NumParam where
  /-- the value NUM delivers for a formula whose value over the reals is the second argument -/
  rnd : Formula → Rat → Rat
  sqrt : Rat → Rat
  cos : Rat → Rat
  sin : Rat → Rat
  /-- `atan2 b a` -/
  atan2 : Rat → Rat → Rat
  /-- the value used for pi -/
  pi : PosRat
  /-- the value in which a positive real parameter, SNR or FFT_SCALE, is held (log 4) -/
  ofReal : PosReal → PosRat
deriving Inhabited

/-- The four regions of one axis of the 16-QAM demapper (20_memory R80). -/
inductive AxisRegion where
  | outerPositive
  | innerPositive
  | innerNegative
  | outerNegative
deriving DecidableEq, Repr

/-- The place of a field in the TPS payload: its first (most significant) bit and its width
(20_memory R82). -/
structure PayloadField where
  first : Nat
  width : Nat
deriving DecidableEq, Repr, Inhabited

/-- The decoded payload fields of 20_memory R82. -/
structure TpsFields where
  frame : PayloadField
  constellation : PayloadField
  hierarchy : PayloadField
  rateHp : PayloadField
  rateLp : PayloadField
  guard : PayloadField
  fftMode : PayloadField
deriving DecidableEq, Repr

/-- The instance parameters of 00_scope R6. They are fixed for the life of an instance and are no
state. Each field is the parameter of the same name. -/
structure Params where
  n : Nat
  kMax : Nat
  carrierOffset : Nat
  snr : PosReal
  epsBias : Scalar
  trackW : Nat
  quantW : Nat
  confAlpha : Scalar
  confThresh : Scalar
  pilotTol : Scalar
  anomalyWarn : Nat
  splitMargin : Nat
  nMax : Nat
  biBlock : Nat
  decisionLen : Nat
  outputBits : Nat
  tbGuard : Nat
  g1 : BitVec 7
  g2 : BitVec 7
  syncWord : BitVec 16
  /-- CP_LIST without its sentinel (20_memory R75) -/
  cpList : List Nat
  /-- TPS_LIST without its sentinel (20_memory R76) -/
  tpsList : List Nat
  /-- PRBS_W for carriers 0..K_MAX (20_memory R77) -/
  prbsW : List Bool
  /-- HQ (20_memory R78) -/
  hq : List Nat
  /-- BI_OFFSETS (20_memory R79) -/
  biOffsets : List Nat
  /-- DEMAP16: the two bits each axis region carries (20_memory R80) -/
  demap16 : AxisRegion → Bool × Bool
  /-- DEMUX16 (20_memory R81) -/
  demux16 : List Nat
  tpsFields : TpsFields
  fftScale : PosReal
  num : NumParam

/-- BITS_PER_SYM (00_scope R6): 16-QAM carries 4 bits per cell. -/
def bitsPerSym : Nat := 4

/-- NSTATES (00_scope R6). -/
def nStates : Nat := 64

/-- The sentinel that ends a stored carrier list (20_memory R84). -/
def listSentinel : Nat := 0xFFFF

/-- DEPTH = DECISION_LEN + OUTPUT_BITS + TB_GUARD (10_state R32). -/
def Params.depth (P : Params) : Nat := P.decisionLen + P.outputBits + P.tbGuard

/-- The guard length L of 10_state R23 for guard code `g`. -/
def Params.guardLen (P : Params) (g : BitVec 2) : Nat := P.n >>> (5 - g.toNat)

/-- The estimator buffer size B of 10_state R23 for guard code `g`. -/
def Params.bufSize (P : Params) (g : BitVec 2) : Nat := 2 * P.n + P.guardLen g

/-- B_MAX of 10_state R24. -/
def Params.bufMax (P : Params) : Nat := 2 * P.n + P.n / 4

/-- A word with bit `h` set for every entry `h`: the set of values a list holds. -/
def valueMask (hs : List Nat) : Nat := hs.foldl (fun m h => m ||| (1 <<< h)) 0

/-- The constraints of 00_scope R7 on an instance. -/
def Params.valid (P : Params) : Bool :=
  [0, 1, 2, 3].all (fun g =>
    decide (P.trackW ≤ P.guardLen (BitVec.ofNat 2 g)) &&
    decide (P.guardLen (BitVec.ofNat 2 g) + P.trackW ≤ P.n - 1)) &&
  decide (P.carrierOffset < P.n) && decide (P.kMax < P.n) &&
  decide (List.Pairwise (· < ·) P.cpList) && decide (List.Pairwise (· < ·) P.tpsList) &&
  P.cpList.all (fun c => decide (c ≤ P.kMax)) && P.tpsList.all (fun c => decide (c ≤ P.kMax)) &&
  decide (2 ≤ P.cpList.length) && decide (P.nMax % P.biBlock = 0) &&
  decide (P.hq.length = P.nMax) && decide (valueMask P.hq = 2 ^ P.nMax - 1) &&
  decide (1 ≤ P.decisionLen) && decide (1 ≤ P.outputBits) &&
  decide (0 < P.confAlpha) && decide (P.confAlpha ≤ 1) &&
  decide (0 ≤ P.confThresh) && decide (P.confThresh < 1)

end Sys2Proof

namespace Sys2Proof.Config

/-- NUM (00_scope R6, OPEN). Log 1, log 3. -/
opaque num : NumParam

/-- SNR (00_scope R6, OPEN, real > 0). Log 4. -/
opaque snr : PosReal

/-- FFT_SCALE (00_scope R6, OPEN, real > 0). Log 4. -/
opaque fftScale : PosReal

/-- DECISION_LEN less 1 (00_scope R6, OPEN, DECISION_LEN >= 1). Log 4. -/
opaque decisionLenLess1 : Nat

/-- OUTPUT_BITS less 1 (00_scope R6, OPEN, OUTPUT_BITS >= 1). Log 4. -/
opaque outputBitsLess1 : Nat

/-- TB_GUARD (00_scope R6, OPEN, >= 0). Log 4. -/
opaque tbGuard : Nat

/-- What the k-th unconstrained draw of a run gives for carrier `c` (10_state R58, 42_equalizer R186). Log 14. -/
opaque freeDraw : (k : Nat) → (c : Nat) → Cplx

/-- What an entry of a complex array that nothing has written since reset reads as
(20_memory R71, 93_implementation_defined U10). Log 6. -/
opaque unwrittenEntry : (index : Nat) → Cplx

/-- The fields of a trellis record that nothing has written since reset: metric, predecessor and bit
(20_memory R71, 93_implementation_defined U10). Log 6. -/
opaque unwrittenRecord : (slot : Nat) → (state : BitVec 6) → Nat × BitVec 6 × Bool

/-- What the reference NUM delivers for an exact value beyond the largest finite binary64 value
(91_not_in_source N26 leaves it open). Log 22. -/
opaque overflowResult : Rat → Scalar

/-- The value a binary64 pattern that is infinite or not a number stands for as a sample
(91_not_in_source N26 leaves it open). Log 16. -/
opaque nonFiniteSample : BitVec 64 → Scalar

end Sys2Proof.Config
end

