-- ==== Sys2Proof/Machine/Numeric.lean ====
section
/-! DEFINITION. The arithmetic of 00_scope R9 over the parameter NUM, the binary64 interchange of
10_state R60 and 20_memory R73, and the reference NUM (binary64, round to nearest even). -/

namespace Sys2Proof.Machine

/-! ## Formulas -/

/-- NUM's value of a formula whose value over the reals is `x`: what NUM delivers, but `x` itself where `known`, the
condition under which the formula's rule says the result whatever NUM is (log 1). -/
def deliver (A : NumParam) (φ : Formula) (known : Bool) (x : Scalar) : Scalar := if known then x else A.rnd φ x

/-- The square root; that of 0 is 0. -/
def nsqrt (A : NumParam) (x : Scalar) : Scalar := if x = 0 then 0 else A.sqrt x

/-- NUM's representation of a constant of a rule. Log 3. -/
def nlit (A : NumParam) (x : Rat) : Scalar := A.rnd (.constant x) x

/-- The absolute value, exact. -/
def sabs (x : Scalar) : Scalar := if x < 0 then -x else x

/-- NUM's value of 2 pi. -/
def twoPi (A : NumParam) : Scalar := 2 * A.pi.val

/-- `t mod 2 pi` in [0, 2 pi) (40_estimator R143), exact, so not rounded to NUM's format: the model's choice, log 2. -/
def modTwoPi (A : NumParam) (t : Scalar) : Scalar := t - twoPi A * ((t / twoPi A).floor : Rat)

/-- `wrap(t)` of 00_scope R9: the value in (-pi, pi] equal to `t` modulo 2 pi, exact, so not rounded to
NUM's format: the model's choice, log 2. -/
def wrap (A : NumParam) (t : Scalar) : Scalar :=
  t - twoPi A * (((t - A.pi.val) / twoPi A).ceil : Rat)

/-! ## Complex operations (00_scope R9)

Parts of a formula's value over the reals: only the whole formula is rounded (log 23). -/

/-- `conj(z) = (a, -b)`, exact. -/
def conj (z : Cplx) : Cplx := ⟨z.re, -z.im⟩

/-- The product of two complex values, over the reals. -/
def cmul (z w : Cplx) : Cplx := ⟨z.re * w.re - z.im * w.im, z.re * w.im + z.im * w.re⟩

/-- `|z|^2 = a^2 + b^2`, over the reals. -/
def normSq (z : Cplx) : Scalar := z.re ^ 2 + z.im ^ 2

/-- `|z| = sqrt(a^2 + b^2)`, over NUM's square root. -/
def cabs (A : NumParam) (z : Cplx) : Scalar := nsqrt A (normSq z)

/-- `angle(z) = atan2(b, a)` in (-pi, pi], with `angle(0) = 0`. -/
def angle (A : NumParam) (z : Cplx) : Scalar :=
  if z.re = 0 ∧ z.im = 0 then 0 else wrap A (A.atan2 z.im z.re)

/-- `exp(i t) = (cos t, sin t)`, over NUM's cos and sin. -/
def expI (A : NumParam) (t : Scalar) : Cplx := ⟨A.cos t, A.sin t⟩

/-- A complex value times a sign, -1 where `negative` (exact). -/
def signed (negative : Bool) (z : Cplx) : Cplx := if negative then ⟨-z.re, -z.im⟩ else z

/-! ## Binary64 interchange -/

/-- The nearest integer to `x`, ties to even. -/
def roundHalfEven (x : Rat) : Int :=
  let f := x.floor
  let d := x - (f : Rat)
  if d < 1 / 2 then f
  else if 1 / 2 < d then f + 1
  else if f % 2 = 0 then f else f + 1

/-- `2 ^ e` for an integer exponent. -/
def pow2 (e : Int) : Rat :=
  if 0 ≤ e then ((2 ^ e.toNat : Nat) : Rat) else 1 / ((2 ^ (-e).toNat : Nat) : Rat)

/-- The exponent `e` with `2^e <= x < 2^(e+1)`, for `x > 0`. -/
def exponentOf (x : Rat) : Int :=
  let e : Int := (x.num.natAbs.log2 : Int) - (x.den.log2 : Int)
  if pow2 e ≤ x then e else e - 1

/-- The binary64 pattern of the binary64 value nearest to `x`, ties to even (10_state R60). Log 17. -/
def toBinary64 (x : Rat) : BitVec 64 :=
  if x = 0 then 0
  else
    let ax := sabs x
    let e := max (exponentOf ax) (-1022)
    let mag : Nat :=
      if 1023 < e then 0x7FF * 2 ^ 52
      else (e + 1022).toNat * 2 ^ 52 + (roundHalfEven (ax / pow2 (e - 52))).toNat
    BitVec.ofNat 64 ((if x < 0 then 2 ^ 63 else 0) + mag)

/-- The value of a binary64 pattern; none for an infinity or a NaN. -/
def ofBinary64 (b : BitVec 64) : Option Rat :=
  let e := (b.extractLsb' 52 11).toNat
  let m := (b.extractLsb' 0 52).toNat
  if e = 2047 then none
  else
    let mag : Rat :=
      if e = 0 then (m : Rat) * pow2 (-1074) else ((2 ^ 52 + m : Nat) : Rat) * pow2 ((e : Int) - 1075)
    some (if b.getLsbD 63 then -mag else mag)

/-! ## The reference NUM (00_scope R6: binary64; 92 D2: round to nearest even) -/

/-- The binary64 value nearest to `x`; beyond the largest finite value, where the spec leaves the result open,
a free value (log 22). -/
def round64 (x : Rat) : Rat := (ofBinary64 (toBinary64 x)).getD (Config.overflowResult x)

/-- The integer square root, by bisection on the bits from `k` down. -/
def isqrtFrom (x : Nat) : (k : Nat) → (r : Nat) → Nat
  | 0, r => r
  | k + 1, r => isqrtFrom x k (if (r + 2 ^ k) * (r + 2 ^ k) ≤ x then r + 2 ^ k else r)

/-- The integer square root. -/
def isqrt (x : Nat) : Nat := isqrtFrom x (x.log2 / 2 + 1) 0

/-- The correctly rounded binary64 square root: 64 bits of the root and a sticky bit, then one rounding. -/
def sqrt64 (x : Rat) : Rat :=
  if x ≤ 0 then 0
  else
    let k : Nat := (64 - exponentOf x / 2).toNat
    let y : Rat := x * pow2 (2 * (k : Int))
    let q := isqrt y.floor.toNat
    let sticky : Nat := if ((q * q : Nat) : Rat) = y then 0 else 1
    round64 (((2 * q + sticky : Nat) : Rat) / pow2 ((k : Int) + 1))

/-- The reference NUM: binary64, round to nearest even. Which values inside a formula are rounded is open in the
reference too (92 D2, 91_not_in_source N26), and is the model's choice here (log 22): a square root is rounded to
binary64 (`sqrt64`), so that a formula with |z| is rounded twice; sums and products inside a formula are not rounded, so
sums have no order; the formula's value is then rounded once. `mod 2 pi` and `wrap` come after that rounding and are
exact, so NCO, a pilot's angle and EQ_PH need not be binary64 values. The accuracy of cos, sin and atan2, and the
values of the OPEN real parameters, are open as well: they are arguments. -/
def referenceNum (cos sin : Rat → Rat) (atan2 : Rat → Rat → Rat) (ofReal : PosReal → PosRat) : NumParam where
  rnd := fun _ x => round64 x
  sqrt := sqrt64
  cos := cos
  sin := sin
  atan2 := atan2
  pi := ⟨884279719003554, 281474976710655⟩
  ofReal := ofReal

end Sys2Proof.Machine
end

