-- ==== Sys2Proof/Machine/Rom.lean ====
section
/-! DEFINITION. The ROM tables of the 2K instance (20_memory R75 to R83) and the instance itself
(00_scope R6). They are built before the first command and never written (R84). -/

namespace Sys2Proof.Machine

/-- CP_LIST, the continual-pilot carriers of 2K (20_memory R75). -/
def cpList2K : List Nat :=
  [0, 48, 54, 87, 141, 156, 192, 201, 255, 279, 282, 333, 432, 450, 483, 525, 531, 618, 636, 714, 759] ++
  [765, 780, 804, 873, 888, 918, 939, 942, 969, 984, 1050, 1101, 1107, 1110, 1137, 1140, 1146, 1206] ++
  [1269, 1323, 1377, 1491, 1683, 1704]

/-- TPS_LIST, the TPS carriers of 2K (20_memory R76). -/
def tpsList2K : List Nat :=
  [34, 50, 209, 346, 413, 569, 595, 688, 790, 901, 1073, 1219, 1262, 1286, 1469, 1594, 1687]

/-- One step of the pilot PRBS register (20_memory R77): `{nb, reg[10:1]}` with `nb = reg[0] XOR reg[2]`. -/
def prbsNext (reg : BitVec 11) : BitVec 11 :=
  BitVec.ofBool (reg.getLsbD 0 ^^ reg.getLsbD 2) ++ reg.extractLsb' 1 10

/-- The first `k` bits of the pilot PRBS from register value `reg` (20_memory R77). -/
def prbsBits : (k : Nat) → (reg : BitVec 11) → List Bool
  | 0, _ => []
  | k + 1, reg => reg.getLsbD 0 :: prbsBits k (prbsNext reg)

/-- PRBS_W for carriers 0..1704: the register starts at all ones (20_memory R77). -/
def prbsW2K : List Bool := prbsBits 1705 0x7FF

/-- The register R' of 20_memory R78 at step `i` from its value at step `i - 1`. -/
def hqRegister (i : Nat) (prev : BitVec 10) : BitVec 10 :=
  if i < 2 then 0
  else if i = 2 then 1
  else BitVec.ofBool (prev.getLsbD 0 ^^ prev.getLsbD 3) ++ prev.extractLsb' 1 9

/-- The permuted word R of 20_memory R78: the bits of R' in their places of R. -/
def hqPermute (r : BitVec 10) : Nat :=
  (r.getLsbD 9).toNat * 2 ^ 0 + (r.getLsbD 8).toNat * 2 ^ 7 + (r.getLsbD 7).toNat * 2 ^ 5 +
  (r.getLsbD 6).toNat * 2 ^ 1 + (r.getLsbD 5).toNat * 2 ^ 8 + (r.getLsbD 4).toNat * 2 ^ 2 +
  (r.getLsbD 3).toNat * 2 ^ 6 + (r.getLsbD 2).toNat * 2 ^ 9 + (r.getLsbD 1).toNat * 2 ^ 3 +
  (r.getLsbD 0).toNat * 2 ^ 4

/-- The entries of HQ found by `steps` loop steps from step `i` on, R' having been `prev` at step `i - 1`
(20_memory R78). -/
def hqFrom : (steps : Nat) → (i : Nat) → (prev : BitVec 10) → List Nat
  | 0, _, _ => []
  | steps + 1, i, prev =>
    let reg := hqRegister i prev
    let h := (i % 2) * 1024 + hqPermute reg
    if h < 1512 then h :: hqFrom steps (i + 1) reg else hqFrom steps (i + 1) reg

/-- HQ, the symbol-interleaver permutation of 2K (20_memory R78). -/
def hq2K : List Nat := hqFrom 2048 0 0

/-- DEMAP16, the bits of an axis region (20_memory R80). -/
def demap16Bits : AxisRegion → Bool × Bool
  | .outerPositive => (false, false)
  | .innerPositive => (false, true)
  | .innerNegative => (true, true)
  | .outerNegative => (true, false)

/-- TPS_FIELDS (20_memory R82). -/
def tpsFields2K : TpsFields where
  frame := ⟨23, 2⟩
  constellation := ⟨25, 2⟩
  hierarchy := ⟨27, 3⟩
  rateHp := ⟨30, 3⟩
  rateLp := ⟨33, 3⟩
  guard := ⟨36, 2⟩
  fftMode := ⟨38, 2⟩

/-- The 2K parameter values of 00_scope R6, given the ones R6 leaves OPEN. -/
def params2K (num : NumParam) (snr fftScale : PosReal) (decisionLen outputBits tbGuard : Nat) : Params where
  n := 2048
  kMax := 1704
  carrierOffset := 2048 - 1704 / 2
  snr := snr
  epsBias := 0
  trackW := 15
  quantW := 2
  confAlpha := 1 / 8
  confThresh := 1 / 2
  pilotTol := 1 / 2
  anomalyWarn := 10
  splitMargin := 3
  nMax := 1512
  biBlock := 126
  decisionLen := decisionLen
  outputBits := outputBits
  tbGuard := tbGuard
  g1 := 0o171
  g2 := 0o133
  syncWord := 0x35EE
  cpList := cpList2K
  tpsList := tpsList2K
  prbsW := prbsW2K
  hq := hq2K
  biOffsets := [0, 63, 105, 42, 21, 84]
  demap16 := demap16Bits
  demux16 := [0, 2, 1, 3]
  tpsFields := tpsFields2K
  fftScale := fftScale
  num := num

/-- The instance this model is of: 2K, with the OPEN parameters of 00_scope R6 left open (log 4, log 5). -/
def theParams : Params :=
  params2K Config.num Config.snr Config.fftScale (Config.decisionLenLess1 + 1)
    (Config.outputBitsLess1 + 1) Config.tbGuard

end Sys2Proof.Machine
end

