-- ==== Sys2Proof/Syntax.lean ====
section
/-! DEFINITION. The commands of the block: one constructor of `Instr` per row of spec/opcode_table.json,
with the register names of formats W and R (10_state R22, R60). -/

namespace Sys2Proof

/-- The configuration registers that WRCFG names (10_state R22). -/
inductive CfgReg where
  | guard
  | const
  | hier
  | rate
deriving DecidableEq, Repr

/-- The health counters (10_state R34). -/
inductive Counter where
  | symbols
  | acq
  | anomalyTotal
  | qualityWarn
  | splitVote
  | resync
  | consist
  | configErr
  | seqErr
  | illegal
  | tpsEvents
  | dmxOut
  | vitBits
deriving DecidableEq, Repr

/-- The status registers that RDSTAT names (10_state R60). -/
inductive StatReg where
  | flags
  | tpsPos
  | tpsFrame
  | tpsShift
  | idxSym
  | idxFrame
  | conf
  | lastA
  | lastArgmax
  | lastEps
  | nco
  | efill
  | lastTpsEvent
  | anomalyLast
  | vbest
  | vcount
  | cfg (r : CfgReg)
  | blkId
  | counter (c : Counter)
deriving DecidableEq, Repr

/-- The commands (30_encoding R91). `wrcfg` carries VAL as the word holds it, so a value too wide for its
register is ill-formed (WellFormed.lean); REG and IDX are the registers they select, so an index that
selects none has no term. -/
inductive Instr where
  | nop
  | reset
  | wrcfg (reg : CfgReg) (val : BitVec 16)
  | rdstat (idx : StatReg)
  | est
  | fft
  | eq
  | tps
  | demux
  | symbol
  | vcons (x y : Bool)
  | vconsP (y : Bool)
  | vflush
deriving DecidableEq, Repr

/-- The width of a configuration register (10_state R22). -/
def CfgReg.width : CfgReg → Nat
  | .guard => 2
  | .const => 2
  | .hier => 3
  | .rate => 3

/-- The pseudo-instructions of 30_encoding R99. -/
inductive Pseudo where
  | cfgGuard (v : BitVec 16)
  | cfgConst (v : BitVec 16)
  | cfgHier (v : BitVec 16)
  | cfgRate (v : BitVec 16)
  | rdFlags
deriving DecidableEq, Repr

end Sys2Proof
end

