-- ==== Sys2Proof/Machine/State.lean ====
section
/-! DEFINITION. The state of one channel (10_state), the machine's fault and refusal reasons, and the
state after reset (70_reset R380, R381). -/

namespace Sys2Proof.Machine

/-- Why the machine stops. No rule of the spec stops it: every condition is a status code and the next
command word is then taken (60_exceptions R362), and a wait is a stutter (70_reset R386). So no
constructor exists and nothing raises one. -/
inductive Fault where
deriving DecidableEq, Repr

/-- Why an instruction has no meaning. -/
inductive Refusal where
  /-- Raised by an arm of `exec` whose instruction has no meaning in this model; safe, since the model
  stops. No arm raises it: all thirteen commands have a meaning. -/
  | notModelled (mnemonic : String)
deriving DecidableEq, Repr

/-- The status codes of 60_exceptions R350. -/
inductive Status where
  | ok
  | illegalCmd
  | seqError
  | halted
  | shortRead
  | endOfStream
  | configError
  | consistencyError
deriving DecidableEq, Repr

/-- An item of the sample port (10_state R52). -/
inductive SampleItem where
  | sample (z : Cplx)
  | eos
deriving DecidableEq, Repr

/-- An item of VIT_OUT (10_state R53, 30_encoding R113). -/
structure VitItem where
  byte : Byte
  nbits : Nat
deriving DecidableEq, Repr

/-- An item of an output port (10_state R53, R54). -/
inductive OutItem where
  | resp (code : Status) (data : BitVec 64)
  | dmx (byte : Byte)
  | vit (item : VitItem)
  | tpsEvt (word : BitVec 64)
  | diag (code : BitVec 8) (arg : BitVec 32)
deriving DecidableEq, Repr

/-- The configuration registers (10_state R22). -/
structure CfgRegs where
  guard : BitVec 2
  const : BitVec 2
  hier : BitVec 3
  rate : BitVec 3
deriving DecidableEq, Repr

/-- The estimator's state (10_state R24). -/
structure EstState where
  /-- entries [0, EFILL) of EBUF; the others hold no value (log 6, log 7) -/
  ebuf : List Cplx
  nco : Scalar
  conf : Scalar
  tracking : Bool
  lastArgmax : Nat
  lastA : Nat
  lastEps : Scalar
  eosSeen : Bool
  halted : Bool
deriving DecidableEq, Repr

/-- The block registers and stage tags (10_state R25, R27, R28). An array that nothing has written since
reset is empty (log 6); a tag that is NONE is `none`. -/
structure BlockRegs where
  td : List Cplx
  fd : List Cplx
  eqPh : List Scalar
  eqAmp : List Scalar
  eqb : List Cplx
  blkId : Nat
  tdId : Option Nat
  fdId : Option Nat
  eqId : Option Nat
  tpsId : Option Nat
  dmxId : Option Nat
deriving DecidableEq, Repr

/-- The TPS decoder's state (10_state R29). Bit i of `payload` is TPS bit s_i. -/
structure TpsState where
  pos : Fin 68
  shift : BitVec 16
  payload : BitVec 68
  prev : List Cplx
  sync : Bool
  frame : BitVec 2
  idxSym : Fin 68
  idxFrame : BitVec 2
  outValid : Bool
  lastEvent : BitVec 64
  eventSeen : Bool
deriving DecidableEq, Repr

/-- The demux's and the depuncture feeder's state (10_state R30, R31). -/
structure DemuxState where
  anomalyLast : Nat
  feedBuf : List Bool
deriving DecidableEq, Repr

/-- A trellis record (10_state R32). -/
structure VitRecord where
  pm : Nat
  pred : BitVec 6
  bit : Bool
deriving DecidableEq, Repr

/-- The Viterbi decoder's state (10_state R32). `vring` lists the slots written since reset, slot numbers
strictly rising (log 6). -/
structure VitState where
  vpm : List Nat
  vring : List (Nat × List VitRecord)
  vw : Nat
  vcount : Nat
  vbest : Nat
  vob : List Bool
deriving DecidableEq, Repr

/-- The health counters (10_state R34). -/
structure Counters where
  symbols : BitVec 32
  acq : BitVec 32
  anomalyTotal : BitVec 32
  qualityWarn : BitVec 32
  splitVote : BitVec 32
  resync : BitVec 32
  consist : BitVec 32
  configErr : BitVec 32
  seqErr : BitVec 32
  illegal : BitVec 32
  tpsEvents : BitVec 32
  dmxOut : BitVec 32
  vitBits : BitVec 32
deriving DecidableEq, Repr

/-- MFAULT (10_state R57, R58): which of the two model fault names the set holds. -/
structure ModelFaults where
  preZeroAmp : Bool
  preInstance : Bool
deriving DecidableEq, Repr

/-- The commands that can wait in PullSample (10_state R52). -/
inductive HoldCmd where
  | est
  | symbol
deriving DecidableEq, Repr

/-- A command that waits in PullSample (70_reset R386), and how many samples its fill has taken so far
(`got` of 40_estimator R131). -/
structure Hold where
  cmd : HoldCmd
  got : Nat
deriving DecidableEq, Repr

/-- The whole state of one channel and its ports. -/
structure State where
  cfg : CfgRegs
  est : EstState
  blk : BlockRegs
  tps : TpsState
  dmx : DemuxState
  vit : VitState
  cnt : Counters
  /-- the CMD port: words pushed and not yet taken, oldest first (10_state R51) -/
  cmd : List Word
  /-- the SAMPLE port: items pushed and not yet taken, oldest first (10_state R52) -/
  sample : List SampleItem
  /-- everything emitted on the output ports, oldest first, in the one order of emission (20_memory R87).
  Log 15. -/
  out : List OutItem
  mfault : ModelFaults
  /-- the waiting command, if any (log 9) -/
  hold : Option Hold
  /-- the model's own counter of unconstrained draws (log 14) -/
  draws : Nat
deriving DecidableEq, Repr

/-- The machine at power-on (70_reset R380, R381): the values of R380's table, empty ports, nothing held. -/
def State.reset : State where
  cfg := { guard := 0, const := 1, hier := 0, rate := 0 }
  est :=
    { ebuf := [], nco := 0, conf := 0, tracking := false, lastArgmax := 0, lastA := 0, lastEps := 0,
      eosSeen := false, halted := false }
  blk :=
    { td := [], fd := [], eqPh := List.replicate (theParams.kMax + 1) 0,
      eqAmp := List.replicate (theParams.kMax + 1) 0, eqb := [], blkId := 0, tdId := none, fdId := none,
      eqId := none, tpsId := none, dmxId := none }
  tps :=
    { pos := 0, shift := 0, payload := 0, prev := List.replicate theParams.tpsList.length Cplx.zero,
      sync := false, frame := 0, idxSym := 0, idxFrame := 0, outValid := false, lastEvent := 0,
      eventSeen := false }
  dmx := { anomalyLast := 0, feedBuf := [] }
  vit :=
    { vpm := List.replicate nStates 0, vring := [], vw := 0, vcount := 0, vbest := 0, vob := [] }
  cnt :=
    { symbols := 0, acq := 0, anomalyTotal := 0, qualityWarn := 0, splitVote := 0, resync := 0,
      consist := 0, configErr := 0, seqErr := 0, illegal := 0, tpsEvents := 0, dmxOut := 0, vitBits := 0 }
  cmd := []
  sample := []
  out := []
  mfault := { preZeroAmp := false, preInstance := false }
  hold := none
  draws := 0

end Sys2Proof.Machine
end

