-- ==== Sys2Proof/Machine/Flags.lean ====
section
/-! DEFINITION. The status flags word (10_state R33) and the saturating health counters (10_state R34). -/

namespace Sys2Proof.Machine

/-- FLAGS (10_state R33): bits 0 to 5 copy the named state, bits 63 to 6 read 0. -/
def State.flags (s : State) : BitVec 64 :=
  (0 : BitVec 58) ++ BitVec.ofBool s.tps.eventSeen ++ BitVec.ofBool s.est.eosSeen ++
    BitVec.ofBool s.est.halted ++ BitVec.ofBool s.est.tracking ++ BitVec.ofBool s.tps.outValid ++
    BitVec.ofBool s.tps.sync

/-- A counter increased by `k`, saturating at 2^32 - 1 (10_state R34). -/
def satAdd (c : BitVec 32) (k : Nat) : BitVec 32 := BitVec.ofNat 32 (min (c.toNat + k) (2 ^ 32 - 1))

/-- The value of a counter. -/
def Counters.get (c : Counters) : Counter → BitVec 32
  | .symbols => c.symbols
  | .acq => c.acq
  | .anomalyTotal => c.anomalyTotal
  | .qualityWarn => c.qualityWarn
  | .splitVote => c.splitVote
  | .resync => c.resync
  | .consist => c.consist
  | .configErr => c.configErr
  | .seqErr => c.seqErr
  | .illegal => c.illegal
  | .tpsEvents => c.tpsEvents
  | .dmxOut => c.dmxOut
  | .vitBits => c.vitBits

/-- The counters with one of them increased by `k` (10_state R34). -/
def Counters.add (c : Counters) (name : Counter) (k : Nat) : Counters :=
  match name with
  | .symbols => { c with symbols := satAdd c.symbols k }
  | .acq => { c with acq := satAdd c.acq k }
  | .anomalyTotal => { c with anomalyTotal := satAdd c.anomalyTotal k }
  | .qualityWarn => { c with qualityWarn := satAdd c.qualityWarn k }
  | .splitVote => { c with splitVote := satAdd c.splitVote k }
  | .resync => { c with resync := satAdd c.resync k }
  | .consist => { c with consist := satAdd c.consist k }
  | .configErr => { c with configErr := satAdd c.configErr k }
  | .seqErr => { c with seqErr := satAdd c.seqErr k }
  | .illegal => { c with illegal := satAdd c.illegal k }
  | .tpsEvents => { c with tpsEvents := satAdd c.tpsEvents k }
  | .dmxOut => { c with dmxOut := satAdd c.dmxOut k }
  | .vitBits => { c with vitBits := satAdd c.vitBits k }

/-- The state with one counter increased by `k` (10_state R34). -/
def State.count (s : State) (name : Counter) (k : Nat) : State := { s with cnt := s.cnt.add name k }

end Sys2Proof.Machine
end

