-- ==== Sys2Proof/Machine/Ops.lean ====
section
/-! DEFINITION. The named operations over the state: ports, arrays, the trellis ring, the conditions of
60_exceptions, model faults and reset. -/

namespace Sys2Proof.Machine

/-! ## Output ports (10_state R53, R54) -/

/-- `Emit`: one item more on an output port. -/
def State.emit (s : State) (item : OutItem) : State := { s with out := s.out ++ [item] }

/-- Several items emitted in order. -/
def State.emitAll (s : State) (items : List OutItem) : State := { s with out := s.out ++ items }

/-- `Respond(code, data)` (00_scope R10, 10_state R54). -/
def State.respond (s : State) (code : Status) (data : BitVec 64) : State := s.emit (.resp code data)

/-- A diagnostic item (30_encoding R110). The spec lets a model emit or omit it (10_state R56). Log 11. -/
def State.diag (s : State) (code : BitVec 8) (arg : Nat) : State :=
  s.emit (.diag code (BitVec.ofNat 32 arg))

/-- The RESP port: every response so far, oldest first. -/
def State.respPort (s : State) : List (Status × BitVec 64) :=
  s.out.filterMap fun | .resp c d => some (c, d) | _ => none

/-- The DMX_OUT port. -/
def State.dmxPort (s : State) : List Byte := s.out.filterMap fun | .dmx b => some b | _ => none

/-- The VIT_OUT port. -/
def State.vitPort (s : State) : List VitItem := s.out.filterMap fun | .vit v => some v | _ => none

/-- The TPS_EVT port. -/
def State.tpsPort (s : State) : List (BitVec 64) := s.out.filterMap fun | .tpsEvt w => some w | _ => none

/-- The DIAG port. -/
def State.diagPort (s : State) : List (BitVec 8 × BitVec 32) :=
  s.out.filterMap fun | .diag c a => some (c, a) | _ => none

/-- The `code` byte of a status (60_exceptions R350). -/
def Status.code : Status → BitVec 8
  | .ok => 0x00
  | .illegalCmd => 0x01
  | .seqError => 0x02
  | .halted => 0x03
  | .shortRead => 0x04
  | .endOfStream => 0x05
  | .configError => 0x06
  | .consistencyError => 0x07

/-! ## Input ports: the host's side (46_control R332) -/

/-- The host pushes a command word. -/
def State.pushCommand (s : State) (w : Word) : State := { s with cmd := s.cmd ++ [w] }

/-- The host pushes a sample or EOS. -/
def State.pushSample (s : State) (item : SampleItem) : State := { s with sample := s.sample ++ [item] }

/-- What `PullSample()` gives. -/
inductive Pull where
  /-- a sample, and the state without it on the port -/
  | item (z : Cplx) (s : State)
  /-- EOS, and the state with EOS_SEEN = 1 -/
  | ended (s : State)
  /-- the port is empty: the command holds -/
  | empty
deriving DecidableEq, Repr

/-- `PullSample()` (10_state R52). -/
def pullSample (s : State) : Pull :=
  if s.est.eosSeen then .ended s
  else
    match s.sample with
    | [] => .empty
    | .sample z :: rest => .item z { s with sample := rest }
    | .eos :: rest => .ended { s with sample := rest, est := { s.est with eosSeen := true } }

/-! ## Arrays (20_memory R70) -/

/-- Entry `i` of a complex array; one that nothing has written is a free value. Log 6. -/
def readEntry (a : List Cplx) (i : Nat) : Cplx := a.getD i (Config.unwrittenEntry i)

/-- Writes `vals[i]` to entry `idx[i]` of a list of `len` entries that start as `init`. -/
def scatter (init : List α) : (idx : List Nat) → (vals : List α) → List α
  | i :: idx, v :: vals => scatter (init.set i v) idx vals
  | _, _ => init

/-! ## The trellis ring (10_state R32) -/

/-- The canonical form of the sparse ring: slot numbers strictly rising. -/
def ringWf (r : List (Nat × List VitRecord)) : Bool := decide (List.Pairwise (· < ·) (r.map Prod.fst))

/-- The ring with slot `i` holding `slot`. -/
def ringWrite : (r : List (Nat × List VitRecord)) → (i : Nat) → (slot : List VitRecord) →
    List (Nat × List VitRecord)
  | [], i, slot => [(i, slot)]
  | (j, old) :: r, i, slot =>
    if i < j then (i, slot) :: (j, old) :: r
    else if i = j then (i, slot) :: r
    else (j, old) :: ringWrite r i slot

/-- The records of slot `i`, if a step has written it since reset. -/
def ringSlot : (r : List (Nat × List VitRecord)) → (i : Nat) → Option (List VitRecord)
  | [], _ => none
  | (j, slot) :: r, i => if i = j then some slot else ringSlot r i

/-- A record that nothing has written: a free value (log 6). -/
def unwrittenRecord (i : Nat) (st : BitVec 6) : VitRecord :=
  ⟨(Config.unwrittenRecord i st).1, (Config.unwrittenRecord i st).2.1, (Config.unwrittenRecord i st).2.2⟩

/-- The record of slot `i` and state `st`. -/
def ringRead (r : List (Nat × List VitRecord)) (i : Nat) (st : BitVec 6) : VitRecord :=
  ((ringSlot r i).getD []).getD st.toNat (unwrittenRecord i st)

/-! ## Bits -/

/-- The byte whose bits 7, 6, ... are the given bits, first bit first, zeros below (20_memory R72). -/
def byteOfBits (bits : List Bool) : Byte :=
  BitVec.ofNat 8 (((bits ++ List.replicate (8 - bits.length) false).take 8).foldl
    (fun acc b => 2 * acc + b.toNat) 0)

/-- A bit sequence as whole bytes, MSB-first (20_memory R72, 30_encoding R112); what is left of the last
byte is filled with zeros. -/
def packBits : List Bool → List Byte
  | b0 :: b1 :: b2 :: b3 :: b4 :: b5 :: b6 :: b7 :: rest =>
    byteOfBits [b0, b1, b2, b3, b4, b5, b6, b7] :: packBits rest
  | [] => []
  | bits => [byteOfBits bits]

/-! ## Model faults (10_state R57, R58) -/

/-- `ModelFault(PRE_ZERO_AMP)`: the name is added and the command goes on. -/
def ModelFaults.addPreZeroAmp (m : ModelFaults) : ModelFaults := { m with preZeroAmp := true }

/-- `ModelFault(PRE_INSTANCE)`: an instance that violates 00_scope R7. Log 13. -/
def ModelFaults.addPreInstance (m : ModelFaults) : ModelFaults := { m with preInstance := true }

/-- MFAULT at power-on of an instance: empty, but for PRE_INSTANCE where the instance is not valid
(10_state R57, R58). For this model's instance it is empty (`instanceFaults_theParams`, Laws). -/
def instanceFaults (P : Params) : ModelFaults :=
  if P.valid then ⟨false, false⟩ else ModelFaults.addPreInstance ⟨false, false⟩

/-! ## Conditions (60_exceptions)

The block has no traps: `raise <Condition>(info)` ends the command with a status code. This is the one
operation that raises a condition; there is no return from one (60_exceptions R362). -/

/-- The conditions a command can meet. -/
inductive Condition where
  /-- the word is illegal (R352) -/
  | illegalCmd
  /-- stage order violated (R353) -/
  | seqError
  /-- the block is halted (R351) -/
  | halted
  /-- the stream ended inside a window, `got` samples into the fill (R354) -/
  | shortRead (got : Nat)
  /-- the stream ended before the window (R355) -/
  | endOfStream
  /-- unsupported configuration; `arg` 1 constellation, 2 hierarchy, 3 rate (R356, 44_demux R232) -/
  | configError (arg : Nat)
  /-- the data-cell count is not N_MAX (R357) -/
  | consistencyError
deriving DecidableEq, Repr

/-- The status code of a condition (60_exceptions R350). -/
def Condition.status : Condition → Status
  | .illegalCmd => .illegalCmd
  | .seqError => .seqError
  | .halted => .halted
  | .shortRead _ => .shortRead
  | .endOfStream => .endOfStream
  | .configError _ => .configError
  | .consistencyError => .consistencyError

/-- The state effect of a condition, its counter and its diagnostic (60_exceptions R351 to R357). -/
def Condition.effect (c : Condition) (s : State) : State :=
  match c with
  | .illegalCmd => s.count .illegal 1
  | .seqError => s.count .seqErr 1
  | .halted => s
  | .shortRead got => { s with est := { s.est with halted := true } }.diag 0x07 got
  | .endOfStream => s.diag 0x09 0
  | .configError arg => (s.count .configErr 1).diag 0x06 arg
  | .consistencyError => (s.count .consist 1).diag 0x05 2

/-- `raise`: the status a command ends with and the state it leaves, before its response. -/
def raiseCondition (c : Condition) (s : State) : Status × State := (c.status, c.effect s)

/-- A command that ends in a condition of its own: the effect and the response. -/
def respondCondition (c : Condition) (s : State) : State := (c.effect s).respond c.status 0

/-- A completed stage body: its status as the response (10_state R54). -/
def respondStage (r : Status × State) : State := r.2.respond r.1 0

/-! ## Reset (70_reset R380) -/

/-- The reset procedure: every state element to its value of R380's table. The input ports keep what is
queued, the output ports what was emitted, and MFAULT is unchanged. -/
def State.resetChannel (s : State) : State :=
  { State.reset with
    cmd := s.cmd, sample := s.sample, out := s.out, mfault := s.mfault, draws := s.draws }

end Sys2Proof.Machine
end

