-- ==== Sys2Proof/Machine/Operands.lean ====
section
/-! DEFINITION. The operand forms of the commands: the configuration registers of format W (10_state R22)
and the status registers of format R (10_state R60). -/

namespace Sys2Proof.Machine

/-- The value of a configuration register, zero-extended to 64 bits (10_state R60). -/
def CfgRegs.read (c : CfgRegs) : CfgReg → BitVec 64
  | .guard => c.guard.setWidth 64
  | .const => c.const.setWidth 64
  | .hier => c.hier.setWidth 64
  | .rate => c.rate.setWidth 64

/-- A configuration register written with the low bits of VAL; every value of the width is stored
unchanged (10_state R22). -/
def CfgRegs.write (c : CfgRegs) (reg : CfgReg) (val : BitVec 16) : CfgRegs :=
  match reg with
  | .guard => { c with guard := val.setWidth 2 }
  | .const => { c with const := val.setWidth 2 }
  | .hier => { c with hier := val.setWidth 3 }
  | .rate => { c with rate := val.setWidth 3 }

/-- EFILL (10_state R24): the number of valid entries of EBUF. Log 7. -/
def EstState.efill (e : EstState) : Nat := e.ebuf.length

/-- The value RDSTAT returns for a status register (10_state R60): integers zero-extended, Num values as
binary64 patterns, VBEST saturated, BLK_ID its low 64 bits. Of a VCOUNT that does not fit 64 bits, for which R60
states no value, the low 64 bits are the model's choice (log 25). -/
def readStatus (s : State) : StatReg → BitVec 64
  | .flags => s.flags
  | .tpsPos => BitVec.ofNat 64 s.tps.pos.val
  | .tpsFrame => s.tps.frame.setWidth 64
  | .tpsShift => s.tps.shift.setWidth 64
  | .idxSym => BitVec.ofNat 64 s.tps.idxSym.val
  | .idxFrame => s.tps.idxFrame.setWidth 64
  | .conf => toBinary64 s.est.conf
  | .lastA => BitVec.ofNat 64 s.est.lastA
  | .lastArgmax => BitVec.ofNat 64 s.est.lastArgmax
  | .lastEps => toBinary64 s.est.lastEps
  | .nco => toBinary64 s.est.nco
  | .efill => BitVec.ofNat 64 s.est.efill
  | .lastTpsEvent => s.tps.lastEvent
  | .anomalyLast => BitVec.ofNat 64 s.dmx.anomalyLast
  | .vbest => BitVec.ofNat 64 (min s.vit.vbest (2 ^ 64 - 1))
  | .vcount => BitVec.ofNat 64 s.vit.vcount
  | .cfg r => s.cfg.read r
  | .blkId => BitVec.ofNat 64 s.blk.blkId
  | .counter c => (s.cnt.get c).setWidth 64

end Sys2Proof.Machine
end

