-- ==== Sys2Proof/Machine/Control.lean ====
section
/-! DEFINITION. The control commands NOP, RESET, WRCFG and RDSTAT (46_control R310 to R314). -/

namespace Sys2Proof.Machine

/-- NOP (46_control R310): no state changes; it responds (OK, 0). -/
def execNop (s : State) : Host.Outcome State Fault Refusal := .next (s.respond .ok 0)

/-- RESET (46_control R313): the reset procedure, then (OK, 0). -/
def execReset (s : State) : Host.Outcome State Fault Refusal := .next (s.resetChannel.respond .ok 0)

/-- The state effect of a legal WRCFG (46_control R312): a change of the guard code discards the estimator
buffer and the confidence. -/
def writeConfig (reg : CfgReg) (val : BitVec 16) (s : State) : State :=
  let est :=
    if reg = .guard ∧ val.setWidth 2 ≠ s.cfg.guard then { s.est with ebuf := [], conf := 0 } else s.est
  { s with est := est, cfg := s.cfg.write reg val }

/-- WRCFG (46_control R312). VAL must fit its register (30_encoding R92); the decoder lets no other value
through, and one given to the meaning itself is the same illegal command (log 18). -/
def execWrcfg (reg : CfgReg) (val : BitVec 16) (s : State) : Host.Outcome State Fault Refusal :=
  .next (if val.toNat < 2 ^ reg.width then (writeConfig reg val s).respond .ok 0
    else respondCondition .illegalCmd s)

/-- RDSTAT (46_control R314): it responds (OK, value) and changes no state. -/
def execRdstat (idx : StatReg) (s : State) : Host.Outcome State Fault Refusal :=
  .next (s.respond .ok (readStatus s idx))

end Sys2Proof.Machine
end

