-- ==== Sys2Proof/Machine/Transform.lean ====
section
/-! DEFINITION. The spectral transform and the carrier grid: the FFT command (41_fft R170 to R174). -/

namespace Sys2Proof.Machine

/-- The term `TD[n] * exp(-i 2 pi n k / N)` of bin `k` (41_fft R171), `z` being TD[n]. -/
def dftTerm (P : Params) (k : Nat) (z : Cplx) (n : Nat) : Cplx :=
  cmul z (expI P.num (-(twoPi P.num * (n * k) / P.n)))

/-- `FD[k] = FFT_SCALE * sum_n TD[n] exp(-i 2 pi n k / N)` (41_fft R171), FFT_SCALE being the value in which NUM holds
it (log 4). NUM rounds the sum as a whole, whatever algorithm it takes it by (00_scope R5: FFT algorithm internals); of
an all-zero block it is 0 (R170). -/
def dftBin (P : Params) (td : List Cplx) (k : Nat) : Cplx :=
  let zs := (List.range P.n).map (readEntry td)
  let terms := zs.mapIdx fun n z => dftTerm P k z n
  let known := zs.all fun z => decide (z = Cplx.zero)
  let scale := (P.num.ofReal P.fftScale).val
  ⟨deliver P.num (.binRe td k) known (scale * (terms.map Cplx.re).sum),
    deliver P.num (.binIm td k) known (scale * (terms.map Cplx.im).sum)⟩

/-- The forward transform of a block (41_fft R171). -/
def forwardTransform (P : Params) (td : List Cplx) : List Cplx := (List.range P.n).map (dftBin P td)

/-- The FFT entry of logical carrier `c` (41_fft R172). -/
def carrierBin (P : Params) (c : Nat) : Nat := (c + P.carrierOffset) % P.n

/-- `X[c]`: the carrier grid of 41_fft R172. -/
def carrier (P : Params) (fd : List Cplx) (c : Nat) : Cplx := readEntry fd (carrierBin P c)

/-- The body of FFT (41_fft R170). -/
def fftBody (P : Params) (s : State) : Status × State :=
  if s.est.halted then raiseCondition .halted s
  else if s.blk.tdId = none then raiseCondition .seqError s
  else (.ok, { s with blk := { s.blk with fd := forwardTransform P s.blk.td, fdId := s.blk.tdId } })

/-- FFT (41_fft R170). -/
def execFft (s : State) : Host.Outcome State Fault Refusal := .next (respondStage (fftBody theParams s))

end Sys2Proof.Machine
end

