-- ==== Sys2Proof/Machine/Equalizer.lean ====
section
/-! DEFINITION. The pilot-based equalizer: the EQ command (42_equalizer R180 to R187). -/

namespace Sys2Proof.Machine

/-- A measured continual pilot: its carrier, its angle and its amplitude (42_equalizer R182). -/
structure Pilot where
  c : Nat
  th : Scalar
  amp : Scalar
deriving DecidableEq, Repr

/-- Whether the reference sign s(c) is -1 (20_memory R77: s(c) = 1 - 2 PRBS_W[c]). -/
def refNegative (P : Params) (c : Nat) : Bool := P.prbsW.getD c false

/-- The measurement of continual pilot `c` (42_equalizer R181, R182): `p = X[c] s(c)`, `th = angle(p)`,
`A = |p| * 3/4`. -/
def measurePilot (P : Params) (fd : List Cplx) (c : Nat) : Pilot :=
  let p := signed (refNegative P c) (carrier P fd c)
  { c := c, th := angle P.num p
    amp := deliver P.num (.pilotAmplitude p) (decide (p = Cplx.zero)) (cabs P.num p * (3 / 4)) }

/-- The pilots in CP_LIST order (42_equalizer R180). -/
def measurePilots (P : Params) (fd : List Cplx) : List Pilot := P.cpList.map (measurePilot P fd)

/-- The gap `t1 - t0` (42_equalizer R183); that of equal angles is 0. -/
def gap (A : NumParam) (t0 t1 : Scalar) : Scalar := deliver A (.gap t0 t1) (decide (t0 = t1)) (t1 - t0)

/-- `Unwrap(t0, t1)` (42_equalizer R183): the later end shifted when the gap strictly exceeds pi. -/
def unwrap (A : NumParam) (t0 t1 : Scalar) : Scalar :=
  if A.pi.val < gap A t0 t1 then A.rnd (.unwrapped t0 t1) (t1 - twoPi A)
  else if A.pi.val < gap A t1 t0 then A.rnd (.unwrapped t0 t1) (t1 + twoPi A)
  else t1

/-- Phase and amplitude of carrier `c` of the pair (p, q) (42_equalizer R184); equal ends give their own (R188). -/
def interpolate (A : NumParam) (p q : Pilot) (c : Nat) : Scalar × Scalar :=
  let f : Rat := ((c - p.c : Nat) : Rat) / ((q.c - p.c : Nat) : Rat)
  let t1 := unwrap A p.th q.th
  (wrap A (deliver A (.phase p.c q.c c p.th t1) (decide (p.th = t1)) (p.th + f * (t1 - p.th))),
    deliver A (.amplitude p.c q.c c p.amp q.amp) (decide (p.amp = q.amp)) (p.amp + f * (q.amp - p.amp)))

/-- Phase and amplitude of carrier `c` from the pilots: a carrier that two pairs share takes the later
pair's value (42_equalizer R184), one outside the span the nearest pilot's (R185). Log 20. -/
def correction (A : NumParam) : (pilots : List Pilot) → (c : Nat) → Scalar × Scalar
  | [], _ => (0, 0)
  | [p], _ => (p.th, p.amp)
  | p :: q :: rest, c =>
    if c < p.c then (p.th, p.amp)
    else if c < q.c ∨ (c = q.c ∧ rest = []) then interpolate A p q c
    else correction A (q :: rest) c

/-- `Apply(x, ph, amp) = x * exp(-i ph) / amp` (42_equalizer R186). -/
def applyCorrection (A : NumParam) (x : Cplx) (ph amp : Scalar) : Cplx :=
  let v := cmul x (expI A (-ph))
  ⟨A.rnd (.appliedRe x ph amp) (v.re / amp), A.rnd (.appliedIm x ph amp) (v.im / amp)⟩

/-- `EQB[c]` (42_equalizer R186): an unconstrained draw where the amplitude is 0. Log 14. -/
def equalizedCarrier (P : Params) (fd : List Cplx) (draws : Nat) (c : Nat) (corr : Scalar × Scalar) : Cplx :=
  if corr.2 = 0 then Config.freeDraw draws c else applyCorrection P.num (carrier P fd c) corr.1 corr.2

/-- The equalizer table of a block: phase and amplitude of every carrier 0..K_MAX (42_equalizer R180). -/
def equalizerTable (P : Params) (fd : List Cplx) : List (Scalar × Scalar) :=
  (List.range (P.kMax + 1)).map (correction P.num (measurePilots P fd))

/-- The state after EQ on the current block (42_equalizer R180, R186). -/
def equalize (P : Params) (s : State) : State :=
  let table := equalizerTable P s.blk.fd
  let zeroAmp := table.any (fun t => decide (t.2 = 0))
  { s with
    blk := { s.blk with
      eqPh := table.map Prod.fst
      eqAmp := table.map Prod.snd
      eqb := table.mapIdx fun c t => equalizedCarrier P s.blk.fd s.draws c t
      eqId := s.blk.fdId }
    mfault := if zeroAmp then s.mfault.addPreZeroAmp else s.mfault
    draws := if zeroAmp then s.draws + 1 else s.draws }

/-- The body of EQ (42_equalizer R180). -/
def eqBody (P : Params) (s : State) : Status × State :=
  if s.est.halted then raiseCondition .halted s
  else if s.blk.fdId = none then raiseCondition .seqError s
  else (.ok, equalize P s)

/-- EQ (42_equalizer R180). -/
def execEq (s : State) : Host.Outcome State Fault Refusal := .next (respondStage (eqBody theParams s))

end Sys2Proof.Machine
end

