-- ==== Sys2Proof/Machine/Viterbi.lean ====
section
/-! DEFINITION. The Viterbi decoder and the depuncture feeder: the VCONS, VCONS.P and VFLUSH commands
(45_viterbi R270 to R300, 20_memory R83). -/

namespace Sys2Proof.Machine

/-! ## Trellis tables (20_memory R83) -/

/-- `pred(s', b) = ((s' << 1) mod 64) | b`. -/
def predState (sp : BitVec 6) (b : Bool) : BitVec 6 := (sp <<< 1) ||| (BitVec.ofBool b).setWidth 6

/-- `u(s') = s'[5]`. -/
def inputBit (sp : BitVec 6) : Bool := sp.getLsbD 5

/-- The XOR of the bits of a 7-bit word (00_scope R8). -/
def parity7 (v : BitVec 7) : Bool :=
  v.getLsbD 0 ^^ v.getLsbD 1 ^^ v.getLsbD 2 ^^ v.getLsbD 3 ^^ v.getLsbD 4 ^^ v.getLsbD 5 ^^ v.getLsbD 6

/-- `parity({u, p} AND G)`. -/
def codeBit (g : BitVec 7) (u : Bool) (p : BitVec 6) : Bool := parity7 ((BitVec.ofBool u ++ p) &&& g)

/-- `XE(s', b)`. -/
def expectedX (P : Params) (sp : BitVec 6) (b : Bool) : Bool := codeBit P.g1 (inputBit sp) (predState sp b)

/-- `YE(s', b)`. -/
def expectedY (P : Params) (sp : BitVec 6) (b : Bool) : Bool := codeBit P.g2 (inputBit sp) (predState sp b)

/-! ## The trellis step -/

/-- The branch metric (45_viterbi R272, R273): the X term only where `hasX`. -/
def branchMetric (P : Params) (hasX x y : Bool) (sp : BitVec 6) (b : Bool) : Nat :=
  (if hasX then (expectedX P sp b ^^ x).toNat else 0) + (expectedY P sp b ^^ y).toNat

/-- The metric of the branch into `sp` with `b` (45_viterbi R272). -/
def candidate (P : Params) (hasX x y : Bool) (vpm : List Nat) (sp : BitVec 6) (b : Bool) : Nat :=
  vpm.getD (predState sp b).toNat 0 + branchMetric P hasX x y sp b

/-- The surviving record of destination state `sp`; equal candidates pick b = 0 (45_viterbi R272, R274). -/
def survivor (P : Params) (hasX x y : Bool) (vpm : List Nat) (sp : BitVec 6) : VitRecord :=
  let m0 := candidate P hasX x y vpm sp false
  let m1 := candidate P hasX x y vpm sp true
  let b := !decide (m0 ≤ m1)
  { pm := if b then m1 else m0, pred := predState sp b, bit := inputBit sp }

/-- The 64 states in order. -/
def allStates : List (BitVec 6) := (List.range nStates).map (BitVec.ofNat 6)

/-- The 64 survivors of a step. -/
def survivors (P : Params) (hasX x y : Bool) (vpm : List Nat) : List VitRecord :=
  allStates.map (survivor P hasX x y vpm)

/-- The add-compare-select of `Step`, before any traceback (45_viterbi R272). -/
def acsStep (P : Params) (hasX x y : Bool) (v : VitState) : VitState :=
  let slot := survivors P hasX x y v.vpm
  { v with
    vring := ringWrite v.vring v.vw slot
    vpm := slot.map VitRecord.pm
    vw := (v.vw + 1) % P.depth
    vcount := v.vcount + 1 }

/-! ## Traceback -/

/-- The least index at which a list is minimal, seen so far `best` with value `low`. -/
def argminFrom : (best : Nat) → (low : Nat) → (i : Nat) → List Nat → Nat
  | best, _, _, [] => best
  | best, low, i, x :: xs => if x < low then argminFrom i x (i + 1) xs else argminFrom best low (i + 1) xs

/-- The best state: the lowest metric, then the lowest state number (45_viterbi R281). -/
def bestState (vpm : List Nat) : Nat :=
  match vpm with
  | [] => 0
  | x :: xs => argminFrom 0 x 1 xs

/-- The ring slot of undecided step `k`: `(VW - VCOUNT + k) mod DEPTH` (45_viterbi R280, R283). -/
def undecidedSlot (P : Params) (v : VitState) (k : Nat) : Nat :=
  (((v.vw : Int) - v.vcount + k) % (P.depth : Int)).toNat

/-- The walk over the predecessor links from undecided step `k - 1` down to step 0, `s` being the state
after step `k - 1` and `newer` the bits of the steps from `k` on; gives the bits oldest first
(45_viterbi R280). -/
def traceWalk (P : Params) (v : VitState) : (k : Nat) → (s : BitVec 6) → (newer : List Bool) → List Bool
  | 0, _, newer => newer
  | k + 1, s, newer =>
    let r := ringRead v.vring (undecidedSlot P v k) s
    traceWalk P v k r.pred (r.bit :: newer)

/-- The decoded bits of all undecided steps, oldest first (45_viterbi R280). -/
def decidedBits (P : Params) (v : VitState) : List Bool :=
  traceWalk P v v.vcount (BitVec.ofNat 6 (bestState v.vpm)) []

/-- `PushBit` of each bit (45_viterbi R285): the pending bits and the whole bytes they make. -/
def pushBits : (vob : List Bool) → (bits : List Bool) → List Bool × List VitItem
  | vob, [] => (vob, [])
  | vob, b :: bits =>
    let vob' := vob ++ [b]
    if vob'.length = 8 then
      ((pushBits [] bits).1, ⟨byteOfBits vob', 8⟩ :: (pushBits [] bits).2)
    else pushBits vob' bits

/-- What a decoder operation leaves: the decoder's state, the VIT_OUT items and the number of bits decided. -/
structure VitResult where
  vit : VitState
  items : List VitItem
  bits : Nat
deriving DecidableEq, Repr

/-- `Traceback(n)` (45_viterbi R280). -/
def traceback (P : Params) (k : Nat) (v : VitState) : VitResult :=
  let best := bestState v.vpm
  let pushed := pushBits v.vob ((decidedBits P v).take k)
  { vit := { v with vbest := v.vpm.getD best 0, vcount := v.vcount - k, vob := pushed.1 }
    items := pushed.2
    bits := k }

/-- `Step(hasX, x, y)` on the decoder's state (45_viterbi R272): a traceback of O bits when the window is
full (R277). -/
def vitStep (P : Params) (hasX x y : Bool) (v : VitState) : VitResult :=
  let v' := acsStep P hasX x y v
  if v'.vcount = P.decisionLen + P.outputBits then traceback P P.outputBits v' else ⟨v', [], 0⟩

/-- VFLUSH on the decoder's state (45_viterbi R290): every pending step decided, then the partial byte. -/
def vitFlush (P : Params) (v : VitState) : VitResult :=
  let r : VitResult := if 0 < v.vcount then traceback P v.vcount v else ⟨v, [], 0⟩
  if r.vit.vob.length = 0 then r
  else
    { r with
      vit := { r.vit with vob := [] }
      items := r.items ++ [⟨byteOfBits r.vit.vob, r.vit.vob.length⟩] }

/-- The machine's state after a decoder operation: its state, its VIT_OUT items, CNT_VIT_BITS. -/
def State.withVit (s : State) (r : VitResult) : State :=
  { (s.emitAll (r.items.map .vit)).count .vitBits r.bits with vit := r.vit }

/-- `Step(hasX, x, y)` (45_viterbi R272). -/
def State.trellisStep (P : Params) (hasX x y : Bool) (s : State) : State :=
  s.withVit (vitStep P hasX x y s.vit)

/-- VCONS (45_viterbi R270): a full step. -/
def execVcons (x y : Bool) (s : State) : Host.Outcome State Fault Refusal :=
  .next ((s.trellisStep theParams true x y).respond .ok 0)

/-- VCONS.P (45_viterbi R271): a punctured step. -/
def execVconsP (y : Bool) (s : State) : Host.Outcome State Fault Refusal :=
  .next ((s.trellisStep theParams false false y).respond .ok 0)

/-- VFLUSH (45_viterbi R290). -/
def execVflush (s : State) : Host.Outcome State Fault Refusal :=
  .next ((s.withVit (vitFlush theParams s.vit)).respond .ok 0)

/-! ## Depuncture feeder (45_viterbi R295) -/

/-- One trellis step of the feeder: hasX, x, y. -/
structure FeedStep where
  hasX : Bool
  x : Bool
  y : Bool
deriving DecidableEq, Repr

/-- Rate 1/2: each period (X1, Y1) is one full step. Gives the steps and the leftover bits. -/
def cutHalf : List Bool → List FeedStep × List Bool
  | x1 :: y1 :: rest => (⟨true, x1, y1⟩ :: (cutHalf rest).1, (cutHalf rest).2)
  | rest => ([], rest)

/-- Rate 2/3: each period (X1, Y1, Y2) is one full step and one punctured step. -/
def cutTwoThirds : List Bool → List FeedStep × List Bool
  | x1 :: y1 :: y2 :: rest =>
    (⟨true, x1, y1⟩ :: ⟨false, false, y2⟩ :: (cutTwoThirds rest).1, (cutTwoThirds rest).2)
  | rest => ([], rest)

/-- The cut of a bit sequence into trellis steps by CFG_RATE (45_viterbi R295). -/
def cutBits (rate : BitVec 3) (z : List Bool) : List FeedStep × List Bool :=
  if rate = 0 then cutHalf z else cutTwoThirds z

/-- `Feed(x)` (45_viterbi R295): FEED_BUF goes first, the steps run in order, the leftover stays. -/
def State.feed (P : Params) (x : List Bool) (s : State) : State :=
  let cut := cutBits s.cfg.rate (s.dmx.feedBuf ++ x)
  let s' := cut.1.foldl (fun t f => t.trellisStep P f.hasX f.x f.y) s
  { s' with dmx := { s'.dmx with feedBuf := cut.2 } }

/-! ## The matching encoder (45_viterbi R293), for fixtures -/

/-- The code pairs (X, Y) of a message from encoder state `st`. -/
def convEncode (P : Params) : (st : BitVec 6) → (message : List Bool) → List (Bool × Bool)
  | _, [] => []
  | st, u :: us =>
    (codeBit P.g1 u st, codeBit P.g2 u st) ::
      convEncode P (((BitVec.ofBool u).setWidth 6 <<< 5) ||| (st >>> 1)) us

end Sys2Proof.Machine
end

