-- ==== Sys2Proof/Machine/Demux.lean ====
section
/-! DEFINITION. The constellation demapper and deinterleaver: the DEMUX command (44_demux R230 to R250). -/

namespace Sys2Proof.Machine

/-! ## Configuration check -/

/-- `ConfigCheck` (44_demux R232): the diagnostic argument of the first failure, none if all pass. -/
def configCheck (c : CfgRegs) : Option Nat :=
  if c.const ≠ 1 then some 1
  else if c.hier ≠ 0 then some 2
  else if c.rate ≠ 0 ∧ c.rate ≠ 1 then some 3
  else none

/-! ## Carrier walk -/

/-- The classes of a carrier (44_demux R234). -/
inductive CarrierClass where
  | continual
  | tps
  | scattered
  | data
deriving DecidableEq, Repr

/-- A carrier list as stored: the entries, then the sentinel 0xFFFF (20_memory R84). -/
def storedList (l : List Nat) : List Nat := l ++ [listSentinel]

/-- A list pointer moved past the entries below `c`: how many there were, and the rest (44_demux R233). -/
def skipBelow (c : Nat) : List Nat → Nat × List Nat
  | [] => (0, [])
  | x :: xs => if x < c then ((skipBelow c xs).1 + 1, (skipBelow c xs).2) else (0, x :: xs)

/-- The entries left before the sentinel when the walk ends (44_demux R233). -/
def leftBeforeSentinel (l : List Nat) : Nat := (l.takeWhile (· ≠ listSentinel)).length

/-- The scattered-pilot condition (44_demux R236). -/
def isScattered (sym c : Nat) : Bool := decide ((c + 12 - 3 * (sym % 4)) % 12 = 0)

/-- The walk of 44_demux R233 over carriers `c`, `c + 1`, ... (`left` of them) with the two list pointers:
the class of each carrier, and the number of missed pilots. -/
def walkFrom (sym : Nat) : (left : Nat) → (c : Nat) → (cps tpss : List Nat) → List CarrierClass × Nat
  | 0, _, cps, tpss => ([], leftBeforeSentinel cps + leftBeforeSentinel tpss)
  | left + 1, c, cps, tpss =>
    let a := skipBelow c cps
    let b := skipBelow c tpss
    let cls : CarrierClass :=
      if a.2.head? = some c then .continual
      else if b.2.head? = some c then .tps
      else if isScattered sym c then .scattered
      else .data
    let cps' := if a.2.head? = some c then a.2.tail else a.2
    let tpss' := if a.2.head? ≠ some c ∧ b.2.head? = some c then b.2.tail else b.2
    let r := walkFrom sym left (c + 1) cps' tpss'
    (cls :: r.1, a.1 + b.1 + r.2)

/-- The classes of carriers 0..K_MAX in symbol `sym`, and the number of missed pilots (44_demux R233, R235). -/
def walkClasses (P : Params) (sym : Nat) : List CarrierClass × Nat :=
  walkFrom sym (P.kMax + 1) 0 (storedList P.cpList) (storedList P.tpsList)

/-! ## Pilot verification -/

/-- `|e| - nominal` (44_demux R237, R238). -/
def deviation (P : Params) (e : Cplx) (nominal : Rat) : Scalar :=
  P.num.rnd (.deviation e nominal) (cabs P.num e - nominal)

/-- `PilotOK(e, s)` (44_demux R237, R239): the sign agrees and the magnitude is within tolerance of 4/3. -/
def pilotOk (P : Params) (e : Cplx) (negative : Bool) : Bool :=
  decide (0 < (signed negative e).re) &&
    decide (sabs (deviation P e (4 / 3)) ≤ P.pilotTol)

/-- `TpsOK(e)` (44_demux R238): the magnitude is within tolerance of 1. -/
def tpsOk (P : Params) (e : Cplx) : Bool := decide (sabs (deviation P e 1) ≤ P.pilotTol)

/-- Whether carrier `c` of class `cls` is an anomaly (44_demux R233). -/
def isAnomaly (P : Params) (cls : CarrierClass) (c : Nat) (e : Cplx) : Bool :=
  match cls with
  | .continual => !pilotOk P e (refNegative P c)
  | .tps => !tpsOk P e
  | .scattered => !pilotOk P e (refNegative P c)
  | .data => false

/-! ## Demapping -/

/-- A cell word (y0, y1, y2, y3) (20_memory R80). -/
structure Cell where
  y0 : Bool
  y1 : Bool
  y2 : Bool
  y3 : Bool
deriving DecidableEq, Repr, Inhabited

/-- Bit y_e of a cell word. -/
def Cell.bit (c : Cell) : Nat → Bool
  | 0 => c.y0
  | 1 => c.y1
  | 2 => c.y2
  | _ => c.y3

/-- The region of an axis value (44_demux R240): strict comparisons, thresholds 0.66, 0, -0.66. How NUM holds them is
open (D2): that -0.66 is the exact negation of NUM's 0.66, and that NUM's 0.66 may be any number, also one not above 0,
is the model's choice (log 29). -/
def axisRegion (A : NumParam) (v : Scalar) : AxisRegion :=
  if nlit A (66 / 100) < v then .outerPositive
  else if 0 < v then .innerPositive
  else if -(nlit A (66 / 100)) < v then .innerNegative
  else .outerNegative

/-- `Demap16(e)` (44_demux R240): the real part gives (y0, y2), the imaginary part (y1, y3). -/
def demap (P : Params) (e : Cplx) : Cell :=
  let r := P.demap16 (axisRegion P.num e.re)
  let i := P.demap16 (axisRegion P.num e.im)
  { y0 := r.1, y1 := i.1, y2 := r.2, y3 := i.2 }

/-- What the walk over an equalized block gives (44_demux R233, R241). -/
structure WalkResult where
  cells : List Cell
  anomalies : Nat
  missed : Nat
deriving DecidableEq, Repr

/-- `Walk(sym)` over the equalized block `eqb` (44_demux R233). -/
def walk (P : Params) (eqb : List Cplx) (sym : Nat) : WalkResult :=
  let classes := walkClasses P sym
  let carriers := classes.1.mapIdx fun c cls => (cls, c, readEntry eqb c)
  { cells := (carriers.filter fun t => decide (t.1 = .data)).map fun t => demap P t.2.2
    anomalies := (carriers.filter fun t => isAnomaly P t.1 t.2.1 t.2.2).length
    missed := classes.2 }

/-! ## Deinterleaving -/

/-- `SymbolDeinterleave(cells, sym)` (44_demux R242): even symbols gather, odd symbols scatter. -/
def symbolDeinterleave (P : Params) (cells : List Cell) (sym : Nat) : List Cell :=
  if sym % 2 = 0 then P.hq.map fun h => cells.getD h default
  else scatter (List.replicate P.nMax default) P.hq cells

/-- Bit plane `e` (44_demux R243). -/
def bitPlane (lg : List Cell) (e : Nat) : List Bool := lg.map fun c => c.bit e

/-- The place in its plane that bit `w` of plane `e` moves to (44_demux R244). -/
def rotatedIndex (P : Params) (e w : Nat) : Nat :=
  P.biBlock * (w / P.biBlock) + (w % P.biBlock + P.biOffsets.getD e 0) % P.biBlock

/-- Plane `e` deinterleaved: rotated within each block (44_demux R244). -/
def rotatePlane (P : Params) (e : Nat) (a : List Bool) : List Bool :=
  scatter (List.replicate P.nMax false) ((List.range P.nMax).map (rotatedIndex P e)) a

/-- `BitDeinterleave` with the bit demux (44_demux R243 to R245): `x[4i + j] = b_{DEMUX16[j]}[i]`. -/
def bitDeinterleave (P : Params) (lg : List Cell) : List Bool :=
  let planes := P.demux16.map fun e => rotatePlane P e (bitPlane lg e)
  (List.range P.nMax).flatMap fun i => planes.map fun b => b.getD i false

/-- The symbol's output bits (44_demux R246). -/
def symbolBits (P : Params) (cells : List Cell) (sym : Nat) : List Bool :=
  bitDeinterleave P (symbolDeinterleave P cells sym)

/-! ## Accounting and output -/

/-- The missed pilots of a walk: each counted and diagnosed (44_demux R235). -/
def State.missedPilots (s : State) : Nat → State
  | 0 => s
  | k + 1 => ((s.count .consist 1).diag 0x05 1).missedPilots k

/-- `QualityAccount(anomalies)` (44_demux R248). -/
def State.qualityAccount (P : Params) (s : State) (anomalies : Nat) : State :=
  let s1 := { s with dmx := { s.dmx with anomalyLast := anomalies } }.count .anomalyTotal anomalies
  if P.anomalyWarn < anomalies then (s1.count .qualityWarn 1).diag 0x04 anomalies else s1

/-- `EmitAndFeed(x)` (44_demux R250). -/
def State.emitAndFeed (P : Params) (x : List Bool) (s : State) : State :=
  ((s.emitAll ((packBits x).map .dmx)).count .dmxOut 1).feed P x

/-- The stage condition of DEMUX (46_control R330). -/
def demuxReady (b : BlockRegs) : Bool :=
  decide (b.fdId ≠ none) && decide (b.eqId = b.fdId) && decide (b.tpsId = b.fdId) &&
    decide (b.dmxId ≠ b.fdId)

/-- DEMUX from its walk on, the configuration having passed (44_demux R230). -/
def demuxWalked (P : Params) (w : WalkResult) (s : State) : Status × State :=
  let s1 := (s.missedPilots w.missed).qualityAccount P w.anomalies
  if w.cells.length ≠ P.nMax then raiseCondition .consistencyError s1
  else if s1.tps.outValid then (.ok, s1.emitAndFeed P (symbolBits P w.cells s1.tps.idxSym.val))
  else (.ok, s1)

/-- DEMUX once its stage condition holds (44_demux R230, R231): the block is consumed first. -/
def demuxRun (P : Params) (s : State) : Status × State :=
  let s1 := { s with blk := { s.blk with dmxId := s.blk.fdId } }
  match configCheck s.cfg with
  | some arg => raiseCondition (.configError arg) s1
  | none => demuxWalked P (walk P s.blk.eqb s.tps.idxSym.val) s1

/-- The body of DEMUX (44_demux R230). -/
def demuxBody (P : Params) (s : State) : Status × State :=
  if s.est.halted then raiseCondition .halted s
  else if demuxReady s.blk then demuxRun P s
  else raiseCondition .seqError s

/-- DEMUX (44_demux R230). -/
def execDemux (s : State) : Host.Outcome State Fault Refusal := .next (respondStage (demuxBody theParams s))

end Sys2Proof.Machine
end

