-- ==== Sys2Proof/Machine/Estimator.lean ====
section
/-! DEFINITION. The timing and frequency estimator: the EST command (40_estimator R130 to R147). -/

namespace Sys2Proof.Machine

/-! ## Filling the buffer -/

/-- Where a fill ends (40_estimator R131). -/
inductive FillEnd where
  /-- the buffer holds B samples -/
  | full (s : State)
  /-- EOS before any sample of this fill -/
  | ended (s : State)
  /-- EOS after `got` samples of this fill -/
  | short (got : Nat) (s : State)
  /-- the port is empty: EST holds with `got` samples taken (10_state R52) -/
  | held (got : Nat) (s : State)
deriving DecidableEq, Repr

/-- The loop of `Fill` with `missing` samples still to take and `got` taken (40_estimator R131). -/
def fillLoop : (missing : Nat) → (got : Nat) → (s : State) → FillEnd
  | 0, _, s => .full s
  | missing + 1, got, s =>
    match pullSample s with
    | .empty => .held got s
    | .ended s' => if got = 0 then .ended s' else .short got s'
    | .item z s' =>
      fillLoop missing (got + 1) { s' with est := { s'.est with ebuf := s'.est.ebuf ++ [z] } }

/-- B for the current guard code (10_state R23). -/
def State.bufSize (P : Params) (s : State) : Nat := P.bufSize s.cfg.guard

/-- `Fill` (40_estimator R131), `got` samples into it. -/
def fill (P : Params) (got : Nat) (s : State) : FillEnd := fillLoop (s.bufSize P - s.est.efill) got s

/-! ## The timing metric -/

/-- `rho = SNR / (SNR + 1)` (40_estimator R132), of the value in which NUM holds SNR (log 4). -/
def rho (P : Params) : Scalar := (P.num.ofReal P.snr).val / ((P.num.ofReal P.snr).val + 1)

/-- The sample pairs `(EBUF[k mod B], EBUF[(k+N) mod B])`, k = 0 .. N+2L-2 (40_estimator R133). -/
def samplePairs (P : Params) (ebuf : List Cplx) (b len : Nat) : List (Cplx × Cplx) :=
  (List.range (P.n + 2 * len - 1)).map fun k => (readEntry ebuf (k % b), readEntry ebuf ((k + P.n) % b))

/-- The correlation term `z * conj(w)` of a sample pair (40_estimator R133). -/
def correlationTerm (p : Cplx × Cplx) : Cplx := cmul p.1 (conj p.2)

/-- The energy term `|z|^2 + |w|^2` of a sample pair, halved (40_estimator R133). -/
def energyTerm (p : Cplx × Cplx) : Scalar := 1 / 2 * (normSq p.1 + normSq p.2)

/-- The sum of `term` over the window of `len` pairs from position `m` on (40_estimator R133), rounded by NUM as the
formula `φ`, however NUM evaluates it, incrementally from the position before among others (R135). While all samples
from position 0 to the window's end are 0, it is 0 (R130). -/
def nwindow (A : NumParam) (φ : Formula) (term : Cplx × Cplx → Scalar) (pairs : List (Cplx × Cplx))
    (len m : Nat) : Scalar :=
  deliver A φ ((pairs.take (m + len)).all fun p => decide (p = (Cplx.zero, Cplx.zero)))
    (((pairs.drop m).take len).map term).sum

/-- `gamma(m)` from the sample pairs of EBUF (40_estimator R133). -/
def gamma (P : Params) (ebuf : List Cplx) (pairs : List (Cplx × Cplx)) (len m : Nat) : Cplx :=
  ⟨nwindow P.num (.gammaRe ebuf len m) (fun p => (correlationTerm p).re) pairs len m,
    nwindow P.num (.gammaIm ebuf len m) (fun p => (correlationTerm p).im) pairs len m⟩

/-- `Phi(m)` from the sample pairs of EBUF (40_estimator R133). -/
def phi (P : Params) (ebuf : List Cplx) (pairs : List (Cplx × Cplx)) (len m : Nat) : Scalar :=
  nwindow P.num (.phi ebuf len m) energyTerm pairs len m

/-- `Score(m) = |gamma(m)| - rho * Phi(m)` (40_estimator R134). -/
def score (P : Params) (ebuf : List Cplx) (pairs : List (Cplx × Cplx)) (len m : Nat) : Scalar :=
  let g := gamma P ebuf pairs len m
  let f := phi P ebuf pairs len m
  deliver P.num (.score ebuf len m) (decide (g = Cplx.zero ∧ f = 0)) (cabs P.num g - rho P * f)

/-- The scores of the N + L window positions (40_estimator R134). -/
def scores (P : Params) (ebuf : List Cplx) (b len : Nat) : List Scalar :=
  let pairs := samplePairs P ebuf b len
  (List.range (P.n + len)).map (score P ebuf pairs len)

/-- The least index of a maximal value, seen so far `best` with value `top`, the next index being `i`. -/
def argmaxFrom : (best : Nat) → (top : Scalar) → (i : Nat) → List Scalar → Nat
  | best, _, _, [] => best
  | best, top, i, x :: xs => if top < x then argmaxFrom i x (i + 1) xs else argmaxFrom best top (i + 1) xs

/-- The least index at which a list is maximal (40_estimator R134). -/
def argmaxLeast : List Scalar → Nat
  | [] => 0
  | x :: xs => argmaxFrom 0 x 1 xs

/-! ## Tracking and acquisition -/

/-- `Normalise` (40_estimator R134): into [-L, N - L). -/
def normalise (P : Params) (len : Nat) (d0 : Int) : Int :=
  if (P.n : Int) - len ≤ d0 then d0 - P.n else d0

/-- `TrackAdjust` (40_estimator R136). -/
def trackAdjust (P : Params) (d : Int) : Int :=
  if d.natAbs ≤ P.quantW then 0 else max (-(P.trackW : Int)) (min (P.trackW : Int) d)

/-- `Inst(d)` (40_estimator R138). -/
def instConfidence (P : Params) (d : Int) : Scalar := if d.natAbs ≤ P.trackW then 1 else 0

/-- The smoothed confidence (40_estimator R138). That NUM may round it out of the range [0, 1] of 10_state R24, which
R138 and R148 give over the reals, is the model's choice (log 26). -/
def smoothConfidence (P : Params) (conf : Scalar) (d : Int) : Scalar :=
  P.num.rnd (.confidence conf d) (conf + P.confAlpha * (instConfidence P d - conf))

/-- The window start `a = L + dd` (40_estimator R139), `dd` by the mode (R136, R141). -/
def windowStart (P : Params) (len : Nat) (tracking : Bool) (d : Int) : Nat :=
  ((len : Int) + (if tracking then trackAdjust P d else d)).toNat

/-- `eps = -angle(gamma(mstar)) / (2 pi) + EPS_BIAS` (40_estimator R140). That NUM may round it out of the range
[-1/2, 1/2), which R140 gives without bias over the reals, is the model's choice (log 28). -/
def frequencyOffset (P : Params) (g : Cplx) : Scalar :=
  deliver P.num (.offset g) (decide (g = Cplx.zero)) (-(angle P.num g) / twoPi P.num + P.epsBias)

/-! ## Output, NCO and slide -/

/-- `TD[j] = EBUF[a+L+j] * exp(-i (NCO + 2 pi eps j / N))`, j = 0 .. N-1 (40_estimator R142). -/
def derotate (P : Params) (ebuf : List Cplx) (start : Nat) (nco eps : Scalar) : List Cplx :=
  (List.range P.n).map fun j =>
    let z := readEntry ebuf (start + j)
    let v := cmul z (expI P.num (-(nco + twoPi P.num * eps * j / P.n)))
    ⟨P.num.rnd (.outputRe z nco eps j) v.re, P.num.rnd (.outputIm z nco eps j) v.im⟩

/-- `NCO <- (NCO + 2 pi eps) mod 2 pi` (40_estimator R143): NUM rounds the advanced phase, and the reduction after it is
exact. That the reduced phase is not rounded again, so that after a negative advance it need not be a value of NUM's
format (of the reference NUM, a binary64 value), is the model's choice (log 2, log 22). -/
def advanceNco (P : Params) (nco eps : Scalar) : Scalar :=
  modTwoPi P.num (P.num.rnd (.advance nco eps) (nco + twoPi P.num * eps))

/-- `Slide(a)` (40_estimator R144): the B - a - N samples from a + N on move to the head. -/
def slide (P : Params) (ebuf : List Cplx) (b a : Nat) : List Cplx :=
  (ebuf.drop (a + P.n)).take (b - a - P.n)

/-- What one EST with a full buffer measures and decides. -/
structure Estimate where
  /-- mstar -/
  argmax : Nat
  /-- the normalised deviation d -/
  deviation : Int
  /-- tracking mode -/
  tracking : Bool
  /-- the window start a -/
  start : Nat
  /-- eps -/
  eps : Scalar
deriving DecidableEq, Repr

/-- The measurement of 40_estimator R130 on a full buffer: metric, argmax, mode, window start, offset. -/
def estimate (P : Params) (s : State) : Estimate :=
  let len := P.guardLen s.cfg.guard
  let b := s.bufSize P
  let mstar := argmaxLeast (scores P s.est.ebuf b len)
  let d := normalise P len ((mstar : Int) - len)
  let trk := decide (P.confThresh < s.est.conf)
  { argmax := mstar
    deviation := d
    tracking := trk
    start := windowStart P len trk d
    eps := frequencyOffset P (gamma P s.est.ebuf (samplePairs P s.est.ebuf b len) len mstar) }

/-- The state after an EST that outputs a block with estimate `e` (40_estimator R138, R141 to R144, R147). -/
def outputBlock (P : Params) (e : Estimate) (s : State) : State :=
  let len := P.guardLen s.cfg.guard
  let s1 : State := { s with
    est := { s.est with
      ebuf := slide P s.est.ebuf (s.bufSize P) e.start
      nco := advanceNco P s.est.nco e.eps
      conf := smoothConfidence P s.est.conf e.deviation
      tracking := e.tracking
      lastArgmax := e.argmax
      lastA := e.start
      lastEps := e.eps }
    blk := { s.blk with
      td := derotate P s.est.ebuf (e.start + len) s.est.nco e.eps
      blkId := s.blk.blkId + 1
      tdId := some (s.blk.blkId + 1) } }
  let s2 := if e.tracking then s1 else (s1.count .acq 1).diag 0x01 e.argmax
  s2.count .symbols 1

/-- Where the body of EST ends: with a status, or waiting in PullSample with `got` samples taken. -/
inductive EstEnd where
  | done (code : Status) (s : State)
  | held (got : Nat) (s : State)
deriving DecidableEq, Repr

/-- The body of EST from its fill on, `got` samples into the fill (40_estimator R130). -/
def estFrom (P : Params) (got : Nat) (s : State) : EstEnd :=
  match fill P got s with
  | .held got' s' => .held got' s'
  | .ended s' => .done (raiseCondition .endOfStream s').1 (raiseCondition .endOfStream s').2
  | .short got' s' => .done (raiseCondition (.shortRead got') s').1 (raiseCondition (.shortRead got') s').2
  | .full s' => .done .ok (outputBlock P (estimate P s') s')

/-- The body of EST (40_estimator R130): refused while HALTED (60_exceptions R351). -/
def estBody (P : Params) (s : State) : EstEnd :=
  if s.est.halted then .done (raiseCondition .halted s).1 (raiseCondition .halted s).2 else estFrom P 0 s

/-- EST's end as the whole command: the response, or the wait (70_reset R386). -/
def finishEst : EstEnd → State
  | .done code s => s.respond code 0
  | .held got s => { s with hold := some ⟨.est, got⟩ }

/-- EST (40_estimator R130). -/
def execEst (s : State) : Host.Outcome State Fault Refusal := .next (finishEst (estBody theParams s))

end Sys2Proof.Machine
end

