-- ==== Sys2Proof/Machine/Tps.lean ====
section
/-! DEFINITION. The TPS decoder: the TPS command (43_tps R200 to R211). -/

namespace Sys2Proof.Machine

/-! ## The vote -/

/-- The phasors of the TPS carriers, in TPS_LIST order (43_tps R201). -/
def tpsPhasors (P : Params) (fd : List Cplx) : List Cplx := P.tpsList.map (carrier P fd)

/-- The dot product `Re(z * conj(prev))` (43_tps R201); with a zero phasor it is 0 (R200). -/
def dot (A : NumParam) (z prev : Cplx) : Scalar :=
  deliver A (.dot z prev) (decide (z = Cplx.zero ∨ prev = Cplx.zero)) (cmul z (conj prev)).re

/-- Whether a carrier votes 1: `Re(z * conj(prev)) < 0` (43_tps R201). -/
def votesOne (A : NumParam) (z prev : Cplx) : Bool := decide (dot A z prev < 0)

/-- How many carriers vote 1 (43_tps R201, R202). -/
def countOnes (A : NumParam) (now prev : List Cplx) : Nat :=
  ((now.zip prev).filter fun p => votesOne A p.1 p.2).length

/-- The majority bit (43_tps R202): `ones` of `nt` carriers; a tie gives 0. -/
def majority (nt ones : Nat) : Bool := decide (nt - ones < ones)

/-- Whether the vote is nearly evenly split (43_tps R203). -/
def splitVote (P : Params) (nt ones : Nat) : Bool :=
  decide (((ones : Int) - (nt - ones : Nat)).natAbs ≤ P.splitMargin)

/-! ## Sync, payload and fields -/

/-- The sync register after `bit` (43_tps R204). -/
def shiftIn (shift : BitVec 16) (bit : Bool) : BitVec 16 := (shift <<< 1) ||| (BitVec.ofBool bit).setWidth 16

/-- Whether the register matches the sync word or its complement (43_tps R204). -/
def syncMatch (P : Params) (shift : BitVec 16) : Bool :=
  decide (shift = P.syncWord ∨ shift = P.syncWord ^^^ 0xFFFF)

/-- `PAYLOAD[i] <- bit` (43_tps R207). -/
def setPayloadBit (payload : BitVec 68) (i : Nat) (bit : Bool) : BitVec 68 :=
  let m : BitVec 68 := 1#68 <<< i
  if bit then payload ||| m else payload &&& ~~~m

/-- A payload field, its lowest-numbered bit most significant (43_tps R210). -/
def payloadField (payload : BitVec 68) (f : PayloadField) : Nat :=
  (List.range f.width).foldl (fun acc i => 2 * acc + (payload.getLsbD (f.first + i)).toNat) 0

/-- `Decode`: the event word of a payload (43_tps R210, 30_encoding R100). -/
def decodeEvent (P : Params) (payload : BitVec 68) : BitVec 64 :=
  let f := fun pf => BitVec.ofNat 64 (payloadField payload pf)
  f P.tpsFields.frame ||| f P.tpsFields.constellation <<< 2 ||| f P.tpsFields.hierarchy <<< 4 |||
    f P.tpsFields.rateHp <<< 7 ||| f P.tpsFields.rateLp <<< 10 ||| f P.tpsFields.guard <<< 13 |||
    f P.tpsFields.fftMode <<< 15

/-! ## The step -/

/-- The position of the current bit: 16 on a sync match, else TPS_POS (43_tps R205, R207). -/
def currentPos (P : Params) (t : TpsState) (bit : Bool) : Fin 68 :=
  if syncMatch P (shiftIn t.shift bit) then 16 else t.pos

/-- The TPS state after the bit of one symbol is shifted, matched, stored and indexed, before the position
advances (43_tps R204 to R207, R209). -/
def tpsReceive (P : Params) (now : List Cplx) (bit : Bool) (t : TpsState) : TpsState :=
  let cur := currentPos P t bit
  let sync := t.sync || syncMatch P (shiftIn t.shift bit)
  { t with
    prev := now
    shift := shiftIn t.shift bit
    payload := setPayloadBit t.payload cur.val bit
    sync := sync
    idxSym := cur
    idxFrame := t.frame
    outValid := t.outValid || (sync && decide (cur = 0) && decide (t.frame = 0)) }

/-- The TPS state after the position advances from `cur` (43_tps R208, R211). -/
def tpsAdvance (P : Params) (cur : Fin 68) (t : TpsState) : TpsState :=
  if cur.val + 1 = 68 then
    let ev := decodeEvent P t.payload
    if t.sync then
      { t with pos := 0, frame := ev.setWidth 2 + 1, lastEvent := ev, eventSeen := true }
    else { t with pos := 0, frame := t.frame + 1 }
  else { t with pos := cur + 1 }

/-- Whether the step of a symbol at `cur` emits an event (43_tps R211). -/
def emitsEvent (cur : Fin 68) (t : TpsState) : Bool := decide (cur.val + 1 = 68) && t.sync

/-- The state after TPS on the current block (43_tps R200). -/
def tpsStep (P : Params) (s : State) : State :=
  let now := tpsPhasors P s.blk.fd
  let nt := P.tpsList.length
  let ones := countOnes P.num now s.tps.prev
  let bit := majority nt ones
  let cur := currentPos P s.tps bit
  let s1 := if splitVote P nt ones then (s.count .splitVote 1).diag 0x02 ones else s
  let s2 :=
    if syncMatch P (shiftIn s.tps.shift bit) ∧ s.tps.pos ≠ 16 then
      (s1.count .resync 1).diag 0x03 s.tps.pos.val
    else s1
  let received := tpsReceive P now bit s.tps
  let ev := decodeEvent P received.payload
  let s3 :=
    if emitsEvent cur received then
      ((s2.emit (.tpsEvt ev)).count .tpsEvents 1).diag 0x08 ev.toNat
    else s2
  { s3 with tps := tpsAdvance P cur received, blk := { s.blk with tpsId := s.blk.fdId } }

/-- The body of TPS (43_tps R200). -/
def tpsBody (P : Params) (s : State) : Status × State :=
  if s.est.halted then raiseCondition .halted s
  else if s.blk.fdId = none ∨ s.blk.tpsId = s.blk.fdId then raiseCondition .seqError s
  else (.ok, tpsStep P s)

/-- TPS (43_tps R200). -/
def execTps (s : State) : Host.Outcome State Fault Refusal := .next (respondStage (tpsBody theParams s))

end Sys2Proof.Machine
end

