-- ==== Sys2Proof/Machine/Symbol.lean ====
section
/-! DEFINITION. The composite SYMBOL command (46_control R320), and the resumption of a command that waits
in PullSample (70_reset R386). -/

namespace Sys2Proof.Machine

/-- Stage bodies run in order until one does not end with OK (46_control R320). -/
def runStages : (bodies : List (State → Status × State)) → (s : State) → Status × State
  | [], s => (.ok, s)
  | body :: bodies, s =>
    match body s with
    | (.ok, s') => runStages bodies s'
    | (code, s') => (code, s')

/-- The stages of SYMBOL after EST (46_control R320). -/
def laterStages (P : Params) : List (State → Status × State) := [fftBody P, eqBody P, tpsBody P, demuxBody P]

/-- SYMBOL from the end of its EST body on: the later stages, the one response, or the wait. -/
def finishSymbol (P : Params) : EstEnd → State
  | .held got s => { s with hold := some ⟨.symbol, got⟩ }
  | .done .ok s => respondStage (runStages (laterStages P) s)
  | .done code s => s.respond code 0

/-- The body of SYMBOL up to its response (46_control R320): refused while HALTED, which EST's body checks
first. -/
def symbolBody (P : Params) (s : State) : State := finishSymbol P (estBody P s)

/-- SYMBOL (46_control R320). -/
def execSymbol (s : State) : Host.Outcome State Fault Refusal := .next (symbolBody theParams s)

/-- A waiting command goes on with its fill (10_state R52); with the port still empty it waits again, and
the state is as it was. -/
def resumeHold (P : Params) (h : Hold) (s : State) : State :=
  match h.cmd with
  | .est => finishEst (estFrom P h.got { s with hold := none })
  | .symbol => finishSymbol P (estFrom P h.got { s with hold := none })

end Sys2Proof.Machine
end

