-- ==== Sys2Proof/Machine/Dispatch.lean ====
section
/-! DEFINITION. One arm per command: the meaning of each (30_encoding R91). -/

namespace Sys2Proof.Machine

def exec (i : Instr) (s : State) : Host.Outcome State Fault Refusal :=
  match i with
  | .nop => Sys2Proof.Machine.execNop s
  | .reset => Sys2Proof.Machine.execReset s
  | .wrcfg reg val => Sys2Proof.Machine.execWrcfg reg val s
  | .rdstat idx => Sys2Proof.Machine.execRdstat idx s
  | .est => Sys2Proof.Machine.execEst s
  | .fft => Sys2Proof.Machine.execFft s
  | .eq => Sys2Proof.Machine.execEq s
  | .tps => Sys2Proof.Machine.execTps s
  | .demux => Sys2Proof.Machine.execDemux s
  | .symbol => Sys2Proof.Machine.execSymbol s
  | .vcons x y => Sys2Proof.Machine.execVcons x y s
  | .vconsP y => Sys2Proof.Machine.execVconsP y s
  | .vflush => Sys2Proof.Machine.execVflush s

end Sys2Proof.Machine
end

