-- ==== Sys2Proof/WellFormed.lean ====
section
/-! DEFINITION. Which commands are well-formed: the legality condition of 30_encoding R92 (the other
legality conditions hold of every term by its type). -/

namespace Sys2Proof

/-- A command is well-formed iff its word is legal: for WRCFG, VAL < 2^width(REG) (30_encoding R92). -/
def Instr.wellFormed : Instr → Bool
  | .wrcfg reg val => decide (val.toNat < 2 ^ reg.width)
  | .nop => true
  | .reset => true
  | .rdstat _ => true
  | .est => true
  | .fft => true
  | .eq => true
  | .tps => true
  | .demux => true
  | .symbol => true
  | .vcons _ _ => true
  | .vconsP _ => true
  | .vflush => true

/-- `Instr.wellFormed` as a proposition. -/
abbrev WellFormed (i : Instr) : Prop := i.wellFormed = true

end Sys2Proof
end

