-- ==== Sys2Proof/Decode.lean ====
section
/-! DEFINITION. Decoding of command words (30_encoding R90 to R97), total, each illegal word rejected by
the name of what is wrong with it; after it the encoder, from the same tables. -/

namespace Sys2Proof

/-- Why a word is illegal (30_encoding R96). Every one of them but the last, which is of no word, raises ILLEGAL_CMD. -/
inductive Illegal where
  /-- OP is not in the opcode map of R91 -/
  | unassignedOpcode
  /-- a bit that the format requires to be 0 is 1 (R90, R95) -/
  | reservedBitSet
  /-- format W with REG > 3 (R92) -/
  | noSuchConfigRegister
  /-- format W with VAL >= 2^width(REG) (R92) -/
  | configValueTooWide
  /-- format R with an IDX that 10_state R60 does not list (R93) -/
  | noSuchStatusRegister
  /-- format V with HX = 0 and X = 1 (R94) -/
  | puncturedStepWithX
  /-- bytes that are no command word, not being four: no word reaches the CMD port (20_memory R74: there are no
  partial items), so no step meets this reason and no ILLEGAL_CMD is answered for it. The model's choice, log 27. -/
  | notFourBytes
deriving DecidableEq, Repr

/-- REG of format W (30_encoding R92). -/
def CfgReg.ofIndex : Nat → Option CfgReg
  | 0 => some .guard
  | 1 => some .const
  | 2 => some .hier
  | 3 => some .rate
  | _ => none

/-- The index of a configuration register (10_state R22). -/
def CfgReg.index : CfgReg → Nat
  | .guard => 0
  | .const => 1
  | .hier => 2
  | .rate => 3

/-- The counters by their distance from RDSTAT index 0x20 (10_state R34). -/
def Counter.ofOffset : Nat → Option Counter
  | 0 => some .symbols
  | 1 => some .acq
  | 2 => some .anomalyTotal
  | 3 => some .qualityWarn
  | 4 => some .splitVote
  | 5 => some .resync
  | 6 => some .consist
  | 7 => some .configErr
  | 8 => some .seqErr
  | 9 => some .illegal
  | 10 => some .tpsEvents
  | 11 => some .dmxOut
  | 12 => some .vitBits
  | _ => none

/-- The distance of a counter's RDSTAT index from 0x20 (10_state R34). -/
def Counter.offset : Counter → Nat
  | .symbols => 0
  | .acq => 1
  | .anomalyTotal => 2
  | .qualityWarn => 3
  | .splitVote => 4
  | .resync => 5
  | .consist => 6
  | .configErr => 7
  | .seqErr => 8
  | .illegal => 9
  | .tpsEvents => 10
  | .dmxOut => 11
  | .vitBits => 12

/-- IDX of format R (30_encoding R93): the RDSTAT map of 10_state R60. -/
def StatReg.ofIndex : Nat → Option StatReg
  | 0x00 => some .flags
  | 0x01 => some .tpsPos
  | 0x02 => some .tpsFrame
  | 0x03 => some .tpsShift
  | 0x04 => some .idxSym
  | 0x05 => some .idxFrame
  | 0x06 => some .conf
  | 0x07 => some .lastA
  | 0x08 => some .lastArgmax
  | 0x09 => some .lastEps
  | 0x0A => some .nco
  | 0x0B => some .efill
  | 0x0C => some .lastTpsEvent
  | 0x0D => some .anomalyLast
  | 0x0E => some .vbest
  | 0x0F => some .vcount
  | 0x10 => some (.cfg .guard)
  | 0x11 => some (.cfg .const)
  | 0x12 => some (.cfg .hier)
  | 0x13 => some (.cfg .rate)
  | 0x14 => some .blkId
  | k => if 0x20 ≤ k then (Counter.ofOffset (k - 0x20)).map .counter else none

/-- The RDSTAT index of a status register (10_state R60). -/
def StatReg.index : StatReg → Nat
  | .flags => 0x00
  | .tpsPos => 0x01
  | .tpsFrame => 0x02
  | .tpsShift => 0x03
  | .idxSym => 0x04
  | .idxFrame => 0x05
  | .conf => 0x06
  | .lastA => 0x07
  | .lastArgmax => 0x08
  | .lastEps => 0x09
  | .nco => 0x0A
  | .efill => 0x0B
  | .lastTpsEvent => 0x0C
  | .anomalyLast => 0x0D
  | .vbest => 0x0E
  | .vcount => 0x0F
  | .cfg r => 0x10 + r.index
  | .blkId => 0x14
  | .counter c => 0x20 + c.offset

/-- The operand field, bits [23:0] (30_encoding R90). -/
def operandField (w : Word) : BitVec 24 := w.extractLsb' 0 24

/-- The opcode OP, bits [31:24] (30_encoding R90). -/
def opcodeField (w : Word) : BitVec 8 := w.extractLsb' 24 8

/-- Format Z (30_encoding R95): bits [23:0] must be 0. -/
def decodeZ (w : Word) (i : Instr) : Except Illegal Instr :=
  if operandField w = 0 then .ok i else .error .reservedBitSet

/-- Format W (30_encoding R92): REG = word[23:16], VAL = word[15:0]. -/
def decodeW (w : Word) : Except Illegal Instr :=
  match CfgReg.ofIndex (w.extractLsb' 16 8).toNat with
  | none => .error .noSuchConfigRegister
  | some reg =>
    if (w.extractLsb' 0 16).toNat < 2 ^ reg.width then .ok (.wrcfg reg (w.extractLsb' 0 16))
    else .error .configValueTooWide

/-- Format R (30_encoding R93): IDX = word[7:0], word[23:8] = 0. -/
def decodeR (w : Word) : Except Illegal Instr :=
  if w.extractLsb' 8 16 = 0 then
    match StatReg.ofIndex (w.extractLsb' 0 8).toNat with
    | none => .error .noSuchStatusRegister
    | some idx => .ok (.rdstat idx)
  else .error .reservedBitSet

/-- Format V (30_encoding R94): HX = word[2], X = word[1], Y = word[0], word[23:3] = 0. -/
def decodeV (w : Word) : Except Illegal Instr :=
  if w.extractLsb' 3 21 = 0 then
    if w.getLsbD 2 then .ok (.vcons (w.getLsbD 1) (w.getLsbD 0))
    else if w.getLsbD 1 then .error .puncturedStepWithX
    else .ok (.vconsP (w.getLsbD 0))
  else .error .reservedBitSet

/-- Decoding of one command word: the opcode map of 30_encoding R91, total by R97. -/
def decode (w : Word) : Except Illegal Instr :=
  match (opcodeField w).toNat with
  | 0x00 => decodeZ w .nop
  | 0x01 => decodeZ w .reset
  | 0x02 => decodeW w
  | 0x03 => decodeR w
  | 0x10 => decodeZ w .est
  | 0x11 => decodeZ w .fft
  | 0x12 => decodeZ w .eq
  | 0x13 => decodeZ w .tps
  | 0x14 => decodeZ w .demux
  | 0x18 => decodeZ w .symbol
  | 0x20 => decodeV w
  | 0x21 => decodeZ w .vflush
  | _ => .error .unassignedOpcode

/-- The word that four bytes carry, least significant first (20_memory R73). -/
def wordOfBytes (b0 b1 b2 b3 : Byte) : Word := b3 ++ b2 ++ b1 ++ b0

/-- Decoding of any bytes: a serialised command word is four bytes, little-endian (20_memory R73), and
there are no partial items (R74). The reason given for other than four bytes is this function's own; the carrier
`wordsOfBytes` drops the bytes of a partial word (the model's choice, log 27). -/
def decodeBytes : List Byte → Except Illegal Instr
  | [b0, b1, b2, b3] => decode (wordOfBytes b0 b1 b2 b3)
  | _ => .error .notFourBytes

/-- The instruction the decoder reads from an opcode-table word of `nbits` bits `w`. -/
def decodeTableWord (nbits w : Nat) : Option Instr :=
  (decode (BitVec.ofNat 32 (w % 2 ^ nbits))).toOption

/-- A word from OP and the operand field (30_encoding R90). -/
def packWord (op : BitVec 8) (operand : BitVec 24) : Word := op ++ operand

/-- One bit as a field. -/
def bitField (b : Bool) : BitVec 1 := BitVec.ofBool b

/-- The word of a command (30_encoding R90, R91, R98). -/
def encode : Instr → Word
  | .nop => packWord 0x00 0
  | .reset => packWord 0x01 0
  | .wrcfg reg val => packWord 0x02 (BitVec.ofNat 8 reg.index ++ val)
  | .rdstat idx => packWord 0x03 ((0 : BitVec 16) ++ BitVec.ofNat 8 idx.index)
  | .est => packWord 0x10 0
  | .fft => packWord 0x11 0
  | .eq => packWord 0x12 0
  | .tps => packWord 0x13 0
  | .demux => packWord 0x14 0
  | .symbol => packWord 0x18 0
  | .vcons x y => packWord 0x20 ((0 : BitVec 21) ++ bitField true ++ bitField x ++ bitField y)
  | .vconsP y => packWord 0x20 ((0 : BitVec 21) ++ bitField false ++ bitField false ++ bitField y)
  | .vflush => packWord 0x21 0

/-- The expansion of a pseudo-instruction (30_encoding R99). -/
def Pseudo.expand : Pseudo → Instr
  | .cfgGuard v => .wrcfg .guard v
  | .cfgConst v => .wrcfg .const v
  | .cfgHier v => .wrcfg .hier v
  | .cfgRate v => .wrcfg .rate v
  | .rdFlags => .rdstat .flags

end Sys2Proof
end

