-- ==== Sys2Proof/Machine/Fetch.lean ====
section
/-! DEFINITION. Taking the next command word from the CMD port (10_state R51). -/

namespace Sys2Proof.Machine

/-- The next command word and the state without it on the port; none when no word waits (10_state R51). -/
def fetchWord (s : State) : Option (Word × State) :=
  match s.cmd with
  | [] => none
  | w :: rest => some (w, { s with cmd := rest })

/-- The state with a word placed at the head of the CMD port and no command waiting, so that it is the next
word taken. -/
def placeWord (s : State) (w : Word) : State := { s with cmd := w :: s.cmd, hold := none }

end Sys2Proof.Machine
end

