-- ==== Sys2Proof/Machine/Step.lean ====
section
/-! DEFINITION. One step of the block: a waiting command goes on; else the next command word is taken,
decoded and executed, or answered ILLEGAL_CMD; with no word waiting nothing happens (10_state R51, R52,
46_control R311, 70_reset R383). -/

namespace Sys2Proof.Machine

/-- One step. Log 9, log 10. -/
def step (s : State) : Host.Outcome State Fault Refusal :=
  match s.hold with
  | some h => .next (resumeHold theParams h s)
  | none =>
    match fetchWord s with
    | none => .next s
    | some (w, s') =>
      match decode w with
      | .ok i => exec i s'
      | .error _ => .next (respondCondition .illegalCmd s')

/-- The state whose next step takes exactly the opcode-table word `w` of `nbits` bits: the word stands at
the head of the CMD port and no command waits. It stands for the host's push of that word (46_control R332).
Log 10. -/
def State.withFetchWord (s : State) (nbits w : Nat) : State := placeWord s (BitVec.ofNat 32 (w % 2 ^ nbits))

end Sys2Proof.Machine
end

