-- ==== Sys2Proof/Machine/Carrier.lean ====
section
/-! DEFINITION. The byte carriers of the ports (20_memory R73, R74): little-endian words, binary64 sample
pairs, real part first. The block itself transfers whole items; these are the forms they are carried in. -/

namespace Sys2Proof.Machine

/-- The 64-bit value of eight bytes, least significant first (20_memory R73). -/
def doubleWordOfBytes (b0 b1 b2 b3 b4 b5 b6 b7 : Byte) : BitVec 64 :=
  wordOfBytes b4 b5 b6 b7 ++ wordOfBytes b0 b1 b2 b3

/-- The number a carried binary64 value stands for, exactly: NUM does not round it, which is the model's choice
where NUM is not binary64 (log 16). A pattern that is no number is a free value (log 16). -/
def sampleValue (b : BitVec 64) : Scalar := (ofBinary64 b).getD (Config.nonFiniteSample b)

/-- The items of a sample stream carried as bytes that ends with the last byte: whole samples of 16 bytes,
then EOS; the bytes of a partial sample are discarded (20_memory R73, R74). -/
def samplesOfBytes : List Byte → List SampleItem
  | r0 :: r1 :: r2 :: r3 :: r4 :: r5 :: r6 :: r7 :: i0 :: i1 :: i2 :: i3 :: i4 :: i5 :: i6 :: i7 :: rest =>
    .sample ⟨sampleValue (doubleWordOfBytes r0 r1 r2 r3 r4 r5 r6 r7),
      sampleValue (doubleWordOfBytes i0 i1 i2 i3 i4 i5 i6 i7)⟩ :: samplesOfBytes rest
  | _ => [.eos]

/-- The command words of a byte stream: whole words only (20_memory R73, R74). That one to three bytes left after the
last whole word are dropped without an answer is the model's choice: R74 says what becomes of a partial item for
samples alone (log 27). -/
def wordsOfBytes : List Byte → List Word
  | b0 :: b1 :: b2 :: b3 :: rest => wordOfBytes b0 b1 b2 b3 :: wordsOfBytes rest
  | _ => []

/-- The `k` low bytes of a value, least significant first (20_memory R73). -/
def bytesOf (k : Nat) (v : BitVec 64) : List Byte := (List.range k).map fun i => v.extractLsb' (8 * i) 8

/-- A response as bytes: the code byte, then the eight bytes of the data, little-endian (20_memory R73). That the
code comes before the data is the model's choice: 30_encoding R105 places neither (log 24). -/
def responseBytes (code : Status) (data : BitVec 64) : List Byte := code.code :: bytesOf 8 data

end Sys2Proof.Machine
end

