-- ==== Sys2Proof/Safety.lean ====
section
/-! DEFINITION. The terms the statements use: safe and clean steps, what an answer leaves on the ports, the
invariants of the machine, the carriers' classes and anomalies, the decoder's run, and the paths of the
trellis. -/

namespace Sys2Proof.Machine

/-! ## Safe runs -/

/-- The run has met no documented precondition violation: MFAULT is empty (10_state R57). A claim about
values says nothing of a run that is not clean (60_exceptions R359). -/
def State.clean (s : State) : Prop := s.mfault.preZeroAmp = false ∧ s.mfault.preInstance = false

/-- A step is safe when the machine goes on: it neither faults nor refuses (60_exceptions R362: no
condition transfers control anywhere). -/
def SafeStep (s : State) : Prop := ∃ t, step s = .next t

/-- A safe step after which the run is still clean. -/
def CleanStep (s : State) : Prop := ∃ t, step s = .next t ∧ t.clean

/-! ## Frames over the ports -/

/-- From `s` to `t` one response was written and nothing on DMX_OUT, VIT_OUT or TPS_EVT. Diagnostics are
not normative and no statement speaks of them (10_state R56). -/
def AnswersOnly (s t : State) (code : Status) (data : BitVec 64) : Prop :=
  t.respPort = s.respPort ++ [(code, data)] ∧ t.dmxPort = s.dmxPort ∧ t.vitPort = s.vitPort ∧
    t.tpsPort = s.tpsPort

/-! ## Invariants -/

/-- No stage tag names a block that has not been extracted (10_state R27, R28). -/
def TagInv (b : BlockRegs) : Prop :=
  ∀ tag ∈ [b.tdId, b.fdId, b.eqId, b.tpsId, b.dmxId], ∀ k, tag = some k → k ≤ b.blkId

/-- The decoder's state is in its ranges, and every ring slot of the undecided window has been written
(10_state R32, 45_viterbi R276, R283). -/
structure VitInv (P : Params) (v : VitState) : Prop where
  metrics : v.vpm.length = 64
  ringForm : ringWf v.vring = true
  writePointer : v.vw < P.depth
  pending : v.vcount < P.decisionLen + P.outputBits
  partialByte : v.vob.length < 8
  window : ∀ k, k < v.vcount → ∃ slot, ringSlot v.vring (undecidedSlot P v k) = some slot ∧ slot.length = 64

/-- The estimator's state is in its ranges (10_state R24). L is at most N/4, so LAST_ARGMAX, an integer
0..N+L-1 for the L of its EST, is below N + N/4. CONF is not among them: its range holds over the reals
(TrackingAndConfidence), and a NUM that rounds may leave it (log 26). -/
structure EstInv (P : Params) (s : State) : Prop where
  buffer : s.est.efill ≤ s.bufSize P
  ncoLow : 0 ≤ s.est.nco
  ncoHigh : s.est.nco < twoPi P.num
  argmax : s.est.lastArgmax < P.n + P.n / 4
  start : s.est.lastA < P.n

/-- Every array a stage can read has been written whole when its tag says so, and the arrays with a reset
value keep their lengths (10_state R25, R29, R30, R31; 20_memory R71). -/
structure ArrayInv (P : Params) (s : State) : Prop where
  td : s.blk.tdId ≠ none → s.blk.td.length = P.n
  fd : s.blk.fdId ≠ none → s.blk.fd.length = P.n
  eqb : s.blk.eqId ≠ none → s.blk.eqb.length = P.kMax + 1
  eqPh : s.blk.eqPh.length = P.kMax + 1
  eqAmp : s.blk.eqAmp.length = P.kMax + 1
  prev : s.tps.prev.length = P.tpsList.length
  anomalies : s.dmx.anomalyLast ≤ P.kMax + 1
  leftover : s.dmx.feedBuf.length ≤ 2

/-! ## Carriers -/

/-- The class of carrier `c` in symbol `sym`: the first that applies of continual pilot, TPS carrier, scattered
pilot and data (44_demux R234, R236). -/
def carrierClass (P : Params) (sym c : Nat) : CarrierClass :=
  if c ∈ P.cpList then .continual
  else if c ∈ P.tpsList then .tps
  else if c % 12 = 3 * (sym % 4) then .scattered
  else .data

/-- Whether the magnitude of `e` is within PILOT_TOL of `nominal` (44_demux R237, R238). -/
def nearMagnitude (P : Params) (e : Cplx) (nominal : Scalar) : Bool :=
  decide (-P.pilotTol ≤ deviation P e nominal ∧ deviation P e nominal ≤ P.pilotTol)

/-- Whether carrier `c`, with equalized value `e`, is an anomaly: a pilot whose sign is not that of s(c) = 1 - 2
PRBS_W[c] or whose magnitude is off 4/3, or a TPS carrier whose magnitude is off 1 (44_demux R237 to R239). -/
def carrierAnomaly (P : Params) (sym c : Nat) (e : Cplx) : Bool :=
  let goodPilot :=
    decide (0 < (1 - 2 * ((P.prbsW.getD c false).toNat : Rat)) * e.re) && nearMagnitude P e (4 / 3)
  match carrierClass P sym c with
  | .continual => !goodPilot
  | .scattered => !goodPilot
  | .tps => !nearMagnitude P e 1
  | .data => false

/-- How many carriers of a symbol are anomalies (44_demux R233, R237 to R239). -/
def anomalyCount (P : Params) (eqb : List Cplx) (sym : Nat) : Nat :=
  ((List.range (P.kMax + 1)).filter fun c => carrierAnomaly P sym c (readEntry eqb c)).length

/-- The cells of a symbol's data carriers, in ascending order of carrier (44_demux R233, R234, R240). -/
def dataCells (P : Params) (eqb : List Cplx) (sym : Nat) : List Cell :=
  ((List.range (P.kMax + 1)).filter fun c => decide (carrierClass P sym c = .data)).map fun c =>
    demap P (readEntry eqb c)

/-! ## The decoder's run -/

/-- A list of steps run in order: the decoder after them, all their VIT_OUT items and the number of bits they
decide (45_viterbi R272, R277, R295). -/
def feedRun (P : Params) : List FeedStep → VitState → VitResult
  | [], v => ⟨v, [], 0⟩
  | f :: fs, v =>
    let r := vitStep P f.hasX f.x f.y v
    let rest := feedRun P fs r.vit
    ⟨rest.vit, r.items ++ rest.items, r.bits + rest.bits⟩

/-- The decoder after a list of commands: a trellis step each, and VFLUSH for `none` (45_viterbi R272, R277,
R290). -/
def decoderRun (P : Params) : List (Option FeedStep) → VitState → VitState
  | [], v => v
  | some f :: es, v => decoderRun P es (vitStep P f.hasX f.x f.y v).vit
  | none :: es, v => decoderRun P es (vitFlush P v).vit

/-! ## Trellis paths -/

/-- The accumulated branch metric of the path that ends in state `s`, walked from the newest step back: the
steps newest first, and for each the predecessor it is entered from (45_viterbi R272, R273). -/
def pathCost (P : Params) : (newestFirst : List FeedStep) → (s : BitVec 6) → (choices : List Bool) → Nat
  | f :: fs, s, b :: bs => branchMetric P f.hasX f.x f.y s b + pathCost P fs (predState s b) bs
  | _, _, _ => 0

/-- The input bits of that path, oldest first. -/
def pathInputs : (s : BitVec 6) → (choices : List Bool) → List Bool
  | _, [] => []
  | s, b :: bs => pathInputs (predState s b) bs ++ [inputBit s]

/-- The decoder after a list of steps with no traceback in between (45_viterbi R272). -/
def afterSteps (P : Params) (v : VitState) (fs : List FeedStep) : VitState :=
  fs.foldl (fun v f => acsStep P f.hasX f.x f.y v) v

/-- The bits an item of VIT_OUT carries, first bit first (30_encoding R113). -/
def VitItem.bits (it : VitItem) : List Bool := (List.range it.nbits).map fun i => it.byte.getLsbD (7 - i)

/-- The bits of a step's code as the depuncture feeder takes them. -/
def FeedStep.codeBits (f : FeedStep) : List Bool := if f.hasX then [f.x, f.y] else [f.y]

end Sys2Proof.Machine
end

