-- ==== Sys2Proof/Certificates/Slice0/Obligations.lean ====
section
/-! DEFINITION. The statements for the provers. No statement speaks of DIAG (10_state R56) and none rests on
the value of a free value or of an opaque parameter. -/

open Sys2Proof Sys2Proof.Machine

/-! ## Encoding -/

/-- Decoding the word of a well-formed command gives that command (30_encoding R90 to R95), with every
operand at every value. -/
def Obligations.DecodeOfEncode : Prop := ∀ i : Instr, WellFormed i → decode (encode i) = .ok i

/-- 30_encoding R97: every word is the word of exactly one well-formed command and decodes to it, or it is
the word of none and is illegal. -/
def Obligations.EveryWordIsOneCommandOrIllegal : Prop :=
  ∀ w : Word,
    (∃ i, decode w = .ok i ∧ WellFormed i ∧ encode i = w ∧ ∀ j, WellFormed j → encode j = w → j = i) ∨
    ((∃ e, decode w = .error e) ∧ ∀ j, WellFormed j → encode j ≠ w)

/-- The worked encodings of 30_encoding R98 and all 22 words of 95_test_vectors section 2 decode as listed. -/
def Obligations.WorkedEncodingsDecode : Prop :=
  decode 0x00000000 = .ok .nop ∧ decode 0x01000000 = .ok .reset ∧ decode 0x02020007 = .ok (.wrcfg .hier 7) ∧
  decode 0x03000000 = .ok (.rdstat .flags) ∧ decode 0x10000000 = .ok .est ∧
  decode 0x20000007 = .ok (.vcons true true) ∧ decode 0x20000008 = .error .reservedBitSet ∧
  decode 0xFF000000 = .error .unassignedOpcode ∧
  decode 0x02000002 = .ok (.wrcfg .guard 2) ∧ decode 0x02030001 = .ok (.wrcfg .rate 1) ∧
  decode 0x0300002C = .ok (.rdstat (.counter .vitBits)) ∧ decode 0x20000006 = .ok (.vcons true false) ∧
  decode 0x20000001 = .ok (.vconsP true) ∧ decode 0x18000000 = .ok .symbol ∧
  decode 0x21000000 = .ok .vflush ∧ decode 0x02010004 = .error .configValueTooWide ∧
  decode 0x02040000 = .error .noSuchConfigRegister ∧ decode 0x03000015 = .error .noSuchStatusRegister ∧
  decode 0x03000120 = .error .reservedBitSet ∧ decode 0x10000001 = .error .reservedBitSet ∧
  decode 0x20000002 = .error .puncturedStepWithX ∧ decode 0x15000000 = .error .unassignedOpcode

/-! ## The step -/

/-- A step takes the word at the head of the CMD port and runs the command it decodes to (10_state R51). The
rest of the port stays. With no word there the step changes nothing: the block waits (20_memory R85; that a
wait is a step without effect is the model's choice, log 10). -/
def Obligations.StepRunsTheDecodedCommand : Prop :=
  (∀ (s : State) (w : Word) (rest : List Word) (i : Instr),
    s.hold = none → s.cmd = w :: rest → decode w = .ok i → WellFormed i →
      step s = exec i { s with cmd := rest }) ∧
  ∀ s : State, s.hold = none → s.cmd = [] → step s = .next s

/-- 60_exceptions R352: an illegal word is not executed, CNT_ILLEGAL is incremented, the response is
ILLEGAL_CMD, nothing else changes, and the next word is at the head of the port. -/
def Obligations.IllegalWordAnswersIllegalCmd : Prop :=
  ∀ (s : State) (w : Word) (rest : List Word) (e : Illegal),
    s.hold = none → s.cmd = w :: rest → decode w = .error e →
      step s = .next { s with
        cmd := rest
        cnt := { s.cnt with
          illegal := if s.cnt.illegal = 0xFFFFFFFF then 0xFFFFFFFF else s.cnt.illegal + 1 }
        out := s.out ++ [.resp .illegalCmd 0] }

/-- 10_state R54: a command that completes writes exactly one response, whose data is 0 unless the command is
RDSTAT; only EST and SYMBOL can be left waiting, and then they have not responded. That the wait is a field of
the state, which RESET clears and a command that completes keeps, is the model's choice (log 9). -/
def Obligations.EveryCommandAnswersOnceOrWaits : Prop :=
  ∀ (i : Instr) (s : State), ∃ t, exec i s = .next t ∧
    ((∃ code data, t.respPort = s.respPort ++ [(code, data)] ∧ (data ≠ 0 → ∃ idx, i = .rdstat idx) ∧
        t.hold = (if i = .reset then none else s.hold)) ∨
     ((i = .est ∨ i = .symbol) ∧ t.respPort = s.respPort ∧ t.hold ≠ none))

/-- What the block has emitted stays emitted, and MFAULT is never cleared, at every step, RESET's among them
(10_state R57, 20_memory R87, 70_reset R380). -/
def Obligations.EmittedItemsAndModelFaultsStay : Prop :=
  ∀ s t : State, step s = .next t →
    s.out <+: t.out ∧ (s.mfault.preZeroAmp → t.mfault.preZeroAmp) ∧
      (s.mfault.preInstance → t.mfault.preInstance)

/-! ## Control commands -/

/-- 46_control R310: NOP changes no state and responds (OK, 0), in every state, HALTED among them. -/
def Obligations.NopOnlyAnswers : Prop :=
  ∀ s : State, exec .nop s = .next { s with out := s.out ++ [.resp .ok 0] }

/-- 70_reset R380: RESET sets every state element to its value of the reset table, keeps the queued input
items, the emitted output items and MFAULT, and responds (OK, 0). -/
def Obligations.ResetRestoresTheResetTable : Prop :=
  ∀ s : State, ∃ t, exec .reset s = .next t ∧
    t.cfg = { guard := 0, const := 1, hier := 0, rate := 0 } ∧
    (t.est.efill = 0 ∧ t.est.nco = 0 ∧ t.est.conf = 0 ∧ t.est.tracking = false ∧ t.est.lastArgmax = 0 ∧
      t.est.lastA = 0 ∧ t.est.lastEps = 0 ∧ t.est.eosSeen = false ∧ t.est.halted = false) ∧
    (t.blk.eqPh = List.replicate 1705 0 ∧ t.blk.eqAmp = List.replicate 1705 0 ∧ t.blk.blkId = 0 ∧
      t.blk.tdId = none ∧ t.blk.fdId = none ∧ t.blk.eqId = none ∧ t.blk.tpsId = none ∧
      t.blk.dmxId = none) ∧
    t.tps = { pos := 0, shift := 0, payload := 0, prev := List.replicate 17 ⟨0, 0⟩, sync := false, frame := 0,
              idxSym := 0, idxFrame := 0, outValid := false, lastEvent := 0, eventSeen := false } ∧
    t.dmx = { anomalyLast := 0, feedBuf := [] } ∧
    (t.vit.vpm = List.replicate 64 0 ∧ t.vit.vw = 0 ∧ t.vit.vcount = 0 ∧ t.vit.vbest = 0 ∧ t.vit.vob = []) ∧
    (∀ c, t.cnt.get c = 0) ∧
    t.cmd = s.cmd ∧ t.sample = s.sample ∧ t.out = s.out ++ [.resp .ok 0] ∧ t.mfault = s.mfault

/-- 70_reset R380, R381: from every state RESET leaves the power-on state, with the queued input items, MFAULT
and the emitted output items of before and its own response after them; the model's draw counter stays (log
14) and nothing waits (log 9). From power-on, where the ports are empty (the model's choice, log 10), RESET
changes nothing but for its response. -/
def Obligations.PowerOnIsReset : Prop :=
  (∀ s : State, exec .reset s = .next { State.reset with
    cmd := s.cmd, sample := s.sample, mfault := s.mfault, draws := s.draws, out := s.out ++ [.resp .ok 0] }) ∧
  exec .reset State.reset = .next { State.reset with out := [.resp .ok 0] }

/-- 46_control R312: a WRCFG whose value fits its register writes that register and no other, discards the
estimator buffer and CONF exactly when it changes the guard code, and responds (OK, 0). One whose value does not fit,
given to the meaning itself, is an illegal command (the model's choice, log 18: the decoder lets none
through). -/
def Obligations.WrcfgWritesItsRegister : Prop :=
  (∀ (s : State) (reg : CfgReg) (val : BitVec 16), val.toNat < 2 ^ reg.width →
    ∃ t, exec (.wrcfg reg val) s = .next t ∧
      t.cfg.read reg = val.setWidth 64 ∧ (∀ r, r ≠ reg → t.cfg.read r = s.cfg.read r) ∧
      t.est = (if reg = .guard ∧ val.toNat ≠ s.cfg.guard.toNat then { s.est with ebuf := [], conf := 0 }
        else s.est) ∧
      t = { s with cfg := t.cfg, est := t.est, out := s.out ++ [.resp .ok 0] }) ∧
  ∀ (s : State) (reg : CfgReg) (val : BitVec 16), 2 ^ reg.width ≤ val.toNat →
    exec (.wrcfg reg val) s =
      .next { s with
        cnt := { s.cnt with
          illegal := if s.cnt.illegal = 0xFFFFFFFF then 0xFFFFFFFF else s.cnt.illegal + 1 }
        out := s.out ++ [.resp .illegalCmd 0] }

/-- 46_control R314: RDSTAT responds (OK, value) with the value of the register and changes no state; the
value of each register is that of 10_state R60, and FLAGS copies the named state into its bits and reads 0
above them (R33). -/
def Obligations.RdstatAnswersTheRegister : Prop :=
  ∀ (s : State) (idx : StatReg), ∃ d, exec (.rdstat idx) s = .next { s with out := s.out ++ [.resp .ok d] } ∧
    (idx = .flags → d.getLsbD 0 = s.tps.sync ∧ d.getLsbD 1 = s.tps.outValid ∧ d.getLsbD 2 = s.est.tracking ∧
      d.getLsbD 3 = s.est.halted ∧ d.getLsbD 4 = s.est.eosSeen ∧ d.getLsbD 5 = s.tps.eventSeen ∧
      ∀ k, 6 ≤ k → d.getLsbD k = false) ∧
    (idx = .tpsPos → d.toNat = s.tps.pos.val) ∧ (idx = .tpsFrame → d.toNat = s.tps.frame.toNat) ∧
    (idx = .tpsShift → d.toNat = s.tps.shift.toNat) ∧ (idx = .idxSym → d.toNat = s.tps.idxSym.val) ∧
    (idx = .idxFrame → d.toNat = s.tps.idxFrame.toNat) ∧ (idx = .lastTpsEvent → d = s.tps.lastEvent) ∧
    (idx = .conf → d = toBinary64 s.est.conf) ∧ (idx = .lastEps → d = toBinary64 s.est.lastEps) ∧
    (idx = .nco → d = toBinary64 s.est.nco) ∧
    (idx = .lastA → s.est.lastA < 2 ^ 64 → d.toNat = s.est.lastA) ∧
    (idx = .lastArgmax → s.est.lastArgmax < 2 ^ 64 → d.toNat = s.est.lastArgmax) ∧
    (idx = .efill → s.est.efill < 2 ^ 64 → d.toNat = s.est.efill) ∧
    (idx = .anomalyLast → s.dmx.anomalyLast < 2 ^ 64 → d.toNat = s.dmx.anomalyLast) ∧
    (idx = .vbest → d.toNat = min s.vit.vbest (2 ^ 64 - 1)) ∧
    (idx = .vcount → s.vit.vcount < 2 ^ 64 → d.toNat = s.vit.vcount) ∧
    (idx = .blkId → d.toNat = s.blk.blkId % 2 ^ 64) ∧
    (∀ r, idx = .cfg r → d = s.cfg.read r) ∧ (∀ c, idx = .counter c → d.toNat = (s.cnt.get c).toNat)

/-- 10_state R60: a Num value that is a binary64 value reads as its own bit pattern: of every finite
pattern but that of -0 (the model has one zero, log 17) the value's pattern is the pattern. Every other number
short of rounding beyond the largest finite one (there the pattern is the model's, log 17) reads as the pattern
of a nearest binary64 value, and of two nearest ones as the one whose last bit is 0. -/
def Obligations.Binary64ValuesReadAsTheirPattern : Prop :=
  (∀ (b : BitVec 64) (x : Rat), ofBinary64 b = some x → b ≠ 0x8000000000000000 → toBinary64 x = b) ∧
  ∀ x : Rat, |x| < 2 ^ 1024 - 2 ^ 970 →
    ∃ v, ofBinary64 (toBinary64 x) = some v ∧
      ∀ (b : BitVec 64) (y : Rat), ofBinary64 b = some y →
        |x - v| ≤ |x - y| ∧ (|x - v| = |x - y| → y ≠ v → (toBinary64 x).getLsbD 0 = false)

/-- 10_state R34: an increment adds, saturating at 2^32 - 1; the other counters stay. -/
def Obligations.CountersSaturate : Prop :=
  ∀ (c : Counters) (name : Counter) (k : Nat),
    ((c.add name k).get name).toNat = min ((c.get name).toNat + k) (2 ^ 32 - 1) ∧
    ∀ other, other ≠ name → (c.add name k).get other = c.get other

/-! ## Conditions -/

/-- 60_exceptions R351: while HALTED = 1 every command of the sample chain responds (HALTED, 0) and changes
no state, not even a counter. -/
def Obligations.HaltedRefusesTheSampleChain : Prop :=
  ∀ (s : State) (i : Instr), s.est.halted = true → i ∈ [.est, .fft, .eq, .tps, .demux, .symbol] →
    exec i s = .next { s with out := s.out ++ [.resp .halted 0] }

/-- 60_exceptions R353, 46_control R330: a stage command out of order increments CNT_SEQ_ERR, changes no
other state and responds SEQ_ERROR. -/
def Obligations.OutOfOrderStagesAnswerSeqError : Prop :=
  ∀ (s : State) (i : Instr), s.est.halted = false →
    (i = .fft ∧ s.blk.tdId = none) ∨ (i = .eq ∧ s.blk.fdId = none) ∨
      (i = .tps ∧ (s.blk.fdId = none ∨ s.blk.tpsId = s.blk.fdId)) ∨
      (i = .demux ∧ ¬ (s.blk.fdId ≠ none ∧ s.blk.eqId = s.blk.fdId ∧ s.blk.tpsId = s.blk.fdId ∧
        s.blk.dmxId ≠ s.blk.fdId)) →
    exec i s = .next { s with
      cnt := { s.cnt with
        seqErr := if s.cnt.seqErr = 0xFFFFFFFF then 0xFFFFFFFF else s.cnt.seqErr + 1 }
      out := s.out ++ [.resp .seqError 0] }

/-- 10_state R29, R33 and R61: SYNC, OUT_VALID, TPS_EVENT_SEEN, HALTED and EOS_SEEN stay set over every step that
does not take a RESET word, those among them that resume a waiting command or answer an illegal word, and over
every command but RESET. -/
def Obligations.OnlyResetClearsTheStickyFlags : Prop :=
  let kept := fun s t : State =>
    (s.tps.sync → t.tps.sync) ∧ (s.tps.outValid → t.tps.outValid) ∧ (s.tps.eventSeen → t.tps.eventSeen) ∧
      (s.est.halted → t.est.halted) ∧ (s.est.eosSeen → t.est.eosSeen)
  (∀ s t : State, (∀ w rest, s.hold = none → s.cmd = w :: rest → decode w ≠ .ok .reset) → step s = .next t →
    kept s t) ∧
  ∀ (i : Instr) (s t : State), i ≠ .reset → exec i s = .next t → kept s t

/-- 10_state R61, 43_tps R207, 70_reset R382: which commands other than RESET write which unit. The CMD port is
written by none; the configuration and CNT_ILLEGAL by WRCFG; EBUF and CONF by EST, SYMBOL and WRCFG; the rest
of the estimator, TD, TD_ID, BLK_ID, the SAMPLE port and the wait (log 9) by EST and SYMBOL; FD and FD_ID by FFT
and SYMBOL; the equalizer's arrays and tag, MFAULT and the model's draws (log 14) by EQ and SYMBOL; the TPS
state, tag and port by TPS and SYMBOL; the demux's state, tag and port by DEMUX and SYMBOL; the decoder and its
port by VCONS, VCONS.P, VFLUSH, DEMUX and SYMBOL; each health counter with its unit, CNT_SEQ_ERR by the stages. -/
def Obligations.UnitsAreWrittenByTheirOwnCommands : Prop :=
  ∀ (i : Instr) (s t : State), i ≠ .reset → exec i s = .next t →
    t.cmd = s.cmd ∧
    ((∀ reg val, i ≠ .wrcfg reg val) → t.cfg = s.cfg ∧ t.cnt.illegal = s.cnt.illegal) ∧
    (i ≠ .est → i ≠ .symbol →
      t.est = { s.est with ebuf := t.est.ebuf, conf := t.est.conf } ∧
      ((∀ reg val, i ≠ .wrcfg reg val) → t.est = s.est) ∧
      t.blk.td = s.blk.td ∧ t.blk.tdId = s.blk.tdId ∧ t.blk.blkId = s.blk.blkId ∧ t.sample = s.sample ∧
      t.hold = s.hold ∧ t.cnt.symbols = s.cnt.symbols ∧ t.cnt.acq = s.cnt.acq) ∧
    (i ≠ .fft → i ≠ .symbol → t.blk.fd = s.blk.fd ∧ t.blk.fdId = s.blk.fdId) ∧
    (i ≠ .eq → i ≠ .symbol →
      t.blk.eqPh = s.blk.eqPh ∧ t.blk.eqAmp = s.blk.eqAmp ∧ t.blk.eqb = s.blk.eqb ∧ t.blk.eqId = s.blk.eqId ∧
      t.mfault = s.mfault ∧ t.draws = s.draws) ∧
    (i ≠ .tps → i ≠ .symbol →
      t.tps = s.tps ∧ t.blk.tpsId = s.blk.tpsId ∧ t.tpsPort = s.tpsPort ∧
      t.cnt.splitVote = s.cnt.splitVote ∧ t.cnt.resync = s.cnt.resync ∧ t.cnt.tpsEvents = s.cnt.tpsEvents) ∧
    (i ≠ .demux → i ≠ .symbol →
      t.dmx = s.dmx ∧ t.blk.dmxId = s.blk.dmxId ∧ t.dmxPort = s.dmxPort ∧
      t.cnt.anomalyTotal = s.cnt.anomalyTotal ∧ t.cnt.qualityWarn = s.cnt.qualityWarn ∧
      t.cnt.consist = s.cnt.consist ∧ t.cnt.configErr = s.cnt.configErr ∧ t.cnt.dmxOut = s.cnt.dmxOut) ∧
    ((∀ x y, i ≠ .vcons x y) → (∀ y, i ≠ .vconsP y) → i ≠ .vflush → i ≠ .demux → i ≠ .symbol →
      t.vit = s.vit ∧ t.vitPort = s.vitPort ∧ t.cnt.vitBits = s.cnt.vitBits) ∧
    (i ∉ [.fft, .eq, .tps, .demux, .symbol] → t.cnt.seqErr = s.cnt.seqErr)

/-! ## Estimator -/

/-- 60_exceptions R354, 40_estimator R131: a stream that ends after at least one and fewer than the needed
samples of the fill gives SHORT_READ: the samples stay in EBUF, HALTED and EOS_SEEN are set, no block is
produced and nothing else changes. -/
def Obligations.EstAtTruncatedStreamHalts : Prop :=
  ∀ (s : State) (zs : List Cplx) (rest : List SampleItem), s.est.halted = false → s.est.eosSeen = false →
    s.sample = zs.map .sample ++ .eos :: rest → 0 < zs.length →
    s.est.efill + zs.length < s.bufSize theParams →
    ∃ t, exec .est s = .next t ∧ AnswersOnly s t .shortRead 0 ∧
      t = { s with est := { s.est with ebuf := s.est.ebuf ++ zs, eosSeen := true, halted := true }
                   sample := rest, out := t.out }

/-- 60_exceptions R355: a stream that has ended before the first sample of the fill gives END_OF_STREAM, for
EST and for SYMBOL; only EOS_SEEN changes, and nothing is taken from the port once EOS_SEEN is set. -/
def Obligations.EstAtEndedStreamOnlySetsEosSeen : Prop :=
  ∀ (i : Instr) (s : State), i = .est ∨ i = .symbol → s.est.halted = false → s.est.efill < s.bufSize theParams →
    (s.est.eosSeen = true → ∃ t, exec i s = .next t ∧ AnswersOnly s t .endOfStream 0 ∧
      t = { s with out := t.out }) ∧
    (∀ rest, s.est.eosSeen = false → s.sample = .eos :: rest →
      ∃ t, exec i s = .next t ∧ AnswersOnly s t .endOfStream 0 ∧
        t = { s with est := { s.est with eosSeen := true }, sample := rest, out := t.out })

/-- 10_state R52, 70_reset R386: with too few samples and no EOS, EST takes what the port holds and waits;
while it waits a step with the port still empty changes nothing, and no other command is taken (that the wait
is a field of the state is the model's choice, log 9). -/
def Obligations.EstWaitsForSamples : Prop :=
  ∀ (s : State) (zs : List Cplx), s.hold = none → s.est.halted = false → s.est.eosSeen = false →
    s.sample = zs.map .sample → s.est.efill + zs.length < s.bufSize theParams →
    ∃ t, exec .est s = .next t ∧ step t = .next t ∧
      t = { s with est := { s.est with ebuf := s.est.ebuf ++ zs }, sample := [],
                   hold := some ⟨.est, zs.length⟩ }

/-- 00_scope R11: a waiting EST or SYMBOL, once the host pushes more items, ends in the very state in which it
would have ended had they been on the port from the start (the wait is a field of the state by the model's
choice, log 9). -/
def Obligations.WaitingCommandEndsAsIfNeverInterrupted : Prop :=
  ∀ (i : Instr) (s : State) (zs : List Cplx) (more : List SampleItem), i = .est ∨ i = .symbol →
    s.hold = none → s.est.halted = false → s.est.eosSeen = false →
    s.est.efill + zs.length < s.bufSize theParams →
    ∃ t, exec i { s with sample := zs.map .sample } = .next t ∧ t.hold ≠ none ∧
      step { t with sample := more } = exec i { s with sample := zs.map .sample ++ more }

/-- 40_estimator R130, R142 to R147: with the samples of the fill on the port, EST outputs one block from the
estimate of the full buffer: TD is the derotated useful part, the NCO advances, the buffer slides, the mode
and the measurement are recorded, the block is numbered, and CNT_SYMBOLS and in acquisition CNT_ACQ count. Over
the reals (NUM rounding nothing, cos, sin and pi being NUM's) entry j of the derotated part from `start` on is
EBUF[start + j] exp(-i (NCO + 2 pi eps j / N)), and the NCO advances to (NCO + 2 pi eps) mod 2 pi. -/
def Obligations.EstOutputsOneBlock : Prop :=
  (∀ (s : State) (zs : List Cplx) (rest : List SampleItem), s.est.halted = false →
    (s.est.eosSeen = false ∨ zs = []) → s.sample = zs.map .sample ++ rest →
    s.est.efill + zs.length = s.bufSize theParams →
    let full := { s with est := { s.est with ebuf := s.est.ebuf ++ zs }, sample := rest }
    let e := estimate theParams full
    let P := theParams
    ∃ t, exec .est s = .next t ∧ AnswersOnly s t .ok 0 ∧
      t.blk = { s.blk with
        td := derotate P full.est.ebuf (e.start + P.guardLen s.cfg.guard) s.est.nco e.eps
        blkId := s.blk.blkId + 1
        tdId := some (s.blk.blkId + 1) } ∧
      t.est = { full.est with
        ebuf := (full.est.ebuf.drop (e.start + 2048)).take (s.bufSize P - e.start - 2048)
        nco := advanceNco P s.est.nco e.eps
        conf := smoothConfidence P s.est.conf e.deviation
        tracking := decide (1 / 2 < s.est.conf)
        lastArgmax := e.argmax
        lastA := e.start
        lastEps := e.eps } ∧
      t.cnt = (if 1 / 2 < s.est.conf then s.cnt else s.cnt.add .acq 1).add .symbols 1 ∧
      t = { s with est := t.est, blk := t.blk, cnt := t.cnt, sample := rest, out := t.out }) ∧
  ∀ (P : Params) (ebuf : List Cplx) (start : Nat) (nco eps : Scalar), (∀ φ x, P.num.rnd φ x = x) →
    (derotate P ebuf start nco eps).length = P.n ∧
    advanceNco P nco eps = modTwoPi P.num (nco + 2 * P.num.pi.val * eps) ∧
    ∀ j, j < P.n →
      let z := readEntry ebuf (start + j)
      let t := -(nco + 2 * P.num.pi.val * eps * j / P.n)
      (derotate P ebuf start nco eps)[j]? = some
        ⟨z.re * P.num.cos t - z.im * P.num.sin t, z.re * P.num.sin t + z.im * P.num.cos t⟩

/-- 40_estimator R132, R134, R137, R139, R140: the estimate made of a buffer: mstar is the least of the N + L
positions at which the score is maximal, the deviation is normalised into [-L, N-L), the mode is tracking iff
CONF on entry exceeds 1/2, the window starts at L plus the adjusted deviation, in tracking within 15 of L, and no
index the output window reads reaches B; eps is taken at mstar. Of an all-zero buffer mstar is 0, the deviation -L
and eps the bias 0, whatever NUM is (R130, log 1). Over the reals (NUM rounding nothing, atan2, the square root and pi
being NUM's) the score is |gamma| - rho Phi and eps is -angle(gamma) / (2 pi) + EPS_BIAS, in [-1/2, 1/2) without
bias (under a NUM that rounds the range is not forced: log 28). rho lies between 0 and 1, and is
SNR / (SNR + 1) for a NUM that holds SNR exactly (log 4). -/
def Obligations.EstimateFollowsTheMetric : Prop :=
  (∀ s : State,
    let P := theParams
    let len := P.guardLen s.cfg.guard
    let b := s.bufSize P
    let pairs := samplePairs P s.est.ebuf b len
    let sc := score P s.est.ebuf pairs len
    let e := estimate P s
    e.argmax < P.n + len ∧ (∀ m, m < P.n + len → sc m ≤ sc e.argmax) ∧ (∀ m, m < e.argmax → sc m < sc e.argmax) ∧
    (-(len : Int) ≤ e.deviation ∧ e.deviation < (P.n : Int) - len) ∧
    (e.deviation = (e.argmax : Int) - len ∨ e.deviation = (e.argmax : Int) - len - P.n) ∧
    e.tracking = decide (1 / 2 < s.est.conf) ∧
    (e.start : Int) = len + (if e.tracking then trackAdjust P e.deviation else e.deviation) ∧
    (e.tracking = true → len - 15 ≤ e.start ∧ e.start ≤ len + 15) ∧
    e.start < P.n ∧ e.start + len + P.n - 1 < b ∧
    e.eps = frequencyOffset P (gamma P s.est.ebuf pairs len e.argmax) ∧
    (s.est.ebuf = List.replicate b Cplx.zero → e.argmax = 0 ∧ e.deviation = -(len : Int) ∧ e.eps = 0)) ∧
  (∀ (P : Params) (ebuf : List Cplx) (pairs : List (Cplx × Cplx)) (len m : Nat), (∀ φ x, P.num.rnd φ x = x) →
    let g := gamma P ebuf pairs len m
    score P ebuf pairs len m = nsqrt P.num (g.re ^ 2 + g.im ^ 2) - rho P * phi P ebuf pairs len m ∧
    frequencyOffset P g = -angle P.num g / (2 * P.num.pi.val) + P.epsBias ∧
    (P.epsBias = 0 → -(1 / 2) ≤ frequencyOffset P g ∧ frequencyOffset P g < 1 / 2)) ∧
  ∀ P : Params, 0 < rho P ∧ rho P < 1 ∧
    let snr : ℝ := Real.exp P.snr.log
    (((P.num.ofReal P.snr).val : ℝ) = snr → (rho P : ℝ) = snr / (snr + 1))

/-- 40_estimator R136, R138: tracking drops deviations of up to 2 samples and clamps to 15; the instantaneous
confidence is 1 up to a deviation of 15 and 0 beyond; and over the reals (NUM rounding nothing) the smoothed
confidence is CONF + CONF_ALPHA (Inst(d) - CONF) and stays in [0, 1]. -/
def Obligations.TrackingAndConfidence : Prop :=
  (∀ d : Int, trackAdjust theParams d =
    if -2 ≤ d ∧ d ≤ 2 then 0 else if d < -15 then -15 else if 15 < d then 15 else d) ∧
  (∀ d : Int, instConfidence theParams d = if -15 ≤ d ∧ d ≤ 15 then 1 else 0) ∧
  (∀ (P : Params) (conf : Scalar) (d : Int), (∀ φ x, P.num.rnd φ x = x) →
    smoothConfidence P conf d = conf + P.confAlpha * (instConfidence P d - conf) ∧
    (0 < P.confAlpha → P.confAlpha ≤ 1 → 0 ≤ conf → conf ≤ 1 →
      0 ≤ smoothConfidence P conf d ∧ smoothConfidence P conf d ≤ 1))

/-- 00_scope R9, 40_estimator R143: `mod 2 pi` is the value in [0, 2 pi), and `wrap` the value in (-pi, pi],
that differs from its argument by a multiple of 2 pi, pi being NUM's (that both are exact is the model's choice,
log 2). The angle of (0, 0) is 0, and that of any other z is the value in (-pi, pi] that differs from NUM's
atan2(Im z, Re z) by such a multiple (log 1). -/
def Obligations.PhaseReductions : Prop :=
  ∀ (A : NumParam) (x : Scalar) (z : Cplx),
    (0 ≤ modTwoPi A x ∧ modTwoPi A x < 2 * A.pi.val ∧ ∃ k : Int, x = modTwoPi A x + k * (2 * A.pi.val)) ∧
    (-A.pi.val < wrap A x ∧ wrap A x ≤ A.pi.val ∧ ∃ k : Int, x = wrap A x + k * (2 * A.pi.val)) ∧
    angle A Cplx.zero = 0 ∧ (-A.pi.val < angle A z ∧ angle A z ≤ A.pi.val) ∧
    (z ≠ Cplx.zero → ∃ k : Int, A.atan2 z.im z.re = angle A z + k * (2 * A.pi.val))

/-! ## Transform -/

/-- 41_fft R170, R171: with a block extracted, FFT writes the transform of TD into FD, tags it with TD_ID, responds
(OK, 0) and changes nothing else. Over the reals (NUM rounding nothing and holding FFT_SCALE exactly, cos, sin and pi
being NUM's) bin k is FFT_SCALE times the sum over n of TD[n] exp(-i 2 pi n k / N); a NUM that holds FFT_SCALE in another
value takes that one (log 4). -/
def Obligations.FftTransformsTheBlock : Prop :=
  (∀ (s : State) (b : Nat), s.est.halted = false → s.blk.tdId = some b →
    ∃ t, exec .fft s = .next t ∧ t.blk.fd.length = 2048 ∧
      (∀ k, k < 2048 → t.blk.fd[k]? = some (dftBin theParams s.blk.td k)) ∧
      t = { s with blk := { s.blk with fd := t.blk.fd, fdId := some b }, out := s.out ++ [.resp .ok 0] }) ∧
  ∀ (P : Params) (td : List Cplx) (k : Nat), (∀ φ x, P.num.rnd φ x = x) →
    let t := fun i : Nat => -(2 * P.num.pi.val * (i * k) / P.n : Rat)
    let z := fun i => readEntry td i
    let re := ((List.range P.n).map fun i => (z i).re * P.num.cos (t i) - (z i).im * P.num.sin (t i)).sum
    let im := ((List.range P.n).map fun i => (z i).re * P.num.sin (t i) + (z i).im * P.num.cos (t i)).sum
    let held := (P.num.ofReal P.fftScale).val
    let scale : ℝ := Real.exp P.fftScale.log
    (dftBin P td k).re = held * re ∧ (dftBin P td k).im = held * im ∧
    ((held : ℝ) = scale → ((dftBin P td k).re : ℝ) = scale * (re : ℝ) ∧ ((dftBin P td k).im : ℝ) = scale * (im : ℝ))

/-- 41_fft R170: an all-zero TD gives an all-zero FD, whatever NUM is (the rule states it
of every NUM: log 1). -/
def Obligations.ZeroBlockHasZeroSpectrum : Prop :=
  ∀ P : Params, forwardTransform P (List.replicate P.n Cplx.zero) = List.replicate P.n Cplx.zero

/-- 41_fft R172: the mapped offset is below N for every carrier, the mapping is injective, and the centre
carrier maps to entry 0. -/
def Obligations.CarrierGridIsInjective : Prop :=
  (∀ c, c ≤ 1704 → carrierBin theParams c = (c + 1196) % 2048 ∧ carrierBin theParams c < 2048) ∧
  (∀ c d, c ≤ 1704 → d ≤ 1704 → carrierBin theParams c = carrierBin theParams d → c = d) ∧
  carrierBin theParams 852 = 0

/-! ## Equalizer -/

/-- 42_equalizer R180, R181, R182, R186: with a transform present, EQ writes the correction of every carrier
0..K_MAX and the corrected carrier, an unconstrained draw where the amplitude is 0 (log 14), records PRE_ZERO_AMP
iff some amplitude is 0, tags the result with FD_ID, responds (OK, 0) and changes nothing else but the model's
draw counter. Over the reals (NUM rounding nothing, its functions being NUM's) a pilot measures p = X[c] s(c), s(c)
= 1 - 2 PRBS_W[c], as (angle(p), 3/4 |p|), and a carrier is corrected to x exp(-i ph) / amp. -/
def Obligations.EqEqualizesTheBlock : Prop :=
  (∀ (s : State) (b : Nat), s.est.halted = false → s.blk.fdId = some b →
    let P := theParams
    let corr := correction P.num (P.cpList.map (measurePilot P s.blk.fd))
    ∃ t, exec .eq s = .next t ∧
      t.blk.eqPh.length = 1705 ∧ t.blk.eqAmp.length = 1705 ∧ t.blk.eqb.length = 1705 ∧
      (∀ c, c < 1705 → t.blk.eqPh[c]? = some (corr c).1 ∧ t.blk.eqAmp[c]? = some (corr c).2 ∧
        t.blk.eqb[c]? = some (if (corr c).2 = 0 then Config.freeDraw s.draws c
          else applyCorrection P.num (carrier P s.blk.fd c) (corr c).1 (corr c).2)) ∧
      (t.mfault.preZeroAmp = true ↔ s.mfault.preZeroAmp = true ∨ ∃ c, c < 1705 ∧ (corr c).2 = 0) ∧
      t = { s with
        blk := { s.blk with
          eqPh := t.blk.eqPh, eqAmp := t.blk.eqAmp, eqb := t.blk.eqb, eqId := some b }
        mfault := { s.mfault with preZeroAmp := t.mfault.preZeroAmp }
        draws := t.draws
        out := s.out ++ [.resp .ok 0] }) ∧
  ∀ (P : Params) (fd : List Cplx) (c : Nat) (x : Cplx) (ph amp : Scalar), (∀ φ x, P.num.rnd φ x = x) →
    let sign : Rat := 1 - 2 * ((P.prbsW.getD c false).toNat : Rat)
    let p : Cplx := ⟨sign * (carrier P fd c).re, sign * (carrier P fd c).im⟩
    measurePilot P fd c = ⟨c, angle P.num p, nsqrt P.num (p.re ^ 2 + p.im ^ 2) * (3 / 4)⟩ ∧
    carrier P fd c = readEntry fd (carrierBin P c) ∧
    (amp ≠ 0 → applyCorrection P.num x ph amp =
      ⟨(x.re * P.num.cos (-ph) - x.im * P.num.sin (-ph)) / amp,
        (x.re * P.num.sin (-ph) + x.im * P.num.cos (-ph)) / amp⟩)

/-- 42_equalizer R183, R184, R185: between two neighbours of an ascending pilot list a carrier takes their linear
interpolation, the first end of each pair included; below the first pilot and above the last it takes that
pilot's values; and at the last pilot the last pair's. Over the reals (NUM rounding nothing) the interpolation is
linear from the first end to the unwrapped second, re-wrapped, and the second end is unwrapped by 2 pi only where
the gap strictly exceeds pi. -/
def Obligations.CarriersInterpolateTheirNeighbours : Prop :=
  (∀ (A : NumParam) (ps : List Pilot), List.Pairwise (fun p q => p.c < q.c) ps →
    (∀ (j : Nat) (p q : Pilot) (c : Nat), ps[j]? = some p → ps[j + 1]? = some q → p.c ≤ c → c < q.c →
      correction A ps c = interpolate A p q c) ∧
    (∀ (p q : Pilot) (front : List Pilot), ps = front ++ [p, q] →
      correction A ps q.c = interpolate A p q q.c) ∧
    (∀ (p : Pilot) (c : Nat), ps.head? = some p → c < p.c → correction A ps c = (p.th, p.amp)) ∧
    (∀ (p : Pilot) (c : Nat), ps.getLast? = some p → p.c < c → correction A ps c = (p.th, p.amp))) ∧
  ∀ (A : NumParam) (p q : Pilot) (c : Nat) (t0 t1 : Scalar), (∀ φ x, A.rnd φ x = x) →
    (p.c ≤ c → p.c < q.c →
      let f : Rat := ((c : Rat) - p.c) / ((q.c : Rat) - p.c)
      interpolate A p q c = (wrap A (p.th + f * (unwrap A p.th q.th - p.th)), p.amp + f * (q.amp - p.amp))) ∧
    (A.pi.val < t1 - t0 → unwrap A t0 t1 = t1 - 2 * A.pi.val) ∧
    (A.pi.val < t0 - t1 → unwrap A t0 t1 = t1 + 2 * A.pi.val) ∧
    (t1 - t0 ≤ A.pi.val → t0 - t1 ≤ A.pi.val → unwrap A t0 t1 = t1)

/-- 42_equalizer R188: two pilots with identical angle and amplitude give both to every carrier between
them, whatever NUM is (the rule states it of every NUM: log 1). -/
def Obligations.EqualPilotsGiveTheirOwnValues : Prop :=
  ∀ (A : NumParam) (p q : Pilot) (c : Nat), p.th = q.th → p.amp = q.amp → -A.pi.val < p.th →
    p.th ≤ A.pi.val → p.c < c → c < q.c → interpolate A p q c = (p.th, p.amp)

/-- 42_equalizer R187: EQ's table and every carrier of its equalized block whose amplitude is not 0 depend only
on FD: two states that agree on FD get the same, whatever their earlier tables. -/
def Obligations.EqHasNoMemory : Prop :=
  ∀ s s' t t' : State, s.est.halted = false → s'.est.halted = false → s.blk.fdId ≠ none → s'.blk.fdId ≠ none →
    s.blk.fd = s'.blk.fd → exec .eq s = .next t → exec .eq s' = .next t' →
    t.blk.eqPh = t'.blk.eqPh ∧ t.blk.eqAmp = t'.blk.eqAmp ∧
    ∀ c : Nat, t.blk.eqb[c]? = t'.blk.eqb[c]? ∨ t.blk.eqAmp[c]? = some 0

/-! ## TPS decoder -/

/-- 43_tps R200 to R209: TPS on a block it has not processed: each of the 17 carriers whose dot product
Re(X[c] conj(TPS_PREV[t])) is negative votes 1, the carriers' phasors are kept for the next vote, the majority
bit is shifted in, the position is forced to 16 on a match, the bit is stored there and nowhere else, the indices
are taken, the sticky flags are set, the position advances cyclically, and split votes and resynchronisations
count. Only the TPS state, TPS_ID, those counters, CNT_TPS_EVENTS, RESP and TPS_EVT change. Over the reals (NUM
rounding nothing) the dot product is the sum of the products of the parts. -/
def Obligations.TpsProcessesOneBit : Prop :=
  (∀ (s : State) (b : Nat), s.est.halted = false → s.blk.fdId = some b → s.blk.tpsId ≠ some b →
    let P := theParams
    let now := tpsList2K.map (carrier P s.blk.fd)
    let product := fun t => dot P.num (carrier P s.blk.fd (tpsList2K.getD t 0)) (s.tps.prev.getD t Cplx.zero)
    let ones := ((List.range 17).filter fun t => decide (product t < 0)).length
    let bit := decide (17 - ones < ones)
    let shift := shiftIn s.tps.shift bit
    let hit := shift = 0x35EE ∨ shift = 0xCA11
    let cur : Fin 68 := if hit then 16 else s.tps.pos
    let sync := s.tps.sync || decide hit
    ∃ t, exec .tps s = .next t ∧ t.respPort = s.respPort ++ [(.ok, 0)] ∧
      t.dmxPort = s.dmxPort ∧ t.vitPort = s.vitPort ∧ t.tps.prev = now ∧ t.tps.shift = shift ∧
      t.tps.shift.toNat = (2 * s.tps.shift.toNat + bit.toNat) % 65536 ∧
      (∀ k, k < 68 → t.tps.payload.getLsbD k = if k = cur.val then bit else s.tps.payload.getLsbD k) ∧
      t.tps.sync = sync ∧ t.tps.idxSym = cur ∧ t.tps.idxFrame = s.tps.frame ∧
      t.tps.outValid = (s.tps.outValid || (sync && decide (cur = 0 ∧ s.tps.frame = 0))) ∧
      t.tps.pos.val = (cur.val + 1) % 68 ∧
      t.cnt.splitVote = satAdd s.cnt.splitVote (if ones ∈ [7, 8, 9, 10] then 1 else 0) ∧
      t.cnt.resync = satAdd s.cnt.resync (if hit ∧ s.tps.pos ≠ 16 then 1 else 0) ∧
      t = { s with tps := t.tps, blk := { s.blk with tpsId := some b }
                   cnt := { s.cnt with
                     splitVote := t.cnt.splitVote, resync := t.cnt.resync, tpsEvents := t.cnt.tpsEvents }
                   out := t.out }) ∧
  ∀ (A : NumParam) (z w : Cplx), (∀ φ x, A.rnd φ x = x) → dot A z w = z.re * w.re + z.im * w.im

/-- 43_tps R208, R211: the step of the bit at position 67 of a synchronised decoder emits exactly one event,
that of the payload, and loads the frame counter with the decoded frame number plus 1 modulo 4; without
synchronisation it emits none and the frame counter advances by 1; any other step emits none and keeps it. The
position advances cyclically, and the configuration stays. -/
def Obligations.TpsWrapEmitsOneEvent : Prop :=
  ∀ (s t : State) (b : Nat), s.est.halted = false → s.blk.fdId = some b → s.blk.tpsId ≠ some b →
    exec .tps s = .next t →
    let ev := decodeEvent theParams t.tps.payload
    t.tps.pos.val = (t.tps.idxSym.val + 1) % 68 ∧ t.cfg = s.cfg ∧
    (t.tps.idxSym.val = 67 → t.tps.sync = true →
      t.tpsPort = s.tpsPort ++ [ev] ∧ t.tps.lastEvent = ev ∧ t.tps.eventSeen = true ∧
      t.tps.frame.toNat = (ev.toNat % 4 + 1) % 4 ∧ t.cnt.tpsEvents = satAdd s.cnt.tpsEvents 1) ∧
    (t.tps.idxSym.val = 67 → t.tps.sync = false →
      t.tpsPort = s.tpsPort ∧ t.tps.lastEvent = s.tps.lastEvent ∧ t.tps.eventSeen = s.tps.eventSeen ∧
      t.tps.frame.toNat = (s.tps.frame.toNat + 1) % 4 ∧ t.cnt.tpsEvents = s.cnt.tpsEvents) ∧
    (t.tps.idxSym.val ≠ 67 →
      t.tpsPort = s.tpsPort ∧ t.tps.lastEvent = s.tps.lastEvent ∧ t.tps.eventSeen = s.tps.eventSeen ∧
      t.tps.frame = s.tps.frame ∧ t.cnt.tpsEvents = s.cnt.tpsEvents)

/-- 43_tps R210, 30_encoding R100, 20_memory R82: each bit of the event word is its payload bit, a field's
lowest-numbered payload bit most significant, and bits 63 to 17 are 0. -/
def Obligations.EventWordTakesItsPayloadBits : Prop :=
  ∀ payload : BitVec 68,
    (∀ p ∈ [(0, 24), (1, 23), (2, 26), (3, 25), (4, 29), (5, 28), (6, 27), (7, 32), (8, 31), (9, 30), (10, 35),
        (11, 34), (12, 33), (13, 37), (14, 36), (15, 39), (16, 38)],
      (decodeEvent theParams payload).getLsbD p.1 = payload.getLsbD p.2) ∧
    ∀ k, 17 ≤ k → (decodeEvent theParams payload).getLsbD k = false

/-- 43_tps R200: against an all-zero TPS_PREV every dot product is 0, so the bit is 0 whatever NUM and the
carriers are (the rule states it of every NUM: log 1). -/
def Obligations.FirstBitAfterResetIsZero : Prop :=
  ∀ (s : State) (b : Nat), s.est.halted = false → s.blk.fdId = some b → s.blk.tpsId ≠ some b →
    s.tps.prev = List.replicate 17 Cplx.zero →
    ∃ t, exec .tps s = .next t ∧ t.tps.shift = s.tps.shift <<< 1

/-! ## Demux -/

/-- 44_demux R230, R234, R236 to R239, R248, R250: a DEMUX in order with a supported configuration, before
OUT_VALID: the block is consumed and its anomalies, the continual, TPS and scattered carriers whose sign or
magnitude fails (`anomalyCount`), are recorded, summed and, above 10, warned of; nothing is emitted and the
feeder and the decoder do not change. Over the reals (NUM rounding nothing, the square root being NUM's) the
magnitude is that of e: the deviation tested is sqrt(Re(e)^2 + Im(e)^2) less the nominal amplitude. -/
def Obligations.DemuxBeforeOutputValidEmitsNothing : Prop :=
  (∀ (s : State) (b : Nat), s.est.halted = false → s.blk.fdId = some b → s.blk.eqId = some b →
    s.blk.tpsId = some b → s.blk.dmxId ≠ some b → s.cfg.const = 1 → s.cfg.hier = 0 →
    (s.cfg.rate = 0 ∨ s.cfg.rate = 1) → s.tps.outValid = false →
    let an := anomalyCount theParams s.blk.eqb s.tps.idxSym.val
    ∃ t, exec .demux s = .next t ∧ AnswersOnly s t .ok 0 ∧
      t = { s with blk := { s.blk with dmxId := some b }, dmx := { s.dmx with anomalyLast := an }
                   cnt := { s.cnt with
                     anomalyTotal := satAdd s.cnt.anomalyTotal an
                     qualityWarn := satAdd s.cnt.qualityWarn (if 10 < an then 1 else 0) }
                   out := t.out }) ∧
  ∀ (P : Params) (e : Cplx) (nominal : Rat), (∀ φ x, P.num.rnd φ x = x) →
    deviation P e nominal = nsqrt P.num (e.re ^ 2 + e.im ^ 2) - nominal

/-- 44_demux R250, 45_viterbi R295, R296: with OUT_VALID the symbol's 6048 bits, of its data carriers' cells, go
out as 756 bytes on DMX_OUT, CNT_DMX_OUT counts, and the bits, FEED_BUF first, run the decoder through the steps
of CFG_RATE's periods: VIT_OUT gets the items of those steps and CNT_VIT_BITS their bits. With FEED_BUF empty
these are 3024 steps at rate 1/2 and 4032 at rate 2/3, and FEED_BUF stays empty. Over the reals (NUM rounding nothing,
the square root being NUM's) the magnitude test of the anomalies is that of R237 and R238: the deviation is
sqrt(Re(e)^2 + Im(e)^2) less the nominal amplitude. -/
def Obligations.DemuxEmitsAndFeedsTheDecoder : Prop :=
  (∀ (s : State) (b : Nat), s.est.halted = false → s.blk.fdId = some b → s.blk.eqId = some b →
    s.blk.tpsId = some b → s.blk.dmxId ≠ some b → s.cfg.const = 1 → s.cfg.hier = 0 →
    (s.cfg.rate = 0 ∨ s.cfg.rate = 1) → s.tps.outValid = true →
    let an := anomalyCount theParams s.blk.eqb s.tps.idxSym.val
    let x := symbolBits theParams (dataCells theParams s.blk.eqb s.tps.idxSym.val) s.tps.idxSym.val
    let cut := cutBits s.cfg.rate (s.dmx.feedBuf ++ x)
    let run := feedRun theParams cut.1 s.vit
    ∃ t, exec .demux s = .next t ∧ t.respPort = s.respPort ++ [(.ok, 0)] ∧ x.length = 6048 ∧
      t.dmxPort = s.dmxPort ++ packBits x ∧ (packBits x).length = 756 ∧ t.tpsPort = s.tpsPort ∧
      t.vitPort = s.vitPort ++ run.items ∧ t.vit = run.vit ∧
      t.dmx = { anomalyLast := an, feedBuf := cut.2 } ∧
      (s.dmx.feedBuf = [] → cut.1.length = (if s.cfg.rate = 0 then 3024 else 4032) ∧ cut.2 = []) ∧
      t = { s with blk := { s.blk with dmxId := some b }, dmx := t.dmx, vit := t.vit, out := t.out
                   cnt := { s.cnt with
                     anomalyTotal := satAdd s.cnt.anomalyTotal an
                     qualityWarn := satAdd s.cnt.qualityWarn (if 10 < an then 1 else 0)
                     dmxOut := satAdd s.cnt.dmxOut 1
                     vitBits := satAdd s.cnt.vitBits run.bits } }) ∧
  ∀ (P : Params) (e : Cplx) (nominal : Rat), (∀ φ x, P.num.rnd φ x = x) →
    deviation P e nominal = nsqrt P.num (e.re ^ 2 + e.im ^ 2) - nominal

/-- 44_demux R231, R232: a DEMUX in order with an unsupported constellation, hierarchy or rate responds
CONFIG_ERROR and increments CNT_CONFIG_ERR once; the block is consumed and nothing else changes. -/
def Obligations.UnsupportedConfigurationConsumesTheBlock : Prop :=
  ∀ (s : State) (b : Nat), s.est.halted = false → s.blk.fdId = some b → s.blk.eqId = some b →
    s.blk.tpsId = some b → s.blk.dmxId ≠ some b →
    (s.cfg.const ≠ 1 ∨ s.cfg.hier ≠ 0 ∨ (s.cfg.rate ≠ 0 ∧ s.cfg.rate ≠ 1)) →
    ∃ t, exec .demux s = .next t ∧ AnswersOnly s t .configError 0 ∧
      t = { s with blk := { s.blk with dmxId := some b }, out := t.out
                   cnt := { s.cnt with configErr := satAdd s.cnt.configErr 1 } }

/-- 20_memory R76, 44_demux R234, R249: with the 2K tables every symbol has exactly 1512 data cells and no
missed pilot, so no DEMUX answers CONSISTENCY_ERROR. -/
def Obligations.EverySymbolHas1512Cells : Prop :=
  (∀ (eqb : List Cplx) (sym : Nat),
    (walk theParams eqb sym).cells.length = 1512 ∧ (walk theParams eqb sym).missed = 0) ∧
  ∀ s t : State, exec .demux s = .next t →
    ∃ code, t.respPort = s.respPort ++ [(code, 0)] ∧ code ≠ .consistencyError

/-- 44_demux R246: the closed form of the deinterleaver: bit e of the cell with logical position w goes to
output index 4 i + j, i the rotated position in its block of 126 and DEMUX16[j] = e, the physical position
of w being HQ[w] in even symbols and the q with HQ[q] = w in odd ones. -/
def Obligations.DeinterleaverClosedForm : Prop :=
  ∀ (cells : List Cell) (sym w j : Nat), cells.length = 1512 → w < 1512 → j < 4 →
    let e := [0, 2, 1, 3].getD j 0
    let i := 126 * (w / 126) + (w % 126 + [0, 63, 105, 42].getD e 0) % 126
    (symbolBits theParams cells sym).length = 6048 ∧
    (sym % 2 = 0 → ∀ c : Cell, cells[hq2K.getD w 0]? = some c →
      (symbolBits theParams cells sym)[4 * i + j]? = some (c.bit e)) ∧
    (sym % 2 = 1 → ∀ (q : Nat) (c : Cell), hq2K[q]? = some w → cells[q]? = some c →
      (symbolBits theParams cells sym)[4 * i + j]? = some (c.bit e))

/-- 44_demux R247: for each symbol parity the map from the bits of the data cells to the output bits is a
bijection: every sequence of 6048 bits is the output of exactly one sequence of 1512 cells. -/
def Obligations.DeinterleaverIsBijective : Prop :=
  ∀ (sym : Nat) (x : List Bool), x.length = 6048 →
    ∃ cells, (cells.length = 1512 ∧ symbolBits theParams cells sym = x) ∧
      ∀ cells', cells'.length = 1512 → symbolBits theParams cells' sym = x → cells' = cells

/-- 44_demux R240, 20_memory R80: the bits of an axis value by the strict thresholds T, 0 and -T, T being
NUM's 0.66, for every NUM whose 0.66 is positive: a value on a threshold goes to its negative side; the real part gives
y0 and y2, the imaginary part y1 and y3. Over the reals (NUM rounding nothing) T is 66/100. That -0.66 is held as -T,
and that NUM's 0.66 may be any number, is the model's choice (log 29). -/
def Obligations.DemapperRegions : Prop :=
  (∀ (A : NumParam) (e : Cplx), 0 < nlit A (66 / 100) →
    let T := nlit A (66 / 100)
    let c := demap { theParams with num := A } e
    c.y0 = decide (e.re ≤ 0) ∧ c.y2 = decide (-T < e.re ∧ e.re ≤ T) ∧
    c.y1 = decide (e.im ≤ 0) ∧ c.y3 = decide (-T < e.im ∧ e.im ≤ T)) ∧
  ∀ A : NumParam, (∀ φ x, A.rnd φ x = x) → nlit A (66 / 100) = 66 / 100

/-- 20_memory R72, 30_encoding R112: of a whole number of bytes, bit x_j is bit 7 - (j mod 8) of byte
j div 8. -/
def Obligations.BytesArePackedMsbFirst : Prop :=
  ∀ (x : List Bool), x.length % 8 = 0 →
    (packBits x).length = x.length / 8 ∧
    ∀ (j : Nat) (b : Byte), j < x.length → (packBits x)[j / 8]? = some b → x[j]? = some (b.getLsbD (7 - j % 8))

/-! ## Viterbi decoder -/

/-- 45_viterbi R295: the feeder cuts a bit sequence into whole periods of 2 bits (rate 1/2) or 3 (rate 2/3):
the steps in order carry its bits, the leftover is what the period does not divide, and at rate 2/3 full and
punctured steps alternate. -/
def Obligations.FeederCutsWholePeriods : Prop :=
  ∀ (z : List Bool) (rate : BitVec 3), rate = 0 ∨ rate = 1 →
    let cut := cutBits rate z
    (cut.1.map FeedStep.codeBits).flatten ++ cut.2 = z ∧
    cut.2.length = z.length % (if rate = 0 then 2 else 3) ∧
    (∀ (k : Nat) (f : FeedStep), cut.1[k]? = some f → f.hasX = (rate == 0 || k % 2 == 0)) ∧
    cut.1.length = (if rate = 0 then z.length / 2 else 2 * (z.length / 3))

/-- 45_viterbi R270 to R274, R277, 20_memory R83: VCONS and VCONS.P complete in every state. Each new metric is the
smaller of the two candidates, the recorded predecessor the one with b = 0 unless the other is strictly better, the
recorded bit the transition's input; the step's records go to slot VW and every other slot stays. Where the window
is not yet full, VCOUNT grows by 1 and nothing is emitted; where it is, O bits are decided and the next O places
freed. The predecessor of s' by b is (2 s' mod 64) + b, and the expected X and Y are the parities of the 7-bit word
{s'[5], pred} under 0o171 and 0o133. -/
def Obligations.TrellisStepSelectsTheBetterBranch : Prop :=
  (∀ (s : State) (hasX x y : Bool),
    let i : Instr := if hasX then .vcons x y else .vconsP y
    let P := theParams
    let m := fun (sp : BitVec 6) (b : Bool) => s.vit.vpm.getD (predState sp b).toNat 0 +
      ((if hasX && (expectedX P sp b != x) then 1 else 0) + (if expectedY P sp b != y then 1 else 0))
    ∃ t slot, exec i s = .next t ∧ t.respPort = s.respPort ++ [(.ok, 0)] ∧
      t.dmxPort = s.dmxPort ∧ t.tpsPort = s.tpsPort ∧
      (∀ k, k ≠ s.vit.vw → ringSlot t.vit.vring k = ringSlot s.vit.vring k) ∧
      ringSlot t.vit.vring s.vit.vw = some slot ∧ slot.length = 64 ∧ t.vit.vpm.length = 64 ∧
      (∀ sp : BitVec 6,
        t.vit.vpm[sp.toNat]? = some (min (m sp false) (m sp true)) ∧
        slot[sp.toNat]? = some ⟨min (m sp false) (m sp true),
          predState sp (decide (m sp true < m sp false)), sp.getLsbD 5⟩) ∧
      t.vit.vw = (s.vit.vw + 1) % P.depth ∧
      (s.vit.vcount + 1 ≠ P.decisionLen + P.outputBits →
        t.vit.vcount = s.vit.vcount + 1 ∧ t.vit.vbest = s.vit.vbest ∧ t.vit.vob = s.vit.vob ∧
        t.vitPort = s.vitPort ∧ t.cnt = s.cnt) ∧
      (s.vit.vcount + 1 = P.decisionLen + P.outputBits →
        t.vit.vcount = P.decisionLen ∧ t.cnt.vitBits = satAdd s.cnt.vitBits P.outputBits ∧
        t.vit.vbest = t.vit.vpm.getD (bestState t.vit.vpm) 0 ∧
        ∃ items, t.vitPort = s.vitPort ++ items ∧ (∀ it ∈ items, it.nbits = 8) ∧
          (items.map VitItem.bits).flatten ++ t.vit.vob =
            s.vit.vob ++ (decidedBits P (acsStep P hasX x y s.vit)).take P.outputBits) ∧
      t = { s with vit := t.vit, out := t.out, cnt := { s.cnt with vitBits := t.cnt.vitBits } }) ∧
  ∀ (sp : BitVec 6) (b : Bool),
    let ones := fun g : BitVec 7 => ((List.range 7).filter fun k =>
      (BitVec.ofNat 7 (64 * (sp.getLsbD 5).toNat + (predState sp b).toNat) &&& g).getLsbD k).length
    (predState sp b).toNat = (2 * sp.toNat) % 64 + b.toNat ∧
    expectedX theParams sp b = decide (ones 0o171 % 2 = 1) ∧ expectedY theParams sp b = decide (ones 0o133 % 2 = 1)

/-- 45_viterbi R290, 30_encoding R113: VFLUSH decides every pending step and emits everything: the bits of the
new VIT_OUT items are the bits that were pending followed by the decided ones, oldest first, and the places of
a partial byte below its bits are 0; VCOUNT is 0 and VOB empty, VPM, VRING and VW stay, VBEST is the best metric if a traceback ran. -/
def Obligations.VflushEmitsEverythingPending : Prop :=
  ∀ s : State, s.vit.vob.length < 8 →
    ∃ t items, exec .vflush s = .next t ∧ t.respPort = s.respPort ++ [(.ok, 0)] ∧
      t.dmxPort = s.dmxPort ∧ t.tpsPort = s.tpsPort ∧
      t.vitPort = s.vitPort ++ items ∧
      (items.map VitItem.bits).flatten = s.vit.vob ++ decidedBits theParams s.vit ∧
      (∀ it ∈ items.dropLast, it.nbits = 8) ∧ (∀ it ∈ items, 1 ≤ it.nbits ∧ it.nbits ≤ 8) ∧
      (∀ it ∈ items, ∀ k, k < 8 - it.nbits → it.byte.getLsbD k = false) ∧
      t.cnt = { s.cnt with vitBits := satAdd s.cnt.vitBits s.vit.vcount } ∧
      t = { s with
        vit := { s.vit with
          vcount := 0, vob := []
          vbest := if s.vit.vcount = 0 then s.vit.vbest else s.vit.vpm.getD (bestState s.vit.vpm) 0 }
        cnt := t.cnt, out := t.out }

/-- 45_viterbi R281: the best state has the lowest metric, and on a tie the lowest number. -/
def Obligations.BestStateIsLeast : Prop :=
  ∀ vpm : List Nat, vpm ≠ [] →
    ∃ m, vpm[bestState vpm]? = some m ∧ (∀ (k x : Nat), vpm[k]? = some x → m ≤ x) ∧
      ∀ (k x : Nat), k < bestState vpm → vpm[k]? = some x → m < x

/-- 45_viterbi R272, R273: from the reset metrics, after any list of full and punctured steps the metric of
every state is the least accumulated Hamming distance over all trellis paths that end in it, at most 2 a
step (R275). -/
def Obligations.PathMetricIsTheLeastDistance : Prop :=
  ∀ (P : Params) (fs : List FeedStep) (v : VitState) (s : BitVec 6), v.vpm = List.replicate 64 0 →
    ∃ m, (afterSteps P v fs).vpm[s.toNat]? = some m ∧
      m ≤ 2 * fs.length ∧
      (∀ choices : List Bool, choices.length = fs.length → m ≤ pathCost P fs.reverse s choices) ∧
      ∃ choices : List Bool, choices.length = fs.length ∧ m = pathCost P fs.reverse s choices

/-- 45_viterbi R280, R281, R283: every traceback runs on a decoder that meets `VitInv` (VFLUSH) or on what the
add-compare-select of one step makes of it (R277). On each of these the decided bits are VCOUNT many and follow the
records: the walk starts in the best state after the newest undecided step; of undecided step k it takes the record of
the state walked to in slot (VW - VCOUNT + k) mod DEPTH, whose bit is decided bit k and whose predecessor is the state
after step k - 1. From reset, after any steps and VFLUSHes, hence also after earlier tracebacks and with the ring
wrapped, the decided bits are the last VCOUNT inputs of a path over ALL the steps since reset that ends in the best
state and whose accumulated distance is the best metric: a maximum-likelihood path. Before the first traceback they
are all its inputs. -/
def Obligations.TracebackFollowsABestPath : Prop :=
  (∀ (P : Params) (u v : VitState), VitInv P u →
    v = u ∨ (∃ hasX x y, v = acsStep P hasX x y u) →
    (decidedBits P v).length = v.vcount ∧
    ∃ after : Nat → BitVec 6, after v.vcount = BitVec.ofNat 6 (bestState v.vpm) ∧
      ∀ k, k < v.vcount → ∃ slot r,
        ringSlot v.vring (((v.vw : Int) - v.vcount + k) % (P.depth : Int)).toNat = some slot ∧
        slot[(after (k + 1)).toNat]? = some r ∧ (decidedBits P v)[k]? = some r.bit ∧ after k = r.pred) ∧
  (∀ (P : Params) (es : List (Option FeedStep)) (v : VitState) (fs : List FeedStep), 1 ≤ P.outputBits →
    let u := decoderRun P es State.reset.vit
    (v = u ∧ fs = es.reduceOption) ∨ (∃ f, v = acsStep P f.hasX f.x f.y u ∧ fs = es.reduceOption ++ [f]) →
    ∃ choices : List Bool, choices.length = fs.length ∧ v.vcount ≤ fs.length ∧
      decidedBits P v = (pathInputs (BitVec.ofNat 6 (bestState v.vpm)) choices).drop (fs.length - v.vcount) ∧
      v.vpm[bestState v.vpm]? = some (pathCost P fs.reverse (BitVec.ofNat 6 (bestState v.vpm)) choices)) ∧
  ∀ (P : Params) (fs : List FeedStep) (v : VitState), v.vpm = List.replicate 64 0 → v.vring = [] → v.vw = 0 →
    v.vcount = 0 → fs.length ≤ P.decisionLen + P.outputBits → 0 < P.depth →
    let v' := afterSteps P v fs
    ∃ choices : List Bool, choices.length = fs.length ∧
      decidedBits P v' = pathInputs (BitVec.ofNat 6 (bestState v'.vpm)) choices ∧
      v'.vpm[bestState v'.vpm]? = some (pathCost P fs.reverse (BitVec.ofNat 6 (bestState v'.vpm)) choices)

/-- 45_viterbi R292 as it is worded: from reset, the code pairs of ANY message, fed through VCONS and then
VFLUSH, give exactly the message on VIT_OUT. Expected to fail: with all metrics 0 at reset a message of one
bit already ties with a path of the other bit (log 21). -/
def Obligations.EveryErrorFreeMessageIsReproduced : Prop :=
  ∀ message : List Bool,
    let sent := convEncode theParams 0 message
    let fed := sent.foldl (fun s p => s.trellisStep theParams true p.1 p.2) State.reset
    ((fed.withVit (vitFlush theParams fed.vit)).vitPort.map VitItem.bits).flatten = message

/-! ## SYMBOL -/

/-- 46_control R320: with stage tags that name extracted blocks, the samples of the fill on the port and a
supported configuration, SYMBOL runs EST, FFT, EQ, TPS and DEMUX in order, each ending with OK, sends one
response, and leaves all five tags at the new block. -/
def Obligations.SymbolRunsTheFiveStages : Prop :=
  ∀ (s : State) (zs : List Cplx) (rest : List SampleItem), TagInv s.blk → s.est.halted = false →
    (s.est.eosSeen = false ∨ zs = []) → s.sample = zs.map .sample ++ rest →
    s.est.efill + zs.length = s.bufSize theParams →
    s.cfg.const = 1 → s.cfg.hier = 0 → (s.cfg.rate = 0 ∨ s.cfg.rate = 1) →
    ∃ s1 s2 s3 s4 s5, estBody theParams s = .done .ok s1 ∧ fftBody theParams s1 = (.ok, s2) ∧
      eqBody theParams s2 = (.ok, s3) ∧ tpsBody theParams s3 = (.ok, s4) ∧ demuxBody theParams s4 = (.ok, s5) ∧
      exec .symbol s = .next (s5.respond .ok 0) ∧ s5.respPort = s.respPort ∧
      s5.blk.blkId = s.blk.blkId + 1 ∧ s5.blk.tdId = some (s.blk.blkId + 1) ∧
      s5.blk.fdId = some (s.blk.blkId + 1) ∧ s5.blk.eqId = some (s.blk.blkId + 1) ∧
      s5.blk.tpsId = some (s.blk.blkId + 1) ∧ s5.blk.dmxId = some (s.blk.blkId + 1)

/-- 46_control R320, R330: after a successful EST no stage of SYMBOL is out of order: CNT_SEQ_ERR does not
change and the only codes SYMBOL can then answer are OK, CONFIG_ERROR and CONSISTENCY_ERROR. Where its EST
ends otherwise, SYMBOL answers as EST does and no later stage runs. After a successful EST with an unsupported
configuration SYMBOL answers CONFIG_ERROR in the state of the five bodies in sequence: the transform, the
equalizer and TPS have run on the new block, DEMUX has consumed it, and the feeder and the decoder stay. -/
def Obligations.SymbolStagesAreNeverOutOfOrder : Prop :=
  (∀ (s s1 t : State), TagInv s.blk → estBody theParams s = .done .ok s1 → exec .symbol s = .next t →
    t.cnt.seqErr = s.cnt.seqErr ∧
    ∃ code, t.respPort = s.respPort ++ [(code, 0)] ∧
      (code = .ok ∨ code = .configError ∨ code = .consistencyError)) ∧
  (∀ (s s1 : State) (code : Status), estBody theParams s = .done code s1 → code ≠ .ok →
    exec .symbol s = exec .est s) ∧
  ∀ (s s1 : State), TagInv s.blk → estBody theParams s = .done .ok s1 →
    (s.cfg.const ≠ 1 ∨ s.cfg.hier ≠ 0 ∨ (s.cfg.rate ≠ 0 ∧ s.cfg.rate ≠ 1)) →
    ∃ s2 s3 s4 s5, fftBody theParams s1 = (.ok, s2) ∧ eqBody theParams s2 = (.ok, s3) ∧
      tpsBody theParams s3 = (.ok, s4) ∧ demuxBody theParams s4 = (.configError, s5) ∧
      exec .symbol s = .next (s5.respond .configError 0) ∧ s5.respPort = s.respPort ∧
      s5.dmxPort = s.dmxPort ∧ s5.vitPort = s.vitPort ∧
      s5.tps = s4.tps ∧ s5.tps.pos.val = (s5.tps.idxSym.val + 1) % 68 ∧
      s5.blk = { s4.blk with dmxId := some (s.blk.blkId + 1) } ∧ s4.blk.fdId = some (s.blk.blkId + 1) ∧
      s4.blk.eqId = some (s.blk.blkId + 1) ∧ s4.blk.tpsId = some (s.blk.blkId + 1) ∧
      s5.dmx = s.dmx ∧ s5.vit = s.vit ∧ s5.cnt.configErr = satAdd s.cnt.configErr 1

/-! ## Invariants -/

/-- 10_state R27, R28, 46_control R330: every step keeps the stage tags within the blocks extracted. -/
def Obligations.StepKeepsTheStageTags : Prop :=
  ∀ s t : State, TagInv s.blk → step s = .next t → TagInv t.blk

/-- 10_state R32, 45_viterbi R276, R283: every step keeps the decoder's invariant: the pointers and counts in
range, fewer than D + O undecided steps, and every ring slot of the undecided window written. -/
def Obligations.StepKeepsTheDecoderInvariant : Prop :=
  ∀ s t : State, VitInv theParams s.vit → step s = .next t → VitInv theParams t.vit

/-- 10_state R24, 40_estimator R148: every step keeps the estimator in its ranges: EFILL at most B, NCO in
[0, 2 pi) of NUM's pi (log 2), LAST_ARGMAX and LAST_A in theirs (CONF's range is stated over the reals, log 26). -/
def Obligations.StepKeepsTheEstimatorInvariant : Prop :=
  ∀ s t : State, EstInv theParams s → step s = .next t → EstInv theParams t

/-- 20_memory R71, 10_state R25, R30, R31: every step keeps every tagged array whole (that an array
not yet written is empty is the model's choice, log 6), the tables at their lengths,
ANOMALY_LAST at most K_MAX + 1 and FEED_BUF at most 2 bits. -/
def Obligations.StepKeepsTheArrayInvariant : Prop :=
  ∀ s t : State, ArrayInv theParams s → step s = .next t → ArrayInv theParams t

/-- The invariants hold at reset. -/
def Obligations.InvariantsHoldAtReset : Prop :=
  TagInv State.reset.blk ∧ VitInv theParams State.reset.vit ∧ EstInv theParams State.reset ∧
    ArrayInv theParams State.reset

/-! ## Sums over the reals -/

/-- 40_estimator R133, R135: over the reals (NUM rounding nothing) gamma(m) is
the sum over the window of EBUF[k mod B] conj(EBUF[(k+N) mod B]) and Phi(m) half that of the two energies, and
the next position's are these with the new term added and the old one taken off. -/
def Obligations.WindowSumsAreExactOverTheReals : Prop :=
  ∀ (P : Params) (ebuf : List Cplx) (b len m : Nat), (∀ φ x, P.num.rnd φ x = x) → m < P.n + len →
    let near := fun k => readEntry ebuf (k % b)
    let far := fun k => readEntry ebuf ((k + P.n) % b)
    let re := fun k => (near k).re * (far k).re + (near k).im * (far k).im
    let im := fun k => (near k).im * (far k).re - (near k).re * (far k).im
    let en := fun k => (near k).re ^ 2 + (near k).im ^ 2 + ((far k).re ^ 2 + (far k).im ^ 2)
    let pairs := samplePairs P ebuf b len
    let g := fun m => gamma P ebuf pairs len m
    let f := fun m => phi P ebuf pairs len m
    (g m).re = ((List.range len).map fun k => re (m + k)).sum ∧
    (g m).im = ((List.range len).map fun k => im (m + k)).sum ∧
    f m = 1 / 2 * ((List.range len).map fun k => en (m + k)).sum ∧
    (m + 1 < P.n + len →
      (g (m + 1)).re = (g m).re + re (m + len) - re m ∧ (g (m + 1)).im = (g m).im + im (m + len) - im m ∧
      f (m + 1) = f m + 1 / 2 * (en (m + len) - en m))
end

