-- ==== Sys2Proof/Laws/Instance.lean ====
section
/-! SUPPORT. The parameters of this model's instance (00_scope R6), that it meets the constraints of
00_scope R7, and the facts of its tables that the rules of 20_memory state. -/

namespace Sys2Proof.Machine

/-! ## Parameters -/

@[simp] theorem theParams_n : theParams.n = 2048 := rfl
@[simp] theorem theParams_kMax : theParams.kMax = 1704 := rfl
@[simp] theorem theParams_carrierOffset : theParams.carrierOffset = 1196 := rfl
@[simp] theorem theParams_epsBias : theParams.epsBias = 0 := rfl
@[simp] theorem theParams_trackW : theParams.trackW = 15 := rfl
@[simp] theorem theParams_quantW : theParams.quantW = 2 := rfl
@[simp] theorem theParams_confAlpha : theParams.confAlpha = 1 / 8 := rfl
@[simp] theorem theParams_confThresh : theParams.confThresh = 1 / 2 := rfl
@[simp] theorem theParams_anomalyWarn : theParams.anomalyWarn = 10 := rfl
@[simp] theorem theParams_splitMargin : theParams.splitMargin = 3 := rfl
@[simp] theorem theParams_nMax : theParams.nMax = 1512 := rfl
@[simp] theorem theParams_biBlock : theParams.biBlock = 126 := rfl
@[simp] theorem theParams_syncWord : theParams.syncWord = 0x35EE := rfl
@[simp] theorem theParams_cpList : theParams.cpList = cpList2K := rfl
@[simp] theorem theParams_tpsList : theParams.tpsList = tpsList2K := rfl
theorem theParams_hq : theParams.hq = hq2K := by simp only [theParams, params2K]
@[simp] theorem theParams_biOffsets : theParams.biOffsets = [0, 63, 105, 42, 21, 84] := rfl
@[simp] theorem theParams_demux16 : theParams.demux16 = [0, 2, 1, 3] := rfl
@[simp] theorem theParams_demap16 : theParams.demap16 = demap16Bits := rfl
@[simp] theorem theParams_tpsFields : theParams.tpsFields = tpsFields2K := rfl
@[simp] theorem theParams_g1 : theParams.g1 = 0o171 := rfl
@[simp] theorem theParams_g2 : theParams.g2 = 0o133 := rfl

/-- DECISION_LEN is at least 1 (00_scope R7). -/
theorem theParams_decisionLen_pos : 1 ≤ theParams.decisionLen := Nat.succ_pos _

/-- OUTPUT_BITS is at least 1 (00_scope R7). -/
theorem theParams_outputBits_pos : 1 ≤ theParams.outputBits := Nat.succ_pos _

/-- DEPTH is at least the window. -/
theorem theParams_window_le_depth : theParams.decisionLen + theParams.outputBits ≤ theParams.depth :=
  Nat.le_add_right _ _

/-- The guard lengths of 10_state R23. -/
theorem theParams_guardLen (g : BitVec 2) :
    theParams.guardLen g = if g = 0 then 64 else if g = 1 then 128 else if g = 2 then 256 else 512 := by
  revert g; decide

/-- B is 2N + L. -/
theorem theParams_bufSize (g : BitVec 2) : theParams.bufSize g = 4096 + theParams.guardLen g := rfl

/-- L lies between 64 and 512. -/
theorem theParams_guardLen_range (g : BitVec 2) : 64 ≤ theParams.guardLen g ∧ theParams.guardLen g ≤ 512 := by
  revert g; decide

/-! ## Tables -/

theorem cpList2K_length : cpList2K.length = 45 := by decide
theorem cpList2K_ascending : List.Pairwise (· < ·) cpList2K := by decide +kernel
theorem tpsList2K_length : tpsList2K.length = 17 := by decide
theorem tpsList2K_ascending : List.Pairwise (· < ·) tpsList2K := by decide
theorem hq2K_length : hq2K.length = 1512 := by decide +kernel

/-- HQ is into 0..1511 (20_memory R78). -/
theorem hq2K_lt : ∀ h ∈ hq2K, h < 1512 := by decide +kernel

/-- HQ hits every value of 0..1511 (20_memory R78). -/
theorem hq2K_mask : valueMask hq2K = 2 ^ 1512 - 1 := by decide +kernel

/-- The instance meets every constraint of 00_scope R7. -/
theorem theParams_valid : theParams.valid = true := by decide +kernel

/-- MFAULT is empty at power-on: PRE_INSTANCE does not hold of this instance (10_state R58). -/
theorem instanceFaults_theParams : instanceFaults theParams = State.reset.mfault := by
  simp only [instanceFaults, theParams_valid, if_true]; rfl

end Sys2Proof.Machine
end

