-- ==== Sys2Proof/Laws/State.lean ====
section
/-! SUPPORT. What each update of the state does to each field, and what it does to each output port. -/

namespace Sys2Proof.Machine

/-! ## Fields -/

/-! ### `emit` -/

@[simp] theorem State.emit_cfg (s : State) (item : OutItem) : (s.emit item).cfg = s.cfg := rfl
@[simp] theorem State.emit_est (s : State) (item : OutItem) : (s.emit item).est = s.est := rfl
@[simp] theorem State.emit_blk (s : State) (item : OutItem) : (s.emit item).blk = s.blk := rfl
@[simp] theorem State.emit_tps (s : State) (item : OutItem) : (s.emit item).tps = s.tps := rfl
@[simp] theorem State.emit_dmx (s : State) (item : OutItem) : (s.emit item).dmx = s.dmx := rfl
@[simp] theorem State.emit_vit (s : State) (item : OutItem) : (s.emit item).vit = s.vit := rfl
@[simp] theorem State.emit_cnt (s : State) (item : OutItem) : (s.emit item).cnt = s.cnt := rfl
@[simp] theorem State.emit_cmd (s : State) (item : OutItem) : (s.emit item).cmd = s.cmd := rfl
@[simp] theorem State.emit_sample (s : State) (item : OutItem) : (s.emit item).sample = s.sample := rfl
@[simp] theorem State.emit_out (s : State) (item : OutItem) : (s.emit item).out = s.out ++ [item] := rfl
@[simp] theorem State.emit_mfault (s : State) (item : OutItem) : (s.emit item).mfault = s.mfault := rfl
@[simp] theorem State.emit_hold (s : State) (item : OutItem) : (s.emit item).hold = s.hold := rfl
@[simp] theorem State.emit_draws (s : State) (item : OutItem) : (s.emit item).draws = s.draws := rfl

/-! ### `emitAll` -/

@[simp] theorem State.emitAll_cfg (s : State) (items : List OutItem) : (s.emitAll items).cfg = s.cfg := rfl
@[simp] theorem State.emitAll_est (s : State) (items : List OutItem) : (s.emitAll items).est = s.est := rfl
@[simp] theorem State.emitAll_blk (s : State) (items : List OutItem) : (s.emitAll items).blk = s.blk := rfl
@[simp] theorem State.emitAll_tps (s : State) (items : List OutItem) : (s.emitAll items).tps = s.tps := rfl
@[simp] theorem State.emitAll_dmx (s : State) (items : List OutItem) : (s.emitAll items).dmx = s.dmx := rfl
@[simp] theorem State.emitAll_vit (s : State) (items : List OutItem) : (s.emitAll items).vit = s.vit := rfl
@[simp] theorem State.emitAll_cnt (s : State) (items : List OutItem) : (s.emitAll items).cnt = s.cnt := rfl
@[simp] theorem State.emitAll_cmd (s : State) (items : List OutItem) : (s.emitAll items).cmd = s.cmd := rfl
@[simp] theorem State.emitAll_sample (s : State) (items : List OutItem) : (s.emitAll items).sample = s.sample := rfl
@[simp] theorem State.emitAll_out (s : State) (items : List OutItem) : (s.emitAll items).out = s.out ++ items := rfl
@[simp] theorem State.emitAll_mfault (s : State) (items : List OutItem) : (s.emitAll items).mfault = s.mfault := rfl
@[simp] theorem State.emitAll_hold (s : State) (items : List OutItem) : (s.emitAll items).hold = s.hold := rfl
@[simp] theorem State.emitAll_draws (s : State) (items : List OutItem) : (s.emitAll items).draws = s.draws := rfl

/-! ### `respond` -/

@[simp] theorem State.respond_cfg (s : State) (c : Status) (d : BitVec 64) : (s.respond c d).cfg = s.cfg := rfl
@[simp] theorem State.respond_est (s : State) (c : Status) (d : BitVec 64) : (s.respond c d).est = s.est := rfl
@[simp] theorem State.respond_blk (s : State) (c : Status) (d : BitVec 64) : (s.respond c d).blk = s.blk := rfl
@[simp] theorem State.respond_tps (s : State) (c : Status) (d : BitVec 64) : (s.respond c d).tps = s.tps := rfl
@[simp] theorem State.respond_dmx (s : State) (c : Status) (d : BitVec 64) : (s.respond c d).dmx = s.dmx := rfl
@[simp] theorem State.respond_vit (s : State) (c : Status) (d : BitVec 64) : (s.respond c d).vit = s.vit := rfl
@[simp] theorem State.respond_cnt (s : State) (c : Status) (d : BitVec 64) : (s.respond c d).cnt = s.cnt := rfl
@[simp] theorem State.respond_cmd (s : State) (c : Status) (d : BitVec 64) : (s.respond c d).cmd = s.cmd := rfl
@[simp] theorem State.respond_sample (s : State) (c : Status) (d : BitVec 64) : (s.respond c d).sample = s.sample := rfl
@[simp] theorem State.respond_out (s : State) (c : Status) (d : BitVec 64) : (s.respond c d).out = s.out ++ [.resp c d] := rfl
@[simp] theorem State.respond_mfault (s : State) (c : Status) (d : BitVec 64) : (s.respond c d).mfault = s.mfault := rfl
@[simp] theorem State.respond_hold (s : State) (c : Status) (d : BitVec 64) : (s.respond c d).hold = s.hold := rfl
@[simp] theorem State.respond_draws (s : State) (c : Status) (d : BitVec 64) : (s.respond c d).draws = s.draws := rfl

/-! ### `diag` -/

@[simp] theorem State.diag_cfg (s : State) (c : BitVec 8) (k : Nat) : (s.diag c k).cfg = s.cfg := rfl
@[simp] theorem State.diag_est (s : State) (c : BitVec 8) (k : Nat) : (s.diag c k).est = s.est := rfl
@[simp] theorem State.diag_blk (s : State) (c : BitVec 8) (k : Nat) : (s.diag c k).blk = s.blk := rfl
@[simp] theorem State.diag_tps (s : State) (c : BitVec 8) (k : Nat) : (s.diag c k).tps = s.tps := rfl
@[simp] theorem State.diag_dmx (s : State) (c : BitVec 8) (k : Nat) : (s.diag c k).dmx = s.dmx := rfl
@[simp] theorem State.diag_vit (s : State) (c : BitVec 8) (k : Nat) : (s.diag c k).vit = s.vit := rfl
@[simp] theorem State.diag_cnt (s : State) (c : BitVec 8) (k : Nat) : (s.diag c k).cnt = s.cnt := rfl
@[simp] theorem State.diag_cmd (s : State) (c : BitVec 8) (k : Nat) : (s.diag c k).cmd = s.cmd := rfl
@[simp] theorem State.diag_sample (s : State) (c : BitVec 8) (k : Nat) : (s.diag c k).sample = s.sample := rfl
@[simp] theorem State.diag_out (s : State) (c : BitVec 8) (k : Nat) : (s.diag c k).out = s.out ++ [.diag c (BitVec.ofNat 32 k)] := rfl
@[simp] theorem State.diag_mfault (s : State) (c : BitVec 8) (k : Nat) : (s.diag c k).mfault = s.mfault := rfl
@[simp] theorem State.diag_hold (s : State) (c : BitVec 8) (k : Nat) : (s.diag c k).hold = s.hold := rfl
@[simp] theorem State.diag_draws (s : State) (c : BitVec 8) (k : Nat) : (s.diag c k).draws = s.draws := rfl

/-! ### `count` -/

@[simp] theorem State.count_cfg (s : State) (c : Counter) (k : Nat) : (s.count c k).cfg = s.cfg := rfl
@[simp] theorem State.count_est (s : State) (c : Counter) (k : Nat) : (s.count c k).est = s.est := rfl
@[simp] theorem State.count_blk (s : State) (c : Counter) (k : Nat) : (s.count c k).blk = s.blk := rfl
@[simp] theorem State.count_tps (s : State) (c : Counter) (k : Nat) : (s.count c k).tps = s.tps := rfl
@[simp] theorem State.count_dmx (s : State) (c : Counter) (k : Nat) : (s.count c k).dmx = s.dmx := rfl
@[simp] theorem State.count_vit (s : State) (c : Counter) (k : Nat) : (s.count c k).vit = s.vit := rfl
@[simp] theorem State.count_cnt (s : State) (c : Counter) (k : Nat) : (s.count c k).cnt = s.cnt.add c k := rfl
@[simp] theorem State.count_cmd (s : State) (c : Counter) (k : Nat) : (s.count c k).cmd = s.cmd := rfl
@[simp] theorem State.count_sample (s : State) (c : Counter) (k : Nat) : (s.count c k).sample = s.sample := rfl
@[simp] theorem State.count_out (s : State) (c : Counter) (k : Nat) : (s.count c k).out = s.out := rfl
@[simp] theorem State.count_mfault (s : State) (c : Counter) (k : Nat) : (s.count c k).mfault = s.mfault := rfl
@[simp] theorem State.count_hold (s : State) (c : Counter) (k : Nat) : (s.count c k).hold = s.hold := rfl
@[simp] theorem State.count_draws (s : State) (c : Counter) (k : Nat) : (s.count c k).draws = s.draws := rfl

/-! ### `withVit` -/

@[simp] theorem State.withVit_cfg (s : State) (r : VitResult) : (s.withVit r).cfg = s.cfg := rfl
@[simp] theorem State.withVit_est (s : State) (r : VitResult) : (s.withVit r).est = s.est := rfl
@[simp] theorem State.withVit_blk (s : State) (r : VitResult) : (s.withVit r).blk = s.blk := rfl
@[simp] theorem State.withVit_tps (s : State) (r : VitResult) : (s.withVit r).tps = s.tps := rfl
@[simp] theorem State.withVit_dmx (s : State) (r : VitResult) : (s.withVit r).dmx = s.dmx := rfl
@[simp] theorem State.withVit_vit (s : State) (r : VitResult) : (s.withVit r).vit = r.vit := rfl
@[simp] theorem State.withVit_cnt (s : State) (r : VitResult) : (s.withVit r).cnt = s.cnt.add .vitBits r.bits := rfl
@[simp] theorem State.withVit_cmd (s : State) (r : VitResult) : (s.withVit r).cmd = s.cmd := rfl
@[simp] theorem State.withVit_sample (s : State) (r : VitResult) : (s.withVit r).sample = s.sample := rfl
@[simp] theorem State.withVit_out (s : State) (r : VitResult) : (s.withVit r).out = s.out ++ r.items.map .vit := rfl
@[simp] theorem State.withVit_mfault (s : State) (r : VitResult) : (s.withVit r).mfault = s.mfault := rfl
@[simp] theorem State.withVit_hold (s : State) (r : VitResult) : (s.withVit r).hold = s.hold := rfl
@[simp] theorem State.withVit_draws (s : State) (r : VitResult) : (s.withVit r).draws = s.draws := rfl

/-! ### `pushCommand` -/

@[simp] theorem State.pushCommand_cfg (s : State) (w : Word) : (s.pushCommand w).cfg = s.cfg := rfl
@[simp] theorem State.pushCommand_est (s : State) (w : Word) : (s.pushCommand w).est = s.est := rfl
@[simp] theorem State.pushCommand_blk (s : State) (w : Word) : (s.pushCommand w).blk = s.blk := rfl
@[simp] theorem State.pushCommand_tps (s : State) (w : Word) : (s.pushCommand w).tps = s.tps := rfl
@[simp] theorem State.pushCommand_dmx (s : State) (w : Word) : (s.pushCommand w).dmx = s.dmx := rfl
@[simp] theorem State.pushCommand_vit (s : State) (w : Word) : (s.pushCommand w).vit = s.vit := rfl
@[simp] theorem State.pushCommand_cnt (s : State) (w : Word) : (s.pushCommand w).cnt = s.cnt := rfl
@[simp] theorem State.pushCommand_cmd (s : State) (w : Word) : (s.pushCommand w).cmd = s.cmd ++ [w] := rfl
@[simp] theorem State.pushCommand_sample (s : State) (w : Word) : (s.pushCommand w).sample = s.sample := rfl
@[simp] theorem State.pushCommand_out (s : State) (w : Word) : (s.pushCommand w).out = s.out := rfl
@[simp] theorem State.pushCommand_mfault (s : State) (w : Word) : (s.pushCommand w).mfault = s.mfault := rfl
@[simp] theorem State.pushCommand_hold (s : State) (w : Word) : (s.pushCommand w).hold = s.hold := rfl
@[simp] theorem State.pushCommand_draws (s : State) (w : Word) : (s.pushCommand w).draws = s.draws := rfl

/-! ### `pushSample` -/

@[simp] theorem State.pushSample_cfg (s : State) (x : SampleItem) : (s.pushSample x).cfg = s.cfg := rfl
@[simp] theorem State.pushSample_est (s : State) (x : SampleItem) : (s.pushSample x).est = s.est := rfl
@[simp] theorem State.pushSample_blk (s : State) (x : SampleItem) : (s.pushSample x).blk = s.blk := rfl
@[simp] theorem State.pushSample_tps (s : State) (x : SampleItem) : (s.pushSample x).tps = s.tps := rfl
@[simp] theorem State.pushSample_dmx (s : State) (x : SampleItem) : (s.pushSample x).dmx = s.dmx := rfl
@[simp] theorem State.pushSample_vit (s : State) (x : SampleItem) : (s.pushSample x).vit = s.vit := rfl
@[simp] theorem State.pushSample_cnt (s : State) (x : SampleItem) : (s.pushSample x).cnt = s.cnt := rfl
@[simp] theorem State.pushSample_cmd (s : State) (x : SampleItem) : (s.pushSample x).cmd = s.cmd := rfl
@[simp] theorem State.pushSample_sample (s : State) (x : SampleItem) : (s.pushSample x).sample = s.sample ++ [x] := rfl
@[simp] theorem State.pushSample_out (s : State) (x : SampleItem) : (s.pushSample x).out = s.out := rfl
@[simp] theorem State.pushSample_mfault (s : State) (x : SampleItem) : (s.pushSample x).mfault = s.mfault := rfl
@[simp] theorem State.pushSample_hold (s : State) (x : SampleItem) : (s.pushSample x).hold = s.hold := rfl
@[simp] theorem State.pushSample_draws (s : State) (x : SampleItem) : (s.pushSample x).draws = s.draws := rfl

/-! ### `placeWord` -/

@[simp] theorem placeWord_cfg (s : State) (w : Word) : (placeWord s w).cfg = s.cfg := rfl
@[simp] theorem placeWord_est (s : State) (w : Word) : (placeWord s w).est = s.est := rfl
@[simp] theorem placeWord_blk (s : State) (w : Word) : (placeWord s w).blk = s.blk := rfl
@[simp] theorem placeWord_tps (s : State) (w : Word) : (placeWord s w).tps = s.tps := rfl
@[simp] theorem placeWord_dmx (s : State) (w : Word) : (placeWord s w).dmx = s.dmx := rfl
@[simp] theorem placeWord_vit (s : State) (w : Word) : (placeWord s w).vit = s.vit := rfl
@[simp] theorem placeWord_cnt (s : State) (w : Word) : (placeWord s w).cnt = s.cnt := rfl
@[simp] theorem placeWord_cmd (s : State) (w : Word) : (placeWord s w).cmd = w :: s.cmd := rfl
@[simp] theorem placeWord_sample (s : State) (w : Word) : (placeWord s w).sample = s.sample := rfl
@[simp] theorem placeWord_out (s : State) (w : Word) : (placeWord s w).out = s.out := rfl
@[simp] theorem placeWord_mfault (s : State) (w : Word) : (placeWord s w).mfault = s.mfault := rfl
@[simp] theorem placeWord_hold (s : State) (w : Word) : (placeWord s w).hold = none := rfl
@[simp] theorem placeWord_draws (s : State) (w : Word) : (placeWord s w).draws = s.draws := rfl

/-! ### `resetChannel` -/

@[simp] theorem State.resetChannel_cfg (s : State) : s.resetChannel.cfg = State.reset.cfg := rfl
@[simp] theorem State.resetChannel_est (s : State) : s.resetChannel.est = State.reset.est := rfl
@[simp] theorem State.resetChannel_blk (s : State) : s.resetChannel.blk = State.reset.blk := rfl
@[simp] theorem State.resetChannel_tps (s : State) : s.resetChannel.tps = State.reset.tps := rfl
@[simp] theorem State.resetChannel_dmx (s : State) : s.resetChannel.dmx = State.reset.dmx := rfl
@[simp] theorem State.resetChannel_vit (s : State) : s.resetChannel.vit = State.reset.vit := rfl
@[simp] theorem State.resetChannel_cnt (s : State) : s.resetChannel.cnt = State.reset.cnt := rfl
@[simp] theorem State.resetChannel_cmd (s : State) : s.resetChannel.cmd = s.cmd := rfl
@[simp] theorem State.resetChannel_sample (s : State) : s.resetChannel.sample = s.sample := rfl
@[simp] theorem State.resetChannel_out (s : State) : s.resetChannel.out = s.out := rfl
@[simp] theorem State.resetChannel_mfault (s : State) : s.resetChannel.mfault = s.mfault := rfl
@[simp] theorem State.resetChannel_hold (s : State) : s.resetChannel.hold = State.reset.hold := rfl
@[simp] theorem State.resetChannel_draws (s : State) : s.resetChannel.draws = s.draws := rfl

/-! ## Ports

Each port is a view of `out` alone: two states with the same `out` have the same ports. -/

theorem State.respPort_of_out {s t : State} (h : t.out = s.out) : t.respPort = s.respPort := by
  simp only [State.respPort, h]

theorem State.respPort_append {s t : State} {items : List OutItem} (h : t.out = s.out ++ items) :
    t.respPort = s.respPort ++ State.respPort { s with out := items } := by
  simp only [State.respPort, h, List.filterMap_append]

theorem State.dmxPort_of_out {s t : State} (h : t.out = s.out) : t.dmxPort = s.dmxPort := by
  simp only [State.dmxPort, h]

theorem State.dmxPort_append {s t : State} {items : List OutItem} (h : t.out = s.out ++ items) :
    t.dmxPort = s.dmxPort ++ State.dmxPort { s with out := items } := by
  simp only [State.dmxPort, h, List.filterMap_append]

theorem State.vitPort_of_out {s t : State} (h : t.out = s.out) : t.vitPort = s.vitPort := by
  simp only [State.vitPort, h]

theorem State.vitPort_append {s t : State} {items : List OutItem} (h : t.out = s.out ++ items) :
    t.vitPort = s.vitPort ++ State.vitPort { s with out := items } := by
  simp only [State.vitPort, h, List.filterMap_append]

theorem State.tpsPort_of_out {s t : State} (h : t.out = s.out) : t.tpsPort = s.tpsPort := by
  simp only [State.tpsPort, h]

theorem State.tpsPort_append {s t : State} {items : List OutItem} (h : t.out = s.out ++ items) :
    t.tpsPort = s.tpsPort ++ State.tpsPort { s with out := items } := by
  simp only [State.tpsPort, h, List.filterMap_append]

@[simp] theorem State.respond_respPort (s : State) (c : Status) (d : BitVec 64) : (s.respond c d).respPort = s.respPort ++ [(c, d)] := by
  simp [State.respPort]

@[simp] theorem State.diag_respPort (s : State) (c : BitVec 8) (k : Nat) : (s.diag c k).respPort = s.respPort := by
  simp [State.respPort]

@[simp] theorem State.count_respPort (s : State) (c : Counter) (k : Nat) : (s.count c k).respPort = s.respPort := by
  rfl

@[simp] theorem State.resetChannel_respPort (s : State) : (s.resetChannel).respPort = s.respPort := by
  rfl

@[simp] theorem State.withVit_respPort (s : State) (r : VitResult) : (s.withVit r).respPort = s.respPort := by
  simp [State.respPort, List.filterMap_map]

@[simp] theorem State.respond_dmxPort (s : State) (c : Status) (d : BitVec 64) : (s.respond c d).dmxPort = s.dmxPort := by
  simp [State.dmxPort]

@[simp] theorem State.diag_dmxPort (s : State) (c : BitVec 8) (k : Nat) : (s.diag c k).dmxPort = s.dmxPort := by
  simp [State.dmxPort]

@[simp] theorem State.count_dmxPort (s : State) (c : Counter) (k : Nat) : (s.count c k).dmxPort = s.dmxPort := by
  rfl

@[simp] theorem State.resetChannel_dmxPort (s : State) : (s.resetChannel).dmxPort = s.dmxPort := by
  rfl

@[simp] theorem State.withVit_dmxPort (s : State) (r : VitResult) : (s.withVit r).dmxPort = s.dmxPort := by
  simp [State.dmxPort, List.filterMap_map]

@[simp] theorem State.respond_vitPort (s : State) (c : Status) (d : BitVec 64) : (s.respond c d).vitPort = s.vitPort := by
  simp [State.vitPort]

@[simp] theorem State.diag_vitPort (s : State) (c : BitVec 8) (k : Nat) : (s.diag c k).vitPort = s.vitPort := by
  simp [State.vitPort]

@[simp] theorem State.count_vitPort (s : State) (c : Counter) (k : Nat) : (s.count c k).vitPort = s.vitPort := by
  rfl

@[simp] theorem State.resetChannel_vitPort (s : State) : (s.resetChannel).vitPort = s.vitPort := by
  rfl

@[simp] theorem State.withVit_vitPort (s : State) (r : VitResult) : (s.withVit r).vitPort = s.vitPort ++ r.items := by
  simp [State.vitPort, List.filterMap_map]

@[simp] theorem State.respond_tpsPort (s : State) (c : Status) (d : BitVec 64) : (s.respond c d).tpsPort = s.tpsPort := by
  simp [State.tpsPort]

@[simp] theorem State.diag_tpsPort (s : State) (c : BitVec 8) (k : Nat) : (s.diag c k).tpsPort = s.tpsPort := by
  simp [State.tpsPort]

@[simp] theorem State.count_tpsPort (s : State) (c : Counter) (k : Nat) : (s.count c k).tpsPort = s.tpsPort := by
  rfl

@[simp] theorem State.resetChannel_tpsPort (s : State) : (s.resetChannel).tpsPort = s.tpsPort := by
  rfl

@[simp] theorem State.withVit_tpsPort (s : State) (r : VitResult) : (s.withVit r).tpsPort = s.tpsPort := by
  simp [State.tpsPort, List.filterMap_map]

end Sys2Proof.Machine
end

