-- ==== Sys2Proof/Laws/Ops.lean ====
section
/-! SUPPORT. What each shared operation can do, said once: counters, conditions, the sample port and the
fill, arrays, the trellis ring and the byte packer. -/

namespace Sys2Proof.Machine

/-! ## Counters (10_state R34) -/

theorem satAdd_toNat (c : BitVec 32) (k : Nat) : (satAdd c k).toNat = min (c.toNat + k) (2 ^ 32 - 1) := by
  simp only [satAdd, BitVec.toNat_ofNat]
  exact Nat.mod_eq_of_lt (by omega)

@[simp] theorem satAdd_zero (c : BitVec 32) : satAdd c 0 = c := by
  apply BitVec.eq_of_toNat_eq
  have := c.isLt
  rw [satAdd_toNat]
  omega

/-- Two increments are one of their sum. -/
@[simp] theorem satAdd_satAdd (c : BitVec 32) (a b : Nat) : satAdd (satAdd c a) b = satAdd c (a + b) := by
  apply BitVec.eq_of_toNat_eq
  simp only [satAdd_toNat]
  omega

/-- An increment by one stops at the top. -/
theorem satAdd_one (c : BitVec 32) : satAdd c 1 = if c = 0xFFFFFFFF then 0xFFFFFFFF else c + 1 := by
  apply BitVec.eq_of_toNat_eq
  have := c.isLt
  rw [satAdd_toNat]
  split
  · subst c; rfl
  · have h : c.toNat ≠ 0xFFFFFFFF := fun h => ‹¬ c = 0xFFFFFFFF› (BitVec.eq_of_toNat_eq h)
    rw [BitVec.toNat_add, show (1 : BitVec 32).toNat = 1 from rfl]
    omega

theorem Counters.get_add_self (c : Counters) (name : Counter) (k : Nat) :
    (c.add name k).get name = satAdd (c.get name) k := by
  cases name <;> rfl

theorem Counters.get_add_ne (c : Counters) {name other : Counter} (k : Nat) (h : other ≠ name) :
    (c.add name k).get other = c.get other := by
  cases name <;> cases other <;> first | rfl | exact absurd rfl h

/-! ## Conditions (60_exceptions R351 to R357) -/

@[simp] theorem raiseCondition_fst (c : Condition) (s : State) : (raiseCondition c s).1 = c.status := rfl
@[simp] theorem raiseCondition_snd (c : Condition) (s : State) : (raiseCondition c s).2 = c.effect s := rfl

/-- A condition changes at most HALTED, one counter and DIAG. -/
theorem Condition.effect_cases (c : Condition) (s : State) :
    ∃ halted cnt items, c.effect s = { s with
        est := { s.est with halted := s.est.halted || halted }, cnt := cnt, out := s.out ++ items } ∧
      (halted = true → ∃ got, c = .shortRead got) ∧
      ∀ it ∈ items, ∃ code arg, it = OutItem.diag code arg := by
  cases c with
  | illegalCmd => exact ⟨false, s.cnt.add .illegal 1, [], by simp [Condition.effect, State.count], by simp, by simp⟩
  | seqError => exact ⟨false, s.cnt.add .seqErr 1, [], by simp [Condition.effect, State.count], by simp, by simp⟩
  | halted => exact ⟨false, s.cnt, [], by simp [Condition.effect], by simp, by simp⟩
  | shortRead got =>
    exact ⟨true, s.cnt, [.diag 0x07 (BitVec.ofNat 32 got)],
      by simp [Condition.effect, State.diag, State.emit], fun _ => ⟨got, rfl⟩, by simp⟩
  | endOfStream =>
    exact ⟨false, s.cnt, [.diag 0x09 (BitVec.ofNat 32 0)],
      by simp [Condition.effect, State.diag, State.emit], by simp, by simp⟩
  | configError arg =>
    exact ⟨false, _, [.diag 0x06 (BitVec.ofNat 32 arg)],
      by simp [Condition.effect, State.diag, State.emit, State.count]; rfl, by simp, by simp⟩
  | consistencyError =>
    exact ⟨false, _, [.diag 0x05 (BitVec.ofNat 32 2)],
      by simp [Condition.effect, State.diag, State.emit, State.count]; rfl, by simp, by simp⟩

/-! ## The sample port and the fill (10_state R52, 40_estimator R131) -/

theorem pullSample_empty {s : State} (h : s.est.eosSeen = false) (hs : s.sample = []) :
    pullSample s = .empty := by
  simp [pullSample, h, hs]

theorem pullSample_sample {s : State} {z : Cplx} {rest : List SampleItem} (h : s.est.eosSeen = false)
    (hs : s.sample = .sample z :: rest) : pullSample s = .item z { s with sample := rest } := by
  simp [pullSample, h, hs]

theorem pullSample_eos {s : State} {rest : List SampleItem} (h : s.est.eosSeen = false)
    (hs : s.sample = .eos :: rest) :
    pullSample s = .ended { s with sample := rest, est := { s.est with eosSeen := true } } := by
  simp [pullSample, h, hs]

theorem pullSample_ended {s : State} (h : s.est.eosSeen = true) : pullSample s = .ended s := by
  simp [pullSample, h]

/-- The state after `zs` were taken into the buffer, `rest` being left on the port. -/
def State.filled (s : State) (zs : List Cplx) (rest : List SampleItem) : State :=
  { s with est := { s.est with ebuf := s.est.ebuf ++ zs }, sample := rest }

theorem State.filled_nil {s : State} {rest : List SampleItem} (h : s.sample = rest) : s.filled [] rest = s := by
  subst h; simp [State.filled]

/-- Taking samples that stand on the port. -/
theorem fillLoop_samples (zs : List Cplx) : ∀ (missing got : Nat) (s : State) (rest : List SampleItem),
    s.est.eosSeen = false → s.sample = zs.map .sample ++ rest → zs.length ≤ missing →
    fillLoop missing got s = fillLoop (missing - zs.length) (got + zs.length) (s.filled zs rest) := by
  induction zs with
  | nil => intro missing got s rest _ hs _; rw [State.filled_nil (by simpa using hs)]; rfl
  | cons z zs ih =>
    intro missing got s rest he hs hl
    obtain ⟨m, rfl⟩ : ∃ m, missing = m + 1 := ⟨missing - 1, by simp at hl; omega⟩
    rw [fillLoop, pullSample_sample he (by simpa using hs)]
    simp only
    rw [ih m (got + 1) _ rest (by simpa using he) (by simp) (by simpa using hl)]
    simp only [State.filled, List.append_assoc, List.singleton_append, List.length_cons]
    congr 1 <;> omega

/-- A fill whose samples all stand on the port. -/
theorem fillLoop_full {s : State} {zs : List Cplx} {rest : List SampleItem} {missing got : Nat}
    (he : s.est.eosSeen = false ∨ zs = []) (hs : s.sample = zs.map .sample ++ rest)
    (hl : zs.length = missing) : fillLoop missing got s = .full (s.filled zs rest) := by
  rcases he with he | rfl
  · rw [fillLoop_samples zs missing got s rest he hs (by omega), hl, Nat.sub_self]; rfl
  · subst hl; rw [State.filled_nil (by simpa using hs)]; rfl

/-- A fill that runs out of items waits. -/
theorem fillLoop_held {s : State} {zs : List Cplx} {missing got : Nat}
    (he : s.est.eosSeen = false) (hs : s.sample = zs.map .sample) (hl : zs.length < missing) :
    fillLoop missing got s = .held (got + zs.length) (s.filled zs []) := by
  rw [fillLoop_samples zs missing got s [] he (by simpa using hs) (by omega)]
  obtain ⟨m, hm⟩ : ∃ m, missing - zs.length = m + 1 := ⟨missing - zs.length - 1, by omega⟩
  rw [hm, fillLoop, pullSample_empty (by simpa [State.filled] using he) (by simp [State.filled])]

/-- A fill that meets EOS ends there. -/
theorem fillLoop_eos {s : State} {zs : List Cplx} {rest : List SampleItem} {missing got : Nat}
    (he : s.est.eosSeen = false) (hs : s.sample = zs.map .sample ++ .eos :: rest)
    (hl : zs.length < missing) :
    fillLoop missing got s =
      if got + zs.length = 0 then
        .ended { s.filled zs rest with est := { (s.filled zs rest).est with eosSeen := true } }
      else
        .short (got + zs.length)
          { s.filled zs rest with est := { (s.filled zs rest).est with eosSeen := true } } := by
  rw [fillLoop_samples zs missing got s (.eos :: rest) he hs (by omega)]
  obtain ⟨m, hm⟩ : ∃ m, missing - zs.length = m + 1 := ⟨missing - zs.length - 1, by omega⟩
  rw [hm, fillLoop, pullSample_eos (rest := rest) (by simpa [State.filled] using he) (by simp [State.filled])]
  rfl

/-- Every port is a run of samples that ends or goes on with EOS. -/
theorem samples_prefix (l : List SampleItem) :
    ∃ zs : List Cplx, l = zs.map .sample ∨ ∃ rest, l = zs.map .sample ++ .eos :: rest := by
  induction l with
  | nil => exact ⟨[], .inl rfl⟩
  | cons x xs ih =>
    cases x with
    | eos => exact ⟨[], .inr ⟨xs, rfl⟩⟩
    | sample z =>
      obtain ⟨zs, h | ⟨rest, h⟩⟩ := ih
      · exact ⟨z :: zs, .inl (by simp [h])⟩
      · exact ⟨z :: zs, .inr ⟨rest, by simp [h]⟩⟩

/-- Everything a fill can do: it takes samples `zs` into the buffer and ends full, held, or at the end of
the stream. -/
theorem fillLoop_cases (missing got : Nat) (s : State) :
    (∃ zs rest, zs.length = missing ∧ (s.est.eosSeen = false ∨ zs = []) ∧ s.sample = zs.map .sample ++ rest ∧
      fillLoop missing got s = .full (s.filled zs rest)) ∨
    (∃ zs, zs.length < missing ∧ s.est.eosSeen = false ∧ s.sample = zs.map .sample ∧
      fillLoop missing got s = .held (got + zs.length) (s.filled zs [])) ∨
    (∃ zs rest, zs.length < missing ∧ (s.est.eosSeen = false ∨ zs = [] ∧ rest = s.sample) ∧
      ((got + zs.length = 0 ∧ fillLoop missing got s = .ended
          { s.filled zs rest with est := { (s.filled zs rest).est with eosSeen := true } }) ∨
       (0 < got + zs.length ∧ fillLoop missing got s = .short (got + zs.length)
          { s.filled zs rest with est := { (s.filled zs rest).est with eosSeen := true } }))) := by
  by_cases he : s.est.eosSeen = false
  · obtain ⟨zs, h⟩ := samples_prefix s.sample
    by_cases hl : missing ≤ zs.length
    · left
      rcases h with h | ⟨rest, h⟩
      · exact ⟨zs.take missing, (zs.drop missing).map .sample, by simpa using hl, .inl he,
          by rw [← List.map_append, List.take_append_drop, h],
          fillLoop_full (.inl he) (by rw [← List.map_append, List.take_append_drop, h]) (by simpa using hl)⟩
      · have h' : s.sample =
            (zs.take missing).map .sample ++ ((zs.drop missing).map .sample ++ .eos :: rest) := by
          rw [← List.append_assoc, ← List.map_append, List.take_append_drop, h]
        exact ⟨zs.take missing, _, by simpa using hl, .inl he, h',
          fillLoop_full (.inl he) h' (by simpa using hl)⟩
    · right
      rcases h with h | ⟨rest, h⟩
      · exact .inl ⟨zs, by omega, he, h, fillLoop_held he h (by omega)⟩
      · refine .inr ⟨zs, rest, by omega, .inl he, ?_⟩
        rw [fillLoop_eos he h (by omega)]
        by_cases h0 : got + zs.length = 0
        · exact .inl ⟨h0, by simp only [h0, if_true]⟩
        · exact .inr ⟨by omega, by simp only [h0, if_false]⟩
  · have he : s.est.eosSeen = true := by simpa using he
    have hs : { s.filled [] s.sample with est := { (s.filled [] s.sample).est with eosSeen := true } } = s := by
      rw [State.filled_nil rfl, ← he]
    cases missing with
    | zero => exact .inl ⟨[], s.sample, rfl, .inr rfl, rfl, by rw [State.filled_nil rfl]; rfl⟩
    | succ m =>
      refine .inr (.inr ⟨[], s.sample, by simp, .inr ⟨rfl, rfl⟩, ?_⟩)
      rw [hs, fillLoop, pullSample_ended he]
      by_cases h0 : got = 0
      · exact .inl ⟨by simpa using h0, by simp [h0]⟩
      · exact .inr ⟨by simp; omega, by simp [h0]⟩

/-! ## Arrays -/

@[simp] theorem scatter_length {α : Type} (idx : List Nat) : ∀ (init vals : List α),
    (scatter init idx vals).length = init.length := by
  induction idx with
  | nil => intro init vals; simp [scatter]
  | cons i idx ih =>
    intro init vals
    cases vals with
    | nil => rfl
    | cons v vals => simp [scatter, ih]

/-- An entry no index names stays. -/
theorem scatter_getElem?_of_not_mem {α : Type} (idx : List Nat) : ∀ (init vals : List α) (k : Nat), k ∉ idx →
    (scatter init idx vals)[k]? = init[k]? := by
  induction idx with
  | nil => intro init vals k _; simp [scatter]
  | cons i idx ih =>
    intro init vals k hk
    cases vals with
    | nil => rfl
    | cons v vals =>
      simp only [List.mem_cons, not_or] at hk
      rw [scatter, ih _ _ _ hk.2, List.getElem?_set_ne (fun h => hk.1 h.symm)]

/-- With distinct indices in range, entry `idx[j]` gets `vals[j]`. -/
theorem scatter_getElem? {α : Type} (idx : List Nat) : ∀ (init vals : List α) (j k : Nat) (v : α),
    idx.Nodup → (∀ i ∈ idx, i < init.length) → idx[j]? = some k → vals[j]? = some v →
    (scatter init idx vals)[k]? = some v := by
  induction idx with
  | nil => intro init vals j k v _ _ hj; simp at hj
  | cons i idx ih =>
    intro init vals j k v hn hr hj hv
    cases vals with
    | nil => simp at hv
    | cons w vals =>
      rw [List.nodup_cons] at hn
      cases j with
      | zero =>
        simp only [List.getElem?_cons_zero, Option.some.injEq] at hj hv
        subst hj hv
        rw [scatter, scatter_getElem?_of_not_mem _ _ _ _ hn.1,
          List.getElem?_set_self (hr _ (by simp))]
      | succ j =>
        rw [scatter]
        exact ih _ _ j k v hn.2 (fun a ha => by simpa using hr a (by simp [ha])) (by simpa using hj)
          (by simpa using hv)

/-! ## The trellis ring (10_state R32) -/

@[simp] theorem ringSlot_ringWrite_self (r : List (Nat × List VitRecord)) (i : Nat) (slot : List VitRecord) :
    ringSlot (ringWrite r i slot) i = some slot := by
  induction r with
  | nil => simp [ringWrite, ringSlot]
  | cons a r ih =>
    obtain ⟨j, old⟩ := a
    simp only [ringWrite]
    split
    · simp [ringSlot]
    · split
      · simp [ringSlot]
      · simp [ringSlot, *]

theorem ringSlot_ringWrite_ne (r : List (Nat × List VitRecord)) {i k : Nat} (slot : List VitRecord)
    (h : k ≠ i) : ringSlot (ringWrite r i slot) k = ringSlot r k := by
  induction r with
  | nil => simp [ringWrite, ringSlot, h]
  | cons a r ih =>
    obtain ⟨j, old⟩ := a
    simp only [ringWrite]
    split
    · simp [ringSlot, h]
    · split
      · rename_i h2; subst h2; simp [ringSlot, h]
      · simp [ringSlot, ih]

theorem ringWrite_keys (r : List (Nat × List VitRecord)) (i : Nat) (slot : List VitRecord) (k : Nat) :
    k ∈ (ringWrite r i slot).map Prod.fst → k = i ∨ k ∈ r.map Prod.fst := by
  induction r with
  | nil => simp [ringWrite]
  | cons a r ih =>
    obtain ⟨j, old⟩ := a
    simp only [ringWrite]
    split
    · simp
    · split
      · simp only [List.map_cons, List.mem_cons]; rintro (h | h) <;> simp [h]
      · simp only [List.map_cons, List.mem_cons]
        rintro (h | h)
        · simp [h]
        · rcases ih h with h | h <;> simp [h]

/-- A ring write keeps the canonical form. -/
theorem ringWf_ringWrite {r : List (Nat × List VitRecord)} (h : ringWf r = true) (i : Nat)
    (slot : List VitRecord) : ringWf (ringWrite r i slot) = true := by
  simp only [ringWf, decide_eq_true_eq] at h ⊢
  induction r with
  | nil => simp [ringWrite]
  | cons a r ih =>
    obtain ⟨j, old⟩ := a
    simp only [List.map_cons, List.pairwise_cons] at h
    simp only [ringWrite]
    split
    · rename_i hij
      simp only [List.map_cons, List.pairwise_cons, List.mem_cons]
      refine ⟨?_, h.1, h.2⟩
      rintro k (rfl | hk)
      · exact hij
      · exact hij.trans (h.1 k hk)
    · split
      · rename_i hij; subst hij
        simpa only [List.map_cons, List.pairwise_cons] using h
      · simp only [List.map_cons, List.pairwise_cons]
        refine ⟨fun k hk => ?_, ih h.2⟩
        rcases ringWrite_keys r i slot k hk with rfl | hk
        · omega
        · exact h.1 k hk

/-! ## Bytes (20_memory R72) -/

/-- The bits of a byte packed from eight bits. -/
theorem byteOfBits_eight : ∀ (a b c d e f g h : Bool) (i : Fin 8),
    (byteOfBits [a, b, c, d, e, f, g, h]).getLsbD (7 - i.val) = [a, b, c, d, e, f, g, h].getD i.val false := by
  decide +kernel

/-- The bits of a packed byte, first bit in bit 7, zeros below. -/
theorem byteOfBits_getLsbD (bits : List Bool) (i : Nat) (h : bits.length ≤ 8) (hi : i < 8) :
    (byteOfBits bits).getLsbD (7 - i) = bits.getD i false := by
  have hp : byteOfBits bits = byteOfBits (bits ++ List.replicate (8 - bits.length) false) := by
    unfold byteOfBits
    have : (bits ++ List.replicate (8 - bits.length) false).length = 8 := by simp; omega
    rw [this]; simp
  have hg : (bits ++ List.replicate (8 - bits.length) false).getD i false = bits.getD i false := by
    simp only [List.getD_eq_getElem?_getD, List.getElem?_append]
    split
    · rfl
    · rename_i hlt
      rw [List.getElem?_eq_none (by omega : bits.length ≤ i), List.getElem?_replicate]
      split <;> rfl
  rw [hp, ← hg]
  match hm : bits ++ List.replicate (8 - bits.length) false with
  | [a, b, c, d, e, f, g, h'] => exact byteOfBits_eight a b c d e f g h' ⟨i, hi⟩
  | [] | [_] | [_, _] | [_, _, _] | [_, _, _, _] | [_, _, _, _, _] | [_, _, _, _, _, _]
  | [_, _, _, _, _, _, _] | _ :: _ :: _ :: _ :: _ :: _ :: _ :: _ :: _ :: _ =>
    have hl := congrArg List.length hm
    simp only [List.length_append, List.length_replicate, List.length_cons, List.length_nil] at hl
    omega

end Sys2Proof.Machine
end

