-- ==== Sys2Proof/Laws/Viterbi.lean ====
section
/-! SUPPORT. What each operation of the Viterbi decoder does: the trellis step, the bytes of `pushBits`, the
traceback and the feeder (45_viterbi R272 to R295). -/

namespace Sys2Proof.Machine

/-! ## The trellis step (45_viterbi R272) -/

@[simp] theorem allStates_length : allStates.length = 64 := rfl

@[simp] theorem survivors_length (P : Params) (hasX x y : Bool) (vpm : List Nat) :
    (survivors P hasX x y vpm).length = 64 := by
  simp [survivors]

theorem survivors_getElem? (P : Params) (hasX x y : Bool) (vpm : List Nat) (s : BitVec 6) :
    (survivors P hasX x y vpm)[s.toNat]? = some (survivor P hasX x y vpm s) := by
  have h : s.toNat < 64 := s.isLt
  simp [survivors, allStates, nStates, h]

/-- The survivor's metric is the smaller candidate. -/
theorem survivor_pm (P : Params) (hasX x y : Bool) (vpm : List Nat) (s : BitVec 6) :
    (survivor P hasX x y vpm s).pm = min (candidate P hasX x y vpm s false) (candidate P hasX x y vpm s true) := by
  simp only [survivor]
  split
  · rename_i h; simp at h; omega
  · rename_i h; simp at h; omega

/-- The survivor's metric is the candidate of the branch it records. -/
theorem survivor_branch (P : Params) (hasX x y : Bool) (vpm : List Nat) (s : BitVec 6) :
    ∃ b, (survivor P hasX x y vpm s).pred = predState s b ∧ (survivor P hasX x y vpm s).bit = inputBit s ∧
      (survivor P hasX x y vpm s).pm = candidate P hasX x y vpm s b := by
  refine ⟨!decide (candidate P hasX x y vpm s false ≤ candidate P hasX x y vpm s true), rfl, rfl, ?_⟩
  simp only [survivor]
  split
  · rename_i h; rw [h]
  · rename_i h; rw [Bool.not_eq_true] at h; rw [h]

theorem branchMetric_le (P : Params) (hasX x y : Bool) (s : BitVec 6) (b : Bool) :
    branchMetric P hasX x y s b ≤ 2 := by
  have h : ∀ c : Bool, c.toNat ≤ 1 := by decide
  have h1 := h (expectedX P s b ^^ x)
  have h2 := h (expectedY P s b ^^ y)
  unfold branchMetric
  split <;> omega

@[simp] theorem acsStep_vpm (P : Params) (hasX x y : Bool) (v : VitState) :
    (acsStep P hasX x y v).vpm = (survivors P hasX x y v.vpm).map VitRecord.pm := rfl
@[simp] theorem acsStep_vring (P : Params) (hasX x y : Bool) (v : VitState) :
    (acsStep P hasX x y v).vring = ringWrite v.vring v.vw (survivors P hasX x y v.vpm) := rfl
@[simp] theorem acsStep_vw (P : Params) (hasX x y : Bool) (v : VitState) :
    (acsStep P hasX x y v).vw = (v.vw + 1) % P.depth := rfl
@[simp] theorem acsStep_vcount (P : Params) (hasX x y : Bool) (v : VitState) :
    (acsStep P hasX x y v).vcount = v.vcount + 1 := rfl
@[simp] theorem acsStep_vbest (P : Params) (hasX x y : Bool) (v : VitState) :
    (acsStep P hasX x y v).vbest = v.vbest := rfl
@[simp] theorem acsStep_vob (P : Params) (hasX x y : Bool) (v : VitState) :
    (acsStep P hasX x y v).vob = v.vob := rfl

theorem acsStep_vpm_getElem? (P : Params) (hasX x y : Bool) (v : VitState) (s : BitVec 6) :
    (acsStep P hasX x y v).vpm[s.toNat]? =
      some (min (candidate P hasX x y v.vpm s false) (candidate P hasX x y v.vpm s true)) := by
  rw [acsStep_vpm, List.getElem?_map, survivors_getElem?, Option.map_some, survivor_pm]

/-! ## Output bits (45_viterbi R285, R290) -/

/-- The bits an item made of at most eight bits carries are those bits. -/
theorem bits_of_packed (bits : List Bool) (h : bits.length ≤ 8) :
    VitItem.bits ⟨byteOfBits bits, bits.length⟩ = bits := by
  apply List.ext_getElem?
  intro i
  simp only [VitItem.bits, List.getElem?_map]
  by_cases hi : i < bits.length
  · rw [List.getElem?_range hi, Option.map_some, byteOfBits_getLsbD bits i h (by omega),
      List.getD_eq_getElem?_getD, List.getElem?_eq_getElem hi, Option.getD_some]
  · rw [List.getElem?_eq_none (by simpa using hi), List.getElem?_eq_none (by omega), Option.map_none]

/-- Everything `pushBits` does: whole bytes go out in order, fewer than eight bits stay. -/
theorem pushBits_spec (bits : List Bool) : ∀ vob : List Bool,
    ((pushBits vob bits).2.map VitItem.bits).flatten ++ (pushBits vob bits).1 = vob ++ bits ∧
    (∀ it ∈ (pushBits vob bits).2, it.nbits = 8) ∧
    (vob.length < 8 → (pushBits vob bits).1.length < 8) := by
  induction bits with
  | nil => intro vob; simp [pushBits]
  | cons b bits ih =>
    intro vob
    simp only [pushBits]
    split
    · rename_i h
      obtain ⟨h1, h2, h3⟩ := ih []
      have hb := bits_of_packed (vob ++ [b]) (by omega)
      rw [h] at hb
      refine ⟨?_, ?_, fun _ => h3 (by simp)⟩
      · simp only [List.map_cons, List.flatten_cons, List.append_assoc, hb, h1]
        simp
      · simpa using h2
    · rename_i h
      obtain ⟨h1, h2, h3⟩ := ih (vob ++ [b])
      exact ⟨by rw [h1]; simp, h2, fun hl => h3 (by simp at h ⊢; omega)⟩

/-! ## Traceback (45_viterbi R280) -/

@[simp] theorem traceWalk_length (P : Params) (v : VitState) : ∀ (k : Nat) (s : BitVec 6) (newer : List Bool),
    (traceWalk P v k s newer).length = k + newer.length := by
  intro k
  induction k with
  | zero => intro s newer; simp [traceWalk]
  | succ k ih => intro s newer; simp only [traceWalk, ih, List.length_cons]; omega

@[simp] theorem decidedBits_length (P : Params) (v : VitState) : (decidedBits P v).length = v.vcount := by
  simp [decidedBits]

/-- What a traceback of `k` bits leaves. -/
theorem traceback_spec (P : Params) (k : Nat) (v : VitState) :
    (traceback P k v).vit = { v with
      vbest := v.vpm.getD (bestState v.vpm) 0, vcount := v.vcount - k, vob := (traceback P k v).vit.vob } ∧
    ((traceback P k v).items.map VitItem.bits).flatten ++ (traceback P k v).vit.vob =
      v.vob ++ (decidedBits P v).take k ∧
    (∀ it ∈ (traceback P k v).items, it.nbits = 8) ∧
    (v.vob.length < 8 → (traceback P k v).vit.vob.length < 8) ∧ (traceback P k v).bits = k :=
  ⟨rfl, (pushBits_spec _ _).1, (pushBits_spec _ _).2.1, (pushBits_spec _ _).2.2, rfl⟩

/-- The slot of an undecided step does not move when a step is added (45_viterbi R283). -/
theorem undecidedSlot_acsStep (P : Params) (hasX x y : Bool) (v : VitState) (k : Nat) :
    undecidedSlot P (acsStep P hasX x y v) k = undecidedSlot P v k := by
  unfold undecidedSlot
  rw [acsStep_vw, acsStep_vcount]
  congr 1
  push_cast
  rw [show ((v.vw : Int) + 1) % (P.depth : Int) - (v.vcount + 1) + k =
      ((v.vw : Int) + 1) % (P.depth : Int) + (k - v.vcount - 1) by ring,
    show (v.vw : Int) - v.vcount + k = (v.vw : Int) + 1 + (k - v.vcount - 1) by ring, Int.emod_add_emod]

/-- The newest undecided step is in the slot just written. -/
theorem undecidedSlot_newest (P : Params) (v : VitState) (h : v.vw < P.depth) :
    undecidedSlot P v v.vcount = v.vw := by
  unfold undecidedSlot
  rw [show (v.vw : Int) - v.vcount + v.vcount = v.vw by ring, Int.emod_eq_of_lt (by omega) (by omega)]
  simp

/-- Everything the walk does: started in state `s` after step `n - 1`, it takes of each step `k` the record of the
state after it, whose bit is bit `k` of the result and whose predecessor is the state before it; the newer bits
follow. -/
theorem traceWalk_spec (P : Params) (v : VitState) : ∀ (n : Nat) (s : BitVec 6) (newer : List Bool),
    ∃ after : Nat → BitVec 6, after n = s ∧
      (∀ k, k < n →
        (traceWalk P v n s newer)[k]? = some (ringRead v.vring (undecidedSlot P v k) (after (k + 1))).bit ∧
        after k = (ringRead v.vring (undecidedSlot P v k) (after (k + 1))).pred) ∧
      ∀ k, (traceWalk P v n s newer)[n + k]? = newer[k]? := by
  intro n
  induction n with
  | zero => intro s newer; exact ⟨fun _ => s, rfl, by simp, by simp [traceWalk]⟩
  | succ n ih =>
    intro s newer
    obtain ⟨after, h0, h1, h2⟩ := ih (ringRead v.vring (undecidedSlot P v n) s).pred
      ((ringRead v.vring (undecidedSlot P v n) s).bit :: newer)
    refine ⟨Function.update after (n + 1) s, by simp, ?_, ?_⟩
    · intro k hk
      simp only [traceWalk]
      rcases Nat.lt_or_ge k n with hlt | hge
      · rw [Function.update_of_ne (by omega), Function.update_of_ne (by omega)]
        exact h1 k hlt
      · obtain rfl : k = n := by omega
        rw [Function.update_self, Function.update_of_ne (by omega)]
        exact ⟨by simpa using h2 0, h0⟩
    · intro k
      simp only [traceWalk]
      rw [show n + 1 + k = n + (k + 1) by omega, h2 (k + 1), List.getElem?_cons_succ]

/-- The window of undecided steps stays written through an add-compare-select, and takes in the new step. -/
theorem acsStep_window {P : Params} {v : VitState} (h : VitInv P v) (hasX x y : Bool) (k : Nat)
    (hk : k < (acsStep P hasX x y v).vcount) :
    ∃ slot, ringSlot (acsStep P hasX x y v).vring (undecidedSlot P (acsStep P hasX x y v) k) = some slot ∧
      slot.length = 64 := by
  rw [undecidedSlot_acsStep, acsStep_vring]
  by_cases hs : undecidedSlot P v k = v.vw
  · rw [hs]; exact ⟨_, ringSlot_ringWrite_self _ _ _, by simp⟩
  · rw [ringSlot_ringWrite_ne _ _ hs]
    rw [acsStep_vcount] at hk
    refine h.window k ?_
    rcases Nat.lt_or_ge k v.vcount with hlt | hge
    · exact hlt
    · obtain rfl : k = v.vcount := by omega
      exact absurd (undecidedSlot_newest P v h.writePointer) hs

/-! ## The feeder (45_viterbi R295) -/

theorem cutHalf_leftover (z : List Bool) : (cutHalf z).2.length ≤ 1 := by
  fun_induction cutHalf z with
  | case1 x1 y1 rest ih => exact ih
  | case2 rest h =>
    match rest, h with
    | [], _ => simp
    | [_], _ => simp
    | a :: b :: r, h => exact absurd rfl (h a b r)

theorem cutTwoThirds_leftover (z : List Bool) : (cutTwoThirds z).2.length ≤ 2 := by
  fun_induction cutTwoThirds z with
  | case1 x1 y1 y2 rest ih => exact ih
  | case2 rest h =>
    match rest, h with
    | [], _ => simp
    | [_], _ => simp
    | [_, _], _ => simp
    | a :: b :: c :: r, h => exact absurd rfl (h a b c r)

theorem cutBits_leftover (rate : BitVec 3) (z : List Bool) : (cutBits rate z).2.length ≤ 2 := by
  unfold cutBits
  split
  · exact (cutHalf_leftover z).trans (by omega)
  · exact cutTwoThirds_leftover z

/-- A run of trellis steps changes the decoder, its outputs and CNT_VIT_BITS, as one run of the decoder. -/
theorem trellisSteps_eq (P : Params) (fs : List FeedStep) : ∀ s : State,
    fs.foldl (fun t f => t.trellisStep P f.hasX f.x f.y) s = s.withVit (feedRun P fs s.vit) := by
  induction fs with
  | nil => intro s; simp [feedRun, State.withVit, State.emitAll, State.count, Counters.add]
  | cons f fs ih =>
    intro s
    rw [List.foldl_cons, ih]
    simp [feedRun, State.trellisStep, State.withVit, State.emitAll, State.count, Counters.add]

/-- The decoder after a run of steps. -/
theorem feedRun_vit (P : Params) (fs : List FeedStep) : ∀ v : VitState,
    (feedRun P fs v).vit = fs.foldl (fun v f => (vitStep P f.hasX f.x f.y v).vit) v := by
  induction fs with
  | nil => intro v; rfl
  | cons f fs ih => intro v; rw [List.foldl_cons, ← ih]; rfl

end Sys2Proof.Machine
end

