-- ==== Sys2Proof/Laws/Demux.lean ====
section
/-! SUPPORT. What each operation of DEMUX does: the walk, the permutation tables, the accounting and the
output (44_demux R233 to R250). -/

namespace Sys2Proof.Machine

/-! ## The walk (44_demux R233) -/

theorem walkFrom_length (sym : Nat) : ∀ (left c : Nat) (cps tpss : List Nat),
    (walkFrom sym left c cps tpss).1.length = left := by
  intro left
  induction left with
  | zero => intro c cps tpss; rfl
  | succ left ih => intro c cps tpss; simp [walkFrom, ih]

@[simp] theorem walkClasses_length (P : Params) (sym : Nat) : (walkClasses P sym).1.length = P.kMax + 1 :=
  walkFrom_length _ _ _ _ _

/-- The walk sees its symbol only modulo 4 (44_demux R236). -/
theorem isScattered_mod (sym c : Nat) : isScattered (sym % 4) c = isScattered sym c := by
  simp [isScattered]

theorem walkFrom_mod (sym : Nat) : ∀ (left c : Nat) (cps tpss : List Nat),
    walkFrom (sym % 4) left c cps tpss = walkFrom sym left c cps tpss := by
  intro left
  induction left with
  | zero => intro c cps tpss; rfl
  | succ left ih => intro c cps tpss; simp only [walkFrom, isScattered_mod, ih]

theorem walkClasses_mod (P : Params) (sym : Nat) : walkClasses P (sym % 4) = walkClasses P sym :=
  walkFrom_mod _ _ _ _ _

/-- No more anomalies than carriers. -/
theorem walk_anomalies_le (P : Params) (eqb : List Cplx) (sym : Nat) :
    (walk P eqb sym).anomalies ≤ P.kMax + 1 := by
  refine (List.length_filter_le _ _).trans ?_
  simp

/-- Moving a pointer past the entries below `c` of an ascending list: `c` is then at its head iff it is in the
list, and no later entry is lost. -/
theorem skipBelow_spec (c : Nat) : ∀ l : List Nat, List.Pairwise (· < ·) l →
    List.Pairwise (· < ·) (skipBelow c l).2 ∧ ((skipBelow c l).2.head? = some c ↔ c ∈ l) ∧
      ∀ x, c ≤ x → (x ∈ (skipBelow c l).2 ↔ x ∈ l) := by
  intro l
  induction l with
  | nil => intro _; simp [skipBelow]
  | cons y ys ih =>
    intro h
    obtain ⟨h1, h2⟩ := List.pairwise_cons.mp h
    unfold skipBelow
    split
    · obtain ⟨i1, i2, i3⟩ := ih h2
      refine ⟨i1, i2.trans ?_, fun x hx => (i3 x hx).trans ?_⟩
      · rw [List.mem_cons, or_iff_right (by omega)]
      · rw [List.mem_cons, or_iff_right (by omega)]
    · refine ⟨h, ?_, fun x _ => Iff.rfl⟩
      simp only [List.head?_cons, Option.some.injEq, List.mem_cons]
      constructor
      · rintro rfl; exact .inl rfl
      · rintro (rfl | hm)
        · rfl
        · have := h1 c hm; omega

/-- Moving past `c` itself, where it is at the head. -/
theorem tail_spec {c : Nat} {l : List Nat} (h : List.Pairwise (· < ·) l) :
    let l' := if l.head? = some c then l.tail else l
    List.Pairwise (· < ·) l' ∧ ∀ x, c + 1 ≤ x → (x ∈ l' ↔ x ∈ l) := by
  cases l with
  | nil => simp
  | cons y ys =>
    intro l'
    simp only [List.head?_cons, Option.some.injEq, l']
    split
    · refine ⟨(List.pairwise_cons.mp h).2, fun x hx => ?_⟩
      rw [List.tail_cons, List.mem_cons, or_iff_right (by omega)]
    · exact ⟨h, fun x _ => Iff.rfl⟩

/-- With ascending lists the walk gives every carrier the first class that applies (44_demux R233, R234). -/
theorem walkFrom_classes (sym : Nat) : ∀ (left c : Nat) (cps tpss : List Nat),
    List.Pairwise (· < ·) cps → List.Pairwise (· < ·) tpss →
    (walkFrom sym left c cps tpss).1 = (List.range' c left).map fun k =>
      if k ∈ cps then .continual else if k ∈ tpss then .tps
      else if isScattered sym k then .scattered else .data := by
  intro left
  induction left with
  | zero => intro c cps tpss _ _; rfl
  | succ left ih =>
    intro c cps tpss hc ht
    obtain ⟨a1, a2, a3⟩ := skipBelow_spec c cps hc
    obtain ⟨b1, b2, b3⟩ := skipBelow_spec c tpss ht
    obtain ⟨a4, a5⟩ := tail_spec (c := c) a1
    obtain ⟨b4, b5⟩ := tail_spec (c := c) b1
    have hb : ∀ p : Prop, [Decidable p] → let l' :=
        if p ∧ (skipBelow c tpss).2.head? = some c then (skipBelow c tpss).2.tail else (skipBelow c tpss).2
        List.Pairwise (· < ·) l' ∧ ∀ x, c + 1 ≤ x → (x ∈ l' ↔ x ∈ (skipBelow c tpss).2) := by
      intro p _
      by_cases hp : p
      · simpa only [hp, true_and] using ⟨b4, b5⟩
      · simp [hp, b1]
    obtain ⟨b6, b7⟩ := hb ((skipBelow c cps).2.head? ≠ some c)
    rw [walkFrom, List.range'_succ, List.map_cons]
    simp only
    rw [ih _ _ _ a4 b6]
    simp only [a2, b2]
    congr 1
    apply List.map_congr_left
    intro k hk
    have hk' : c + 1 ≤ k := (List.mem_range'_1.mp hk).1
    have e1 := (a5 k hk').trans (a3 k (by omega))
    have e2 := (b7 k hk').trans (b3 k (by omega))
    simp only [a2, b2] at e1 e2
    simp only [e1, e2]

/-- The walk passes no list entry without matching it: the 2K lists are disjoint (20_memory R76). -/
theorem walkFrom_missed : (walkFrom 0 1705 0 (storedList cpList2K) (storedList tpsList2K)).2 = 0 := by
  decide +kernel


/-- The walk over the 2K lists gives every carrier its class and passes no entry without matching it
(44_demux R233 to R236). -/
theorem walkClasses_eq (sym : Nat) :
    walkClasses theParams sym = ((List.range 1705).map (carrierClass theParams sym), 0) := by
  have hl : ∀ l : List Nat, List.Pairwise (· < ·) l → (∀ x ∈ l, x < 1705) →
      List.Pairwise (· < ·) (storedList l) ∧ ∀ k, k < 1705 → (k ∈ storedList l ↔ k ∈ l) := by
    intro l h1 h2
    constructor
    · rw [storedList, List.pairwise_append]
      refine ⟨h1, List.pairwise_singleton _ _, fun a ha b hb => ?_⟩
      rw [List.mem_singleton.mp hb]
      exact (h2 a ha).trans (by decide)
    · intro k hk
      rw [storedList, List.mem_append, List.mem_singleton, or_iff_left]
      rintro rfl
      exact absurd hk (by decide)
  obtain ⟨c1, c2⟩ := hl cpList2K cpList2K_ascending (by decide +kernel)
  obtain ⟨t1, t2⟩ := hl tpsList2K tpsList2K_ascending (by decide)
  have hs : ∀ k, isScattered sym k = decide (k % 12 = 3 * (sym % 4)) := by
    intro k
    have := Nat.mod_lt sym (by omega : 0 < 4)
    unfold isScattered
    exact decide_eq_decide.mpr (by omega)
  have hm : ∀ (left c : Nat) (cps tpss : List Nat),
      (walkFrom sym left c cps tpss).2 = (walkFrom 0 left c cps tpss).2 := by
    intro left
    induction left with
    | zero => intro c cps tpss; rfl
    | succ left ih => intro c cps tpss; simp only [walkFrom, ih]
  have e : walkClasses theParams sym = walkFrom sym 1705 0 (storedList cpList2K) (storedList tpsList2K) := by
    rw [walkClasses, theParams_kMax, theParams_cpList, theParams_tpsList]
  have h1 := walkFrom_classes sym 1705 0 _ _ c1 t1
  have h2 := (hm 1705 0 _ _).trans walkFrom_missed
  rw [e]
  generalize walkFrom sym 1705 0 (storedList cpList2K) (storedList tpsList2K) = r at h1 h2
  obtain ⟨classes, missed⟩ := r
  simp only at h1 h2
  rw [h1, h2, ← List.range_eq_range']
  refine congrArg (fun l => (l, 0)) ?_
  apply List.map_congr_left
  intro k hk
  have hk' := List.mem_range.mp hk
  simp only [carrierClass, theParams_cpList, theParams_tpsList, c2 k hk', t2 k hk', hs, decide_eq_true_eq]
  by_cases a : k ∈ cpList2K <;> by_cases b : k ∈ tpsList2K <;> by_cases d : k % 12 = 3 * (sym % 4) <;>
    simp only [a, b, d, if_true, if_false]

theorem sabs_le (x tol : Scalar) : sabs x ≤ tol ↔ -tol ≤ x ∧ x ≤ tol := by
  unfold sabs
  split <;> constructor <;> intro h <;> first | constructor <;> linarith | linarith

/-- The pilot check as the rule words it (44_demux R237). -/
theorem pilotOk_eq (P : Params) (e : Cplx) (b : Bool) : pilotOk P e b =
    (decide (0 < (1 - 2 * (b.toNat : Rat)) * e.re) && nearMagnitude P e (4 / 3)) := by
  unfold pilotOk nearMagnitude
  congr 1
  · cases b
    · simp [signed]
    · simp [signed]; norm_num
  · exact decide_eq_decide.mpr (sabs_le _ _)

/-- The TPS carrier check as the rule words it (44_demux R238). -/
theorem tpsOk_eq (P : Params) (e : Cplx) : tpsOk P e = nearMagnitude P e 1 :=
  decide_eq_decide.mpr (sabs_le _ _)

theorem isAnomaly_eq (P : Params) (sym c : Nat) (e : Cplx) :
    isAnomaly P (carrierClass P sym c) c e = carrierAnomaly P sym c e := by
  unfold isAnomaly carrierAnomaly
  simp only [pilotOk_eq, tpsOk_eq, refNegative]
  split <;> simp [*]

theorem mapIdx_range {α β : Type} (f : Nat → α) (g : Nat → α → β) (n : Nat) :
    ((List.range n).map f).mapIdx g = (List.range n).map fun c => g c (f c) := by
  apply List.ext_getElem?
  intro k
  by_cases h : k < n <;> simp [h]

/-- The whole walk in terms of the carriers' classes. -/
theorem walk_eq (eqb : List Cplx) (sym : Nat) :
    walk theParams eqb sym = ⟨dataCells theParams eqb sym, anomalyCount theParams eqb sym, 0⟩ := by
  simp only [walk, walkClasses_eq, mapIdx_range, List.filter_map, List.map_map, List.length_map, Function.comp_def,
    isAnomaly_eq, dataCells, anomalyCount, theParams_kMax]

/-! ## The permutations (20_memory R78, R79) -/

/-- The rotation of a bit plane stays in its block, so in range. -/
theorem rotatedIndex_lt (e w : Nat) (h : w < 1512) : rotatedIndex theParams e w < 1512 := by
  simp only [rotatedIndex, theParams, params2K]
  have := Nat.mod_lt (w % 126 + [0, 63, 105, 42, 21, 84].getD e 0) (by omega : 0 < 126)
  omega

/-- The rotation of a bit plane is injective. -/
theorem rotatedIndex_injective (e w w' : Nat)
    (he : rotatedIndex theParams e w = rotatedIndex theParams e w') : w = w' := by
  simp only [rotatedIndex, theParams, params2K] at he
  generalize [0, 63, 105, 42, 21, 84].getD e 0 = o at he
  omega

@[simp] theorem symbolDeinterleave_length (cells : List Cell) (sym : Nat) :
    (symbolDeinterleave theParams cells sym).length = 1512 := by
  unfold symbolDeinterleave
  split
  · rw [List.length_map, theParams_hq, hq2K_length]
  · rw [scatter_length, List.length_replicate]; rfl

/-! ## Accounting and output (44_demux R248, R250) -/

@[simp] theorem State.missedPilots_zero (s : State) : s.missedPilots 0 = s := rfl

/-- What `qualityAccount` does: it records, sums and, above ANOMALY_WARN, warns. -/
theorem State.qualityAccount_eq (P : Params) (s : State) (k : Nat) :
    ∃ items, (∀ it ∈ items, ∃ c a, it = OutItem.diag c a) ∧
      s.qualityAccount P k = { s with
        dmx := { s.dmx with anomalyLast := k }
        cnt := { s.cnt with
          anomalyTotal := satAdd s.cnt.anomalyTotal k
          qualityWarn := satAdd s.cnt.qualityWarn (if P.anomalyWarn < k then 1 else 0) }
        out := s.out ++ items } := by
  simp only [State.qualityAccount]
  split
  · exact ⟨_, by simp, rfl⟩
  · exact ⟨[], by simp, by simp [State.count, Counters.add]⟩

/-- What `feed` does: the steps of the cut run in order, the leftover stays. -/
theorem State.feed_eq (P : Params) (x : List Bool) (s : State) :
    let cut := cutBits s.cfg.rate (s.dmx.feedBuf ++ x)
    let run := feedRun P cut.1 s.vit
    s.feed P x = { s with
      vit := run.vit
      dmx := { s.dmx with feedBuf := cut.2 }
      out := s.out ++ run.items.map .vit
      cnt := { s.cnt with vitBits := satAdd s.cnt.vitBits run.bits } } := by
  simp only [State.feed, trellisSteps_eq]
  rfl

/-- What `emitAndFeed` does: the symbol's bytes go out, CNT_DMX_OUT counts, the feeder runs. -/
theorem State.emitAndFeed_eq (P : Params) (x : List Bool) (s : State) :
    let cut := cutBits s.cfg.rate (s.dmx.feedBuf ++ x)
    let run := feedRun P cut.1 s.vit
    s.emitAndFeed P x = { s with
      vit := run.vit
      dmx := { s.dmx with feedBuf := cut.2 }
      out := s.out ++ (packBits x).map .dmx ++ run.items.map .vit
      cnt := { s.cnt with
        dmxOut := satAdd s.cnt.dmxOut 1, vitBits := satAdd s.cnt.vitBits run.bits } } :=
  State.feed_eq P x ((s.emitAll ((packBits x).map .dmx)).count .dmxOut 1)

end Sys2Proof.Machine
end

