-- ==== Sys2Proof/Laws/Encoding.lean ====
section
/-! SUPPORT. What the field extractions of 30_encoding R90 give on a packed word, and the index maps of the
registers. -/

namespace Sys2Proof

/-- Bit `i` of a packed word. -/
theorem packWord_getLsbD (op : BitVec 8) (x : BitVec 24) (i : Nat) :
    (packWord op x).getLsbD i = if i < 24 then x.getLsbD i else op.getLsbD (i - 24) :=
  BitVec.getLsbD_append (x := op) (y := x) (i := i)

@[simp] theorem opcodeField_packWord (op : BitVec 8) (x : BitVec 24) : opcodeField (packWord op x) = op := by
  ext i hi
  simp [opcodeField, packWord_getLsbD, hi]

@[simp] theorem operandField_packWord (op : BitVec 8) (x : BitVec 24) : operandField (packWord op x) = x := by
  ext i hi
  simp [operandField, packWord_getLsbD, hi]

/-- A word is its opcode and its operand field. -/
theorem packWord_fields (w : Word) : packWord (opcodeField w) (operandField w) = w := by
  apply BitVec.eq_of_getLsbD_eq
  intro i hi
  rw [packWord_getLsbD]
  simp only [opcodeField, operandField, BitVec.getLsbD_extractLsb']
  split
  · simp [*]
  · have h : i - 24 < 8 := by omega
    simp [h]
    congr 1
    omega

/-- A field of the operand field is the same field of the word. -/
theorem extractLsb'_packWord (op : BitVec 8) (x : BitVec 24) (start len : Nat) (h : start + len ≤ 24) :
    (packWord op x).extractLsb' start len = x.extractLsb' start len := by
  ext i hi
  simp only [BitVec.getElem_extractLsb', packWord_getLsbD]
  rw [if_pos (by omega)]

/-- Bit `i` of the operand field of format W. -/
theorem operandW_getLsbD (reg : BitVec 8) (val : BitVec 16) (i : Nat) :
    (reg ++ val : BitVec 24).getLsbD i = if i < 16 then val.getLsbD i else reg.getLsbD (i - 16) :=
  BitVec.getLsbD_append (x := reg) (y := val) (i := i)

/-- Bit `i` of the operand field of format R. -/
theorem operandR_getLsbD (idx : BitVec 8) (i : Nat) :
    ((0 : BitVec 16) ++ idx : BitVec 24).getLsbD i = if i < 8 then idx.getLsbD i else false :=
  (BitVec.getLsbD_append (x := (0 : BitVec 16)) (y := idx) (i := i)).trans (by split <;> simp)

theorem CfgReg.ofIndex_index (r : CfgReg) : CfgReg.ofIndex r.index = some r := by cases r <;> rfl

theorem CfgReg.index_of_ofIndex {k : Nat} {r : CfgReg} (h : CfgReg.ofIndex k = some r) : r.index = k := by
  revert h; unfold CfgReg.ofIndex; split <;> simp <;> rintro rfl <;> rfl

theorem Counter.ofOffset_offset (c : Counter) : Counter.ofOffset c.offset = some c := by cases c <;> rfl

theorem Counter.offset_of_ofOffset {k : Nat} {c : Counter} (h : Counter.ofOffset k = some c) :
    c.offset = k := by
  revert h; unfold Counter.ofOffset; split <;> simp <;> rintro rfl <;> rfl

theorem StatReg.ofIndex_index (r : StatReg) : StatReg.ofIndex r.index = some r := by
  cases r with
  | cfg r => cases r <;> rfl
  | counter c => cases c <;> rfl
  | _ => rfl

theorem StatReg.index_of_ofIndex {k : Nat} {r : StatReg} (h : StatReg.ofIndex k = some r) :
    r.index = k := by
  revert h
  unfold StatReg.ofIndex
  split
  all_goals try (simp; rintro rfl; rfl)
  split
  · simp only [Option.map_eq_some_iff]
    rintro ⟨c, hc, rfl⟩
    have := Counter.offset_of_ofOffset hc
    simp only [StatReg.index]
    omega
  · simp

end Sys2Proof
end

