-- ==== Sys2Proof/Laws/Numeric.lean ====
section
/-! SUPPORT. The results that every NUM delivers exactly (log 1), those of a NUM that rounds nothing, the binary64
rounding and the phase reductions. -/

namespace Sys2Proof.Machine

/-! ## Formulas -/

/-- Where the rule says the result whatever NUM is, that is the result. -/
theorem deliver_known (A : NumParam) (φ : Formula) {known : Bool} (h : known = true) (x : Scalar) :
    deliver A φ known x = x := if_pos h

/-- A NUM that rounds nothing delivers every formula's value over the reals. -/
theorem deliver_exact (A : NumParam) (h : ∀ φ x, A.rnd φ x = x) (φ : Formula) (known : Bool) (x : Scalar) :
    deliver A φ known x = x := by
  unfold deliver; split
  · rfl
  · exact h φ x

@[simp] theorem nsqrt_zero (A : NumParam) : nsqrt A 0 = 0 := if_pos rfl
@[simp] theorem cmul_zero_left (z : Cplx) : cmul Cplx.zero z = Cplx.zero := by simp [cmul, Cplx.zero]
@[simp] theorem cmul_zero_right (z : Cplx) : cmul z Cplx.zero = Cplx.zero := by simp [cmul, Cplx.zero]
@[simp] theorem conj_zero : conj Cplx.zero = Cplx.zero := by simp [conj, Cplx.zero]
@[simp] theorem normSq_zero : normSq Cplx.zero = 0 := by simp [normSq, Cplx.zero]
@[simp] theorem cabs_zero (A : NumParam) : cabs A Cplx.zero = 0 := by simp [cabs]

/-! ## Sums -/

/-- The slide of a window by one position, over the reals (40_estimator R135). -/
theorem window_slide (ts : List Scalar) (len m : Nat) :
    ((ts.drop m).take len).sum + ts.getD (m + len) 0 - ts.getD m 0 = ((ts.drop (m + 1)).take len).sum := by
  have h1 : ((ts.drop m).take (len + 1)).sum = ((ts.drop m).take len).sum + ts.getD (m + len) 0 := by
    rw [List.take_add_one, List.sum_append, List.getElem?_drop, List.getD_eq_getElem?_getD]
    cases ts[m + len]? <;> simp
  have h2 : ((ts.drop m).take (len + 1)).sum = ts.getD m 0 + ((ts.drop (m + 1)).take len).sum := by
    by_cases hm : m < ts.length
    · rw [List.drop_eq_getElem_cons hm, List.take_succ_cons, List.sum_cons, List.getD_eq_getElem _ _ hm]
    · rw [List.drop_eq_nil_of_le (by omega), List.drop_eq_nil_of_le (by omega),
        List.getD_eq_default _ _ (by omega)]
      simp
  linarith

/-! ## Binary64 interchange -/

/-- The rounded integer is within 1/2, and even where it is 1/2 away. -/
theorem roundHalfEven_spec (x : Rat) :
    |x - roundHalfEven x| ≤ 1 / 2 ∧ (|x - roundHalfEven x| = 1 / 2 → roundHalfEven x % 2 = 0) := by
  have h1 : ((x.floor : Int) : Rat) ≤ x := Int.floor_le x
  have h2 : x < ((x.floor : Int) : Rat) + 1 := Int.lt_floor_add_one x
  simp only [roundHalfEven]
  split
  · rw [abs_of_nonneg (by linarith)]
    exact ⟨by linarith, fun h => by linarith⟩
  · split
    · push_cast
      rw [abs_of_nonpos (by linarith)]
      exact ⟨by linarith, fun h => by linarith⟩
    · have hd : x - (x.floor : Rat) = 1 / 2 := by linarith
      split
      · rw [hd]; norm_num; omega
      · push_cast
        rw [show x - ((x.floor : Rat) + 1) = -(1 / 2) by linarith]
        norm_num
        omega

/-- `pow2` is the power of 2. -/
theorem pow2_eq (e : Int) : pow2 e = (2 : Rat) ^ e := by
  unfold pow2
  split
  · lift e to Nat using ‹0 ≤ e›; simp
  · obtain ⟨k, hk⟩ : ∃ k : Nat, e = -(k : Int) := ⟨(-e).toNat, by omega⟩
    subst hk; simp

/-- The exponent of a positive number. -/
theorem exponentOf_spec {x : Rat} (hx : 0 < x) : pow2 (exponentOf x) ≤ x ∧ x < pow2 (exponentOf x + 1) := by
  have hn : 0 < x.num := Rat.num_pos.mpr hx
  have hd := x.den_pos
  have n1 := Nat.log2_self_le (n := x.num.natAbs) (by omega)
  have n2 := Nat.lt_log2_self (n := x.num.natAbs)
  have d1 := Nat.log2_self_le (n := x.den) (by omega)
  have d2 := Nat.lt_log2_self (n := x.den)
  have hq : x = (x.num.natAbs : Rat) / x.den := by
    conv_lhs => rw [← Rat.num_div_den x]
    congr 1
    rw [Nat.cast_natAbs, abs_of_pos hn]
  set a := x.num.natAbs.log2
  set b := x.den.log2
  have hD : (0 : Rat) < x.den := by exact_mod_cast hd
  have n1' : (2 : Rat) ^ a ≤ x.num.natAbs := by exact_mod_cast n1
  have n2' : (x.num.natAbs : Rat) < 2 ^ (a + 1) := by exact_mod_cast n2
  have d1' : (2 : Rat) ^ b ≤ x.den := by exact_mod_cast d1
  have d2' : (x.den : Rat) < 2 ^ (b + 1) := by exact_mod_cast d2
  have up : x < (2 : Rat) ^ ((a : Int) - b + 1) := by
    have e : (2 : Rat) ^ ((a : Int) - b + 1) * 2 ^ b = 2 ^ (a + 1) := by
      rw [← zpow_natCast, ← zpow_natCast, ← zpow_add₀ (by norm_num)]; congr 1; push_cast; ring
    rw [hq, div_lt_iff₀ hD]
    calc (x.num.natAbs : Rat) < 2 ^ (a + 1) := n2'
      _ = (2 : Rat) ^ ((a : Int) - b + 1) * 2 ^ b := e.symm
      _ ≤ _ := by gcongr
  have low : (2 : Rat) ^ ((a : Int) - b - 1) ≤ x := by
    have e : (2 : Rat) ^ ((a : Int) - b - 1) * 2 ^ (b + 1) = 2 ^ a := by
      rw [← zpow_natCast, ← zpow_natCast, ← zpow_add₀ (by norm_num)]; congr 1; push_cast; ring
    rw [hq, le_div_iff₀ hD]
    calc (2 : Rat) ^ ((a : Int) - b - 1) * x.den ≤ (2 : Rat) ^ ((a : Int) - b - 1) * 2 ^ (b + 1) := by gcongr
      _ = 2 ^ a := e
      _ ≤ _ := n1'
  simp only [exponentOf, pow2_eq]
  split
  · exact ⟨‹_›, up⟩
  · refine ⟨low, ?_⟩
    rw [sub_add_cancel]
    exact not_le.mp ‹_›

/-! ## Phases -/

theorem pi_pos (A : NumParam) : 0 < A.pi.val := by
  unfold PosRat.val; positivity

theorem twoPi_pos (A : NumParam) : 0 < twoPi A := by
  have := pi_pos A; unfold twoPi; linarith

/-- `mod 2 pi` is in [0, 2 pi). -/
theorem modTwoPi_range (A : NumParam) (t : Scalar) : 0 ≤ modTwoPi A t ∧ modTwoPi A t < twoPi A := by
  have hp := twoPi_pos A
  have h1 : ((t / twoPi A).floor : Rat) ≤ t / twoPi A := Int.floor_le (t / twoPi A)
  have h2 : t / twoPi A < ((t / twoPi A).floor : Rat) + 1 := Int.lt_floor_add_one (t / twoPi A)
  have h3 : twoPi A * (t / twoPi A) = t := mul_div_cancel₀ t hp.ne'
  unfold modTwoPi
  constructor
  · nlinarith
  · nlinarith

/-- `wrap` is in (-pi, pi]. -/
theorem wrap_range (A : NumParam) (t : Scalar) : -A.pi.val < wrap A t ∧ wrap A t ≤ A.pi.val := by
  have hp := twoPi_pos A
  have h1 : (t - A.pi.val) / twoPi A ≤ (((t - A.pi.val) / twoPi A).ceil : Rat) := Rat.le_ceil
  have h2 : (((t - A.pi.val) / twoPi A).ceil : Rat) < (t - A.pi.val) / twoPi A + 1 := Rat.ceil_lt
  have h3 : twoPi A * ((t - A.pi.val) / twoPi A) = t - A.pi.val := mul_div_cancel₀ _ hp.ne'
  have h4 : twoPi A = 2 * A.pi.val := rfl
  unfold wrap
  constructor <;> nlinarith

end Sys2Proof.Machine
end

