-- ==== Sys2Proof/Laws/Tps.lean ====
section
/-! SUPPORT. What the TPS step does to each field of the decoder's state (43_tps R204 to R211), and the bits
of its registers. -/

namespace Sys2Proof.Machine

/-! ## Fields after the bit is received -/

@[simp] theorem tpsReceive_pos (P : Params) (now : List Cplx) (b : Bool) (t : TpsState) :
    (tpsReceive P now b t).pos = t.pos := rfl
@[simp] theorem tpsReceive_prev (P : Params) (now : List Cplx) (b : Bool) (t : TpsState) :
    (tpsReceive P now b t).prev = now := rfl
@[simp] theorem tpsReceive_shift (P : Params) (now : List Cplx) (b : Bool) (t : TpsState) :
    (tpsReceive P now b t).shift = shiftIn t.shift b := rfl
@[simp] theorem tpsReceive_payload (P : Params) (now : List Cplx) (b : Bool) (t : TpsState) :
    (tpsReceive P now b t).payload = setPayloadBit t.payload (currentPos P t b).val b := rfl
@[simp] theorem tpsReceive_sync (P : Params) (now : List Cplx) (b : Bool) (t : TpsState) :
    (tpsReceive P now b t).sync = (t.sync || syncMatch P (shiftIn t.shift b)) := rfl
@[simp] theorem tpsReceive_frame (P : Params) (now : List Cplx) (b : Bool) (t : TpsState) :
    (tpsReceive P now b t).frame = t.frame := rfl
@[simp] theorem tpsReceive_idxSym (P : Params) (now : List Cplx) (b : Bool) (t : TpsState) :
    (tpsReceive P now b t).idxSym = currentPos P t b := rfl
@[simp] theorem tpsReceive_idxFrame (P : Params) (now : List Cplx) (b : Bool) (t : TpsState) :
    (tpsReceive P now b t).idxFrame = t.frame := rfl
@[simp] theorem tpsReceive_outValid (P : Params) (now : List Cplx) (b : Bool) (t : TpsState) :
    (tpsReceive P now b t).outValid = (t.outValid || ((t.sync || syncMatch P (shiftIn t.shift b)) &&
      decide (currentPos P t b = 0) && decide (t.frame = 0))) := rfl
@[simp] theorem tpsReceive_lastEvent (P : Params) (now : List Cplx) (b : Bool) (t : TpsState) :
    (tpsReceive P now b t).lastEvent = t.lastEvent := rfl
@[simp] theorem tpsReceive_eventSeen (P : Params) (now : List Cplx) (b : Bool) (t : TpsState) :
    (tpsReceive P now b t).eventSeen = t.eventSeen := rfl

/-! ## Fields after the position advances -/

theorem tpsAdvance_pos (P : Params) (cur : Fin 68) (t : TpsState) :
    (tpsAdvance P cur t).pos.val = (cur.val + 1) % 68 := by
  unfold tpsAdvance
  split
  · rename_i h; rw [h]; split <;> rfl
  · simp [Fin.val_add]

theorem tpsAdvance_shift (P : Params) (cur : Fin 68) (t : TpsState) : (tpsAdvance P cur t).shift = t.shift := by
  unfold tpsAdvance; split
  · dsimp only; split <;> rfl
  · rfl
theorem tpsAdvance_payload (P : Params) (cur : Fin 68) (t : TpsState) :
    (tpsAdvance P cur t).payload = t.payload := by
  unfold tpsAdvance; split
  · dsimp only; split <;> rfl
  · rfl
theorem tpsAdvance_prev (P : Params) (cur : Fin 68) (t : TpsState) : (tpsAdvance P cur t).prev = t.prev := by
  unfold tpsAdvance; split
  · dsimp only; split <;> rfl
  · rfl
theorem tpsAdvance_sync (P : Params) (cur : Fin 68) (t : TpsState) : (tpsAdvance P cur t).sync = t.sync := by
  unfold tpsAdvance; split
  · dsimp only; split <;> rfl
  · rfl
theorem tpsAdvance_idxSym (P : Params) (cur : Fin 68) (t : TpsState) :
    (tpsAdvance P cur t).idxSym = t.idxSym := by
  unfold tpsAdvance; split
  · dsimp only; split <;> rfl
  · rfl
theorem tpsAdvance_idxFrame (P : Params) (cur : Fin 68) (t : TpsState) :
    (tpsAdvance P cur t).idxFrame = t.idxFrame := by
  unfold tpsAdvance; split
  · dsimp only; split <;> rfl
  · rfl
theorem tpsAdvance_outValid (P : Params) (cur : Fin 68) (t : TpsState) :
    (tpsAdvance P cur t).outValid = t.outValid := by
  unfold tpsAdvance; split
  · dsimp only; split <;> rfl
  · rfl
theorem tpsAdvance_eventSeen (P : Params) (cur : Fin 68) (t : TpsState) :
    (tpsAdvance P cur t).eventSeen = (t.eventSeen || emitsEvent cur t) := by
  unfold tpsAdvance emitsEvent
  split
  · rename_i h
    dsimp only
    split
    · rename_i h'; simp [h, h']
    · rename_i h'; simp at h'; simp [h']
  · rename_i h; simp [h]
theorem tpsAdvance_lastEvent (P : Params) (cur : Fin 68) (t : TpsState) :
    (tpsAdvance P cur t).lastEvent = if emitsEvent cur t then decodeEvent P t.payload else t.lastEvent := by
  unfold tpsAdvance emitsEvent
  split
  · rename_i h
    dsimp only
    split
    · rename_i h'; simp [h, h']
    · rename_i h'; simp at h'; simp [h']
  · rename_i h; simp [h]
theorem tpsAdvance_frame (P : Params) (cur : Fin 68) (t : TpsState) :
    (tpsAdvance P cur t).frame =
      if emitsEvent cur t then (decodeEvent P t.payload).setWidth 2 + 1
      else if cur.val + 1 = 68 then t.frame + 1 else t.frame := by
  unfold tpsAdvance emitsEvent
  split
  · rename_i h
    dsimp only
    split
    · rename_i h'; simp [h, h']
    · rename_i h'; simp at h'; simp [h, h']
  · rename_i h; simp [h]

/-! ## Registers -/

/-- The shift register doubles and takes the bit (43_tps R204). -/
theorem shiftIn_toNat (r : BitVec 16) (b : Bool) : (shiftIn r b).toNat = (2 * r.toNat + b.toNat) % 65536 := by
  have key : shiftIn r b = (r <<< 1) + (BitVec.ofBool b).setWidth 16 := by
    unfold shiftIn
    rw [BitVec.add_eq_or_of_and_eq_zero]
    ext i hi
    cases b
    · simp
    · simp; omega
  rw [key]
  cases b <;> simp [BitVec.toNat_add, BitVec.toNat_shiftLeft, Nat.shiftLeft_eq] <;> omega

/-- Storing a payload bit changes that bit alone (43_tps R207). -/
theorem setPayloadBit_getLsbD (p : BitVec 68) (i : Nat) (b : Bool) (k : Nat) (hk : k < 68) :
    (setPayloadBit p i b).getLsbD k = if k = i then b else p.getLsbD k := by
  unfold setPayloadBit
  have h1 : (1#68 <<< i).getLsbD k = decide (k = i) := by
    simp only [BitVec.getLsbD_shiftLeft, hk, decide_true, Bool.true_and, BitVec.getLsbD_one]
    rcases Nat.lt_trichotomy k i with h | h | h
    · simp [h, h.ne]
    · simp [h]
    · simp [Nat.not_lt.mpr h.le, h.ne']; omega
  cases b
  · simp only [Bool.false_eq_true, if_false, BitVec.getLsbD_and, BitVec.getLsbD_not, h1, hk, decide_true]
    by_cases h : k = i <;> simp [h]
  · simp only [if_true, BitVec.getLsbD_or, h1]
    by_cases h : k = i <;> simp [h]

/-- The dot product with a zero phasor is 0 (43_tps R200). -/
@[simp] theorem dot_zero_right (A : NumParam) (z : Cplx) : dot A z Cplx.zero = 0 := by
  rw [dot, deliver_known A _ (by simp), conj_zero, cmul_zero_right]; rfl

/-- The vote counts the carriers whose dot product with the phasor before is negative (43_tps R201); one with no
phasor before does not vote. -/
theorem countOnes_map (A : NumParam) (now : Nat → Cplx) (l : List Nat) : ∀ prev : List Cplx,
    countOnes A (l.map now) prev = ((List.range l.length).filter fun t =>
      decide (dot A (now (l.getD t 0)) (prev.getD t Cplx.zero) < 0)).length := by
  induction l with
  | nil => intro prev; simp [countOnes]
  | cons c l ih =>
    intro prev
    rw [List.length_cons, List.range_succ_eq_map, List.filter_cons]
    cases prev with
    | nil => simp [countOnes]
    | cons b prev =>
      have h := ih prev
      unfold countOnes at h ⊢
      rw [List.map_cons, List.zip_cons_cons, List.filter_cons, List.filter_map]
      simp only [List.getD_cons_zero, votesOne, List.getD_cons_succ, Function.comp_def] at h ⊢
      by_cases hv : dot A (now c) b < 0 <;>
        simp only [hv, decide_true, decide_false, if_true, if_false, Bool.false_eq_true, List.length_cons,
          List.length_map, h]

end Sys2Proof.Machine
end

