-- ==== Sys2Proof/Laws/Frame.lean ====
section
/-! SUPPORT. What no stage body changes and what it can only add to: the frame that every body of a command
keeps (10_state R57, R61, 20_memory R87). -/

namespace Sys2Proof.Machine

/-- From `s` to `t` the configuration, the CMD port and the wait stay, the outputs only grow, by no
response, and no sticky flag and no model fault is cleared. -/
structure BodyFrame (s t : State) : Prop where
  cfg : t.cfg = s.cfg
  cmd : t.cmd = s.cmd
  hold : t.hold = s.hold
  out : ∃ items, t.out = s.out ++ items ∧ ∀ it ∈ items, ∀ c d, it ≠ .resp c d
  preZeroAmp : s.mfault.preZeroAmp → t.mfault.preZeroAmp
  preInstance : t.mfault.preInstance = s.mfault.preInstance
  sync : s.tps.sync → t.tps.sync
  outValid : s.tps.outValid → t.tps.outValid
  eventSeen : s.tps.eventSeen → t.tps.eventSeen
  halted : s.est.halted → t.est.halted
  eosSeen : s.est.eosSeen → t.est.eosSeen

namespace BodyFrame

theorem refl (s : State) : BodyFrame s s :=
  ⟨rfl, rfl, rfl, ⟨[], by simp, by simp⟩, id, rfl, id, id, id, id, id⟩

theorem trans {s t u : State} (h : BodyFrame s t) (k : BodyFrame t u) : BodyFrame s u where
  cfg := k.cfg.trans h.cfg
  cmd := k.cmd.trans h.cmd
  hold := k.hold.trans h.hold
  out := by
    obtain ⟨a, ha, ha'⟩ := h.out
    obtain ⟨b, hb, hb'⟩ := k.out
    refine ⟨a ++ b, by rw [hb, ha, List.append_assoc], fun it hi => ?_⟩
    rcases List.mem_append.mp hi with hi | hi
    · exact ha' it hi
    · exact hb' it hi
  preZeroAmp := k.preZeroAmp ∘ h.preZeroAmp
  preInstance := k.preInstance.trans h.preInstance
  sync := k.sync ∘ h.sync
  outValid := k.outValid ∘ h.outValid
  eventSeen := k.eventSeen ∘ h.eventSeen
  halted := k.halted ∘ h.halted
  eosSeen := k.eosSeen ∘ h.eosSeen

/-- The responses stay. -/
theorem respPort {s t : State} (h : BodyFrame s t) : t.respPort = s.respPort := by
  obtain ⟨items, ho, hn⟩ := h.out
  rw [State.respPort_append ho]
  have : State.respPort { s with out := items } = [] := by
    simp only [State.respPort, List.filterMap_eq_nil_iff]
    intro it hi
    cases it with
    | resp c d => exact absurd rfl (hn _ hi c d)
    | _ => rfl
  rw [this, List.append_nil]

theorem emitAll (s : State) {items : List OutItem} (h : ∀ it ∈ items, ∀ c d, it ≠ .resp c d) :
    BodyFrame s (s.emitAll items) :=
  ⟨rfl, rfl, rfl, ⟨items, rfl, h⟩, id, rfl, id, id, id, id, id⟩

theorem emit (s : State) {item : OutItem} (h : ∀ c d, item ≠ .resp c d) : BodyFrame s (s.emit item) :=
  emitAll s (items := [item]) (by simpa using h)

theorem diag (s : State) (c : BitVec 8) (k : Nat) : BodyFrame s (s.diag c k) := emit s (by simp)

theorem count (s : State) (c : Counter) (k : Nat) : BodyFrame s (s.count c k) :=
  ⟨rfl, rfl, rfl, ⟨[], by simp, by simp⟩, id, rfl, id, id, id, id, id⟩

theorem effect (c : Condition) (s : State) : BodyFrame s (c.effect s) := by
  obtain ⟨halted, cnt, items, h, -, hd⟩ := c.effect_cases s
  rw [h]
  refine ⟨rfl, rfl, rfl, ⟨items, rfl, fun it hi => ?_⟩, id, rfl, id, id, id, fun h => by simp [h], id⟩
  obtain ⟨_, _, rfl⟩ := hd it hi
  simp

theorem withVit (s : State) (r : VitResult) : BodyFrame s (s.withVit r) :=
  ⟨rfl, rfl, rfl, ⟨r.items.map .vit, rfl, by simp⟩, id, rfl, id, id, id, id, id⟩

theorem foldl {α : Type} (f : State → α → State) (hf : ∀ s a, BodyFrame s (f s a)) (l : List α) :
    ∀ s, BodyFrame s (l.foldl f s) := by
  induction l with
  | nil => exact refl
  | cons a l ih => exact fun s => (hf s a).trans (ih _)

theorem feed (P : Params) (x : List Bool) (s : State) : BodyFrame s (s.feed P x) := by
  have h := foldl (fun t (f : FeedStep) => t.trellisStep P f.hasX f.x f.y)
    (fun t f => withVit t (vitStep P f.hasX f.x f.y t.vit)) (cutBits s.cfg.rate (s.dmx.feedBuf ++ x)).1 s
  exact h.trans ⟨rfl, rfl, rfl, ⟨[], by simp [State.feed], by simp⟩, id, rfl, id, id, id, id, id⟩

theorem missedPilots (k : Nat) : ∀ s : State, BodyFrame s (s.missedPilots k) := by
  induction k with
  | zero => exact refl
  | succ k ih => exact fun s => ((count s .consist 1).trans (diag _ 0x05 1)).trans (ih _)

theorem qualityAccount (P : Params) (s : State) (k : Nat) : BodyFrame s (s.qualityAccount P k) := by
  have h : BodyFrame s ({ s with dmx := { s.dmx with anomalyLast := k } }.count .anomalyTotal k) :=
    ⟨rfl, rfl, rfl, ⟨[], by simp, by simp⟩, id, rfl, id, id, id, id, id⟩
  simp only [State.qualityAccount]
  split
  · exact (h.trans (count _ _ _)).trans (diag _ _ _)
  · exact h

end BodyFrame

/-! ## The bodies -/

/-- What FFT can end in. -/
theorem fftBody_cases (P : Params) (s : State) :
    (s.est.halted = true ∧ fftBody P s = (.halted, s)) ∨
    (s.est.halted = false ∧ s.blk.tdId = none ∧ fftBody P s = (.seqError, s.count .seqErr 1)) ∨
    (s.est.halted = false ∧ s.blk.tdId ≠ none ∧ fftBody P s =
      (.ok, { s with blk := { s.blk with fd := forwardTransform P s.blk.td, fdId := s.blk.tdId } })) := by
  unfold fftBody
  split
  · exact .inl ⟨‹_›, rfl⟩
  · split
    · exact .inr (.inl ⟨by simpa using ‹¬ s.est.halted = true›, ‹_›, rfl⟩)
    · exact .inr (.inr ⟨by simpa using ‹¬ s.est.halted = true›, ‹_›, rfl⟩)

/-- What EQ can end in. -/
theorem eqBody_cases (P : Params) (s : State) :
    (s.est.halted = true ∧ eqBody P s = (.halted, s)) ∨
    (s.est.halted = false ∧ s.blk.fdId = none ∧ eqBody P s = (.seqError, s.count .seqErr 1)) ∨
    (s.est.halted = false ∧ s.blk.fdId ≠ none ∧ eqBody P s = (.ok, equalize P s)) := by
  unfold eqBody
  split
  · exact .inl ⟨‹_›, rfl⟩
  · split
    · exact .inr (.inl ⟨by simpa using ‹¬ s.est.halted = true›, ‹_›, rfl⟩)
    · exact .inr (.inr ⟨by simpa using ‹¬ s.est.halted = true›, ‹_›, rfl⟩)

/-- What TPS can end in. -/
theorem tpsBody_cases (P : Params) (s : State) :
    (s.est.halted = true ∧ tpsBody P s = (.halted, s)) ∨
    (s.est.halted = false ∧ (s.blk.fdId = none ∨ s.blk.tpsId = s.blk.fdId) ∧
      tpsBody P s = (.seqError, s.count .seqErr 1)) ∨
    (s.est.halted = false ∧ s.blk.fdId ≠ none ∧ s.blk.tpsId ≠ s.blk.fdId ∧ tpsBody P s = (.ok, tpsStep P s)) := by
  unfold tpsBody
  split
  · exact .inl ⟨‹_›, rfl⟩
  · split
    · exact .inr (.inl ⟨by simpa using ‹¬ s.est.halted = true›, ‹_›, rfl⟩)
    · rename_i h
      rw [not_or] at h
      exact .inr (.inr ⟨by simpa using ‹¬ s.est.halted = true›, h.1, h.2, rfl⟩)

/-- What DEMUX can end in. -/
theorem demuxBody_cases (P : Params) (s : State) :
    (s.est.halted = true ∧ demuxBody P s = (.halted, s)) ∨
    (s.est.halted = false ∧ demuxReady s.blk = false ∧ demuxBody P s = (.seqError, s.count .seqErr 1)) ∨
    (s.est.halted = false ∧ demuxReady s.blk = true ∧ demuxBody P s = demuxRun P s) := by
  unfold demuxBody
  split
  · exact .inl ⟨‹_›, rfl⟩
  · split
    · exact .inr (.inr ⟨by simpa using ‹¬ s.est.halted = true›, ‹_›, rfl⟩)
    · exact .inr (.inl ⟨by simpa using ‹¬ s.est.halted = true›, by simpa using ‹¬ demuxReady s.blk = true›, rfl⟩)

theorem fftBody_frame (P : Params) (s : State) : BodyFrame s (fftBody P s).2 := by
  rcases fftBody_cases P s with ⟨-, h⟩ | ⟨-, -, h⟩ | ⟨-, -, h⟩ <;> rw [h]
  · exact .refl s
  · exact .count s _ _
  · exact ⟨rfl, rfl, rfl, ⟨[], by simp, by simp⟩, id, rfl, id, id, id, id, id⟩

theorem eqBody_frame (P : Params) (s : State) : BodyFrame s (eqBody P s).2 := by
  rcases eqBody_cases P s with ⟨-, h⟩ | ⟨-, -, h⟩ | ⟨-, -, h⟩ <;> rw [h]
  · exact .refl s
  · exact .count s _ _
  · refine ⟨rfl, rfl, rfl, ⟨[], by simp [equalize], by simp⟩, fun h => ?_, ?_, id, id, id, id, id⟩
    · simp only [equalize]; split
      · rfl
      · exact h
    · simp only [equalize]; split <;> rfl

theorem tpsStep_frame (P : Params) (s : State) : BodyFrame s (tpsStep P s) := by
  have key : ∀ s3 : State, BodyFrame s s3 → ∀ (t : TpsState) (b : BlockRegs),
      (s.tps.sync → t.sync) → (s.tps.outValid → t.outValid) → (s.tps.eventSeen → t.eventSeen) →
      BodyFrame s { s3 with tps := t, blk := b } := fun s3 h t b h1 h2 h3 =>
    ⟨h.cfg, h.cmd, h.hold, h.out, h.preZeroAmp, h.preInstance, h1, h2, h3, h.halted, h.eosSeen⟩
  have ite : ∀ (c : Prop) (d : Decidable c) (s u v : State), BodyFrame s u → BodyFrame s v →
      BodyFrame s (if c then u else v) := fun c d s u v hu hv => by split <;> assumption
  unfold tpsStep
  refine key _ ?_ _ _ ?_ ?_ ?_
  · refine ite _ _ _ _ _ (.trans (.trans (.trans ?_ (.emit _ (by simp))) (.count _ _ _)) (.diag _ _ _)) ?_
    all_goals
      refine ite _ _ _ _ _ (.trans (.trans ?_ (.count _ _ _)) (.diag _ _ _)) ?_
      all_goals exact ite _ _ _ _ _ (.trans (.count _ _ _) (.diag _ _ _)) (.refl _)
  · intro h; rw [tpsAdvance_sync]; simp [h]
  · intro h; rw [tpsAdvance_outValid]; simp [h]
  · intro h; rw [tpsAdvance_eventSeen]; simp [h]

theorem tpsBody_frame (P : Params) (s : State) : BodyFrame s (tpsBody P s).2 := by
  rcases tpsBody_cases P s with ⟨-, h⟩ | ⟨-, -, h⟩ | ⟨-, -, -, h⟩ <;> rw [h]
  · exact .refl s
  · exact .count s _ _
  · exact tpsStep_frame P s

theorem emitAndFeed_frame (P : Params) (x : List Bool) (s : State) : BodyFrame s (s.emitAndFeed P x) := by
  refine .trans (.trans (.emitAll s ?_) (.count _ _ _)) (.feed P _ _)
  simp

theorem demuxWalked_frame (P : Params) (w : WalkResult) (s : State) : BodyFrame s (demuxWalked P w s).2 := by
  have h : BodyFrame s ((s.missedPilots w.missed).qualityAccount P w.anomalies) :=
    .trans (.missedPilots _ _) (.qualityAccount P _ _)
  unfold demuxWalked
  dsimp only
  split
  · exact h.trans (.effect .consistencyError _)
  · split
    · exact h.trans (emitAndFeed_frame P _ _)
    · exact h

theorem demuxBody_frame (P : Params) (s : State) : BodyFrame s (demuxBody P s).2 := by
  rcases demuxBody_cases P s with ⟨-, h⟩ | ⟨-, -, h⟩ | ⟨-, -, h⟩ <;> rw [h]
  · exact .refl s
  · exact .count s _ _
  · have h0 : BodyFrame s { s with blk := { s.blk with dmxId := s.blk.fdId } } :=
      ⟨rfl, rfl, rfl, ⟨[], by simp, by simp⟩, id, rfl, id, id, id, id, id⟩
    unfold demuxRun
    refine h0.trans ?_
    dsimp only
    split
    · exact .effect (.configError _) _
    · exact demuxWalked_frame P _ _

/-! ## EST and SYMBOL -/

theorem State.filled_frame (s : State) (zs : List Cplx) (rest : List SampleItem) :
    BodyFrame s (s.filled zs rest) :=
  ⟨rfl, rfl, rfl, ⟨[], by simp [State.filled], by simp⟩, id, rfl, id, id, id, id, id⟩

theorem outputBlock_frame (P : Params) (e : Estimate) (s : State) : BodyFrame s (outputBlock P e s) := by
  have h : ∀ (est : EstState) (blk : BlockRegs), est.halted = s.est.halted → est.eosSeen = s.est.eosSeen →
      BodyFrame s { s with est := est, blk := blk } := fun est blk h1 h2 =>
    ⟨rfl, rfl, rfl, ⟨[], by simp, by simp⟩, id, rfl, id, id, id, fun h => by rw [← h]; exact h1,
      fun h => by rw [← h]; exact h2⟩
  simp only [outputBlock]
  refine .trans ?_ (.count _ _ _)
  split
  · exact h _ _ rfl rfl
  · refine .trans (.trans ?_ (.count _ _ _)) (.diag _ _ _)
    exact h _ _ rfl rfl

/-- Everything the body of EST can do from its fill on (40_estimator R130). -/
theorem estFrom_cases (P : Params) (got : Nat) (s : State) :
    (∃ zs rest, zs.length = s.bufSize P - s.est.efill ∧ (s.est.eosSeen = false ∨ zs = []) ∧
      s.sample = zs.map .sample ++ rest ∧
      estFrom P got s = .done .ok (outputBlock P (estimate P (s.filled zs rest)) (s.filled zs rest))) ∨
    (∃ zs, zs.length < s.bufSize P - s.est.efill ∧ s.est.eosSeen = false ∧ s.sample = zs.map .sample ∧
      estFrom P got s = .held (got + zs.length) (s.filled zs [])) ∨
    (∃ (zs : List Cplx) (rest : List SampleItem) (c : Condition), zs.length < s.bufSize P - s.est.efill ∧
      ((c = .endOfStream ∧ got + zs.length = 0) ∨ (c = .shortRead (got + zs.length) ∧ 0 < got + zs.length)) ∧
      estFrom P got s = .done c.status (c.effect
        { s.filled zs rest with est := { (s.filled zs rest).est with eosSeen := true } })) := by
  have hf : fill P got s = fillLoop (s.bufSize P - s.est.efill) got s := rfl
  rcases fillLoop_cases (s.bufSize P - s.est.efill) got s with
    ⟨zs, rest, h1, h2, h3, h⟩ | ⟨zs, h1, h2, h3, h⟩ | ⟨zs, rest, h1, -, ⟨h2, h⟩ | ⟨h2, h⟩⟩
  · exact .inl ⟨zs, rest, h1, h2, h3, by simp only [estFrom, hf, h]⟩
  · exact .inr (.inl ⟨zs, h1, h2, h3, by simp only [estFrom, hf, h]⟩)
  · exact .inr (.inr ⟨zs, rest, .endOfStream, h1, .inl ⟨rfl, h2⟩, by
      simp only [estFrom, hf, h, raiseCondition_fst, raiseCondition_snd]⟩)
  · exact .inr (.inr ⟨zs, rest, .shortRead _, h1, .inr ⟨rfl, h2⟩, by
      simp only [estFrom, hf, h, raiseCondition_fst, raiseCondition_snd]⟩)

/-- The state an EST body leaves. -/
def EstEnd.state : EstEnd → State
  | .done _ s => s
  | .held _ s => s

theorem estFrom_frame (P : Params) (got : Nat) (s : State) : BodyFrame s (estFrom P got s).state := by
  rcases estFrom_cases P got s with ⟨zs, rest, -, -, -, h⟩ | ⟨zs, -, -, -, h⟩ | ⟨zs, rest, c, -, -, h⟩ <;>
    rw [h] <;> simp only [EstEnd.state]
  · exact (s.filled_frame zs rest).trans (outputBlock_frame P _ _)
  · exact s.filled_frame zs []
  · refine (s.filled_frame zs rest).trans (.trans ?_ (.effect c _))
    exact ⟨rfl, rfl, rfl, ⟨[], by simp, by simp⟩, id, rfl, id, id, id, id, fun _ => rfl⟩

/-- Everything the body of EST can do. -/
theorem estBody_cases (P : Params) (s : State) :
    (s.est.halted = true ∧ estBody P s = .done .halted s) ∨
    (s.est.halted = false ∧ estBody P s = estFrom P 0 s) := by
  unfold estBody
  split
  · exact .inl ⟨‹_›, rfl⟩
  · exact .inr ⟨by simpa using ‹¬ s.est.halted = true›, rfl⟩

theorem estBody_frame (P : Params) (s : State) : BodyFrame s (estBody P s).state := by
  rcases estBody_cases P s with ⟨-, h⟩ | ⟨-, h⟩ <;> rw [h]
  · exact .refl s
  · exact estFrom_frame P 0 s

/-- A relation that every stage of a list keeps is kept by running them (46_control R320). -/
theorem runStages_induction (R : State → State → Prop) (hr : ∀ s, R s s)
    (ht : ∀ s t u, R s t → R t u → R s u) (bodies : List (State → Status × State)) :
    (∀ body ∈ bodies, ∀ s, R s (body s).2) → ∀ s, R s (runStages bodies s).2 := by
  induction bodies with
  | nil => exact fun _ s => hr s
  | cons body bodies ih =>
    intro h s
    have hb := h body (by simp) s
    simp only [runStages]
    split
    · rename_i s' e
      rw [e] at hb
      exact ht _ _ _ hb (ih (fun b hb => h b (by simp [hb])) s')
    · rename_i e
      rw [e] at hb
      exact hb

theorem laterStages_frame (P : Params) (s : State) : BodyFrame s (runStages (laterStages P) s).2 := by
  refine runStages_induction BodyFrame .refl (fun _ _ _ => .trans) _ ?_ s
  simp only [laterStages, List.mem_cons, List.not_mem_nil, or_false]
  rintro _ (rfl | rfl | rfl | rfl)
  · exact fftBody_frame P
  · exact eqBody_frame P
  · exact tpsBody_frame P
  · exact demuxBody_frame P

/-- The end of SYMBOL: the wait, or the response after a frame. -/
theorem finishSymbol_cases (P : Params) (e : EstEnd) :
    (∃ got s, e = .held got s ∧ finishSymbol P e = { s with hold := some ⟨.symbol, got⟩ }) ∨
    (∃ code s code' t, e = .done code s ∧ BodyFrame s t ∧ finishSymbol P e = t.respond code' 0) := by
  cases e with
  | held got s => exact .inl ⟨got, s, rfl, rfl⟩
  | done code s =>
    right
    cases code with
    | ok => exact ⟨_, s, _, _, rfl, laterStages_frame P s, rfl⟩
    | _ => exact ⟨_, s, _, s, rfl, .refl s, rfl⟩

end Sys2Proof.Machine
end

