-- ==== Sys2Proof/Laws/PerInstr.lean ====
section
/-! SUPPORT. The family of statements made per instruction: the opcode byte of every command's word is the one
the opcode map gives it (30_encoding R91). -/

namespace Sys2Proof.Laws.OpcodeMatches

/-- The opcode of a command in the map of 30_encoding R91. -/
def opcode : Instr → Nat
  | .nop => 0x00
  | .reset => 0x01
  | .wrcfg _ _ => 0x02
  | .rdstat _ => 0x03
  | .est => 0x10
  | .fft => 0x11
  | .eq => 0x12
  | .tps => 0x13
  | .demux => 0x14
  | .symbol => 0x18
  | .vcons _ _ => 0x20
  | .vconsP _ => 0x20
  | .vflush => 0x21

/-- The word of the command carries its opcode in bits 31 to 24. -/
def Statement (i : Instr) : Prop := (opcodeField (encode i)).toNat = opcode i

theorem nop : Statement .nop := by simp [Statement, encode, opcode]
theorem reset : Statement .reset := by simp [Statement, encode, opcode]
theorem wrcfg (reg : CfgReg) (val : BitVec 16) : Statement (.wrcfg reg val) := by
  simp [Statement, encode, opcode]
theorem rdstat (idx : StatReg) : Statement (.rdstat idx) := by simp [Statement, encode, opcode]
theorem est : Statement .est := by simp [Statement, encode, opcode]
theorem fft : Statement .fft := by simp [Statement, encode, opcode]
theorem eq : Statement .eq := by simp [Statement, encode, opcode]
theorem tps : Statement .tps := by simp [Statement, encode, opcode]
theorem demux : Statement .demux := by simp [Statement, encode, opcode]
theorem symbol : Statement .symbol := by simp [Statement, encode, opcode]
theorem vcons (x y : Bool) : Statement (.vcons x y) := by simp [Statement, encode, opcode]
theorem vconsP (y : Bool) : Statement (.vconsP y) := by simp [Statement, encode, opcode]
theorem vflush : Statement .vflush := by simp [Statement, encode, opcode]

end Sys2Proof.Laws.OpcodeMatches
end

