-- ==== Sys2Proof/Laws/Stages.lean ====
section
/-! SUPPORT. What the stage bodies do when they complete, each said once as one record update, and what the
timing metric's argmax and the trellis's argmin are. -/

namespace Sys2Proof.Machine

/-! ## EST -/

/-- A window reached by zero samples alone sums to 0, whatever NUM is (40_estimator R130). -/
theorem nwindow_zeros (A : NumParam) (φ : Formula) {term : Cplx × Cplx → Scalar} {pairs : List (Cplx × Cplx)}
    {len m : Nat} (h : ∀ p ∈ pairs.take (m + len), p = (Cplx.zero, Cplx.zero))
    (ht : term (Cplx.zero, Cplx.zero) = 0) : nwindow A φ term pairs len m = 0 := by
  rw [nwindow, deliver_known A φ (by simpa using h)]
  refine List.sum_eq_zero fun x hx => ?_
  obtain ⟨p, hp, rfl⟩ := List.mem_map.mp hx
  rw [h p (by rw [List.take_add]; exact List.mem_append_right _ hp), ht]

/-- A NUM that rounds nothing gives every window its sum. -/
theorem nwindow_exact (A : NumParam) (h : ∀ φ x, A.rnd φ x = x) (φ : Formula) (term : Cplx × Cplx → Scalar)
    (pairs : List (Cplx × Cplx)) (len m : Nat) :
    nwindow A φ term pairs len m = (((pairs.drop m).take len).map term).sum := deliver_exact A h φ _ _

/-- What an EST that outputs a block changes (40_estimator R141 to R147). -/
theorem outputBlock_eq (P : Params) (e : Estimate) (s : State) :
    ∃ items, (∀ it ∈ items, ∃ c a, it = OutItem.diag c a) ∧
      outputBlock P e s = { s with
        est := { s.est with
          ebuf := slide P s.est.ebuf (s.bufSize P) e.start
          nco := advanceNco P s.est.nco e.eps
          conf := smoothConfidence P s.est.conf e.deviation
          tracking := e.tracking
          lastArgmax := e.argmax
          lastA := e.start
          lastEps := e.eps }
        blk := { s.blk with
          td := derotate P s.est.ebuf (e.start + P.guardLen s.cfg.guard) s.est.nco e.eps
          blkId := s.blk.blkId + 1
          tdId := some (s.blk.blkId + 1) }
        cnt := (if e.tracking then s.cnt else s.cnt.add .acq 1).add .symbols 1
        out := s.out ++ items } := by
  simp only [outputBlock]
  split
  · exact ⟨[], by simp, by simp [State.count]⟩
  · exact ⟨_, by simp, rfl⟩

/-- The argmax is the least index of a maximal value (40_estimator R134). -/
theorem argmaxFrom_spec (l : List Scalar) : ∀ (best : Nat) (top : Scalar) (pre : List Scalar),
    pre[best]? = some top → (∀ (k : Nat) x, pre[k]? = some x → x ≤ top) →
    (∀ (k : Nat) x, k < best → pre[k]? = some x → x < top) →
    ∃ m, (pre ++ l)[argmaxFrom best top pre.length l]? = some m ∧
      (∀ (k : Nat) x, (pre ++ l)[k]? = some x → x ≤ m) ∧
      ∀ (k : Nat) x, k < argmaxFrom best top pre.length l → (pre ++ l)[k]? = some x → x < m := by
  induction l with
  | nil => intro best top pre h1 h2 h3; simpa [argmaxFrom] using ⟨top, h1, h2, h3⟩
  | cons x xs ih =>
    intro best top pre h1 h2 h3
    have hb : best < pre.length := (List.getElem?_eq_some_iff.mp h1).1
    have hlen : (pre ++ [x]).length = pre.length + 1 := by simp
    have happ : pre ++ x :: xs = (pre ++ [x]) ++ xs := by simp
    have hget : ∀ (k : Nat) y, (pre ++ [x])[k]? = some y → pre[k]? = some y ∨ (k = pre.length ∧ y = x) := by
      intro k y hy
      rw [List.getElem?_append] at hy
      split at hy
      · exact .inl hy
      · rename_i hk
        right
        have hk' : k = pre.length := by
          have := (List.getElem?_eq_some_iff.mp hy).1
          simp at this; omega
        subst hk'
        simpa using hy.symm
    simp only [argmaxFrom]
    rw [happ, ← hlen]
    split
    · rename_i hlt
      rw [show pre.length = (pre ++ [x]).length - 1 by simp]
      have := ih ((pre ++ [x]).length - 1) x (pre ++ [x]) (by simp) ?_ ?_
      · exact this
      · intro k y hy
        rcases hget k y hy with hy | ⟨-, rfl⟩
        · exact (h2 k y hy).trans hlt.le
        · exact le_rfl
      · intro k y hk hy
        rcases hget k y hy with hy | ⟨rfl, -⟩
        · exact (h2 k y hy).trans_lt hlt
        · simp at hk
    · rename_i hle
      refine ih best top (pre ++ [x]) ?_ ?_ ?_
      · rw [List.getElem?_append_left hb, h1]
      · intro k y hy
        rcases hget k y hy with hy | ⟨-, rfl⟩
        · exact h2 k y hy
        · exact not_lt.mp hle
      · intro k y hk hy
        rcases hget k y hy with hy | ⟨rfl, -⟩
        · exact h3 k y hk hy
        · omega

/-- The argmax of a list that is not empty is the least index at which it is maximal. -/
theorem argmaxLeast_spec (l : List Scalar) (h : l ≠ []) :
    ∃ m, l[argmaxLeast l]? = some m ∧ (∀ (k : Nat) x, l[k]? = some x → x ≤ m) ∧
      ∀ (k : Nat) x, k < argmaxLeast l → l[k]? = some x → x < m := by
  match l, h with
  | x :: xs, _ =>
    refine argmaxFrom_spec xs 0 x [x] rfl ?_ ?_
    · intro k y hy
      cases k <;> simp at hy
      exact hy.symm.le
    · intro k y hk _; omega

/-! ## TPS -/

/-- What TPS changes (43_tps R200 to R211). -/
theorem tpsStep_eq (P : Params) (s : State) :
    let now := tpsPhasors P s.blk.fd
    let ones := countOnes P.num now s.tps.prev
    let bit := majority P.tpsList.length ones
    let cur := currentPos P s.tps bit
    let received := tpsReceive P now bit s.tps
    let ev := decodeEvent P received.payload
    let split := splitVote P P.tpsList.length ones
    let resync := syncMatch P (shiftIn s.tps.shift bit) && decide (s.tps.pos ≠ 16)
    tpsStep P s = { s with
      tps := tpsAdvance P cur received
      blk := { s.blk with tpsId := s.blk.fdId }
      cnt := { s.cnt with
        splitVote := satAdd s.cnt.splitVote split.toNat
        resync := satAdd s.cnt.resync resync.toNat
        tpsEvents := satAdd s.cnt.tpsEvents (emitsEvent cur received).toNat }
      out := s.out ++ (if split then [.diag 0x02 (BitVec.ofNat 32 ones)] else []) ++
        (if resync then [.diag 0x03 (BitVec.ofNat 32 s.tps.pos.val)] else []) ++
        if emitsEvent cur received then [.tpsEvt ev, .diag 0x08 (BitVec.ofNat 32 ev.toNat)] else [] } := by
  intro now ones bit cur received ev split resync
  have hstep : tpsStep P s =
      (let s1 := if split then (s.count .splitVote 1).diag 0x02 ones else s
       let s2 := if resync then (s1.count .resync 1).diag 0x03 s.tps.pos.val else s1
       let s3 := if emitsEvent cur received then
          ((s2.emit (.tpsEvt ev)).count .tpsEvents 1).diag 0x08 ev.toNat else s2
       { s3 with tps := tpsAdvance P cur received, blk := { s.blk with tpsId := s.blk.fdId } }) := by
    simp only [tpsStep, resync, Bool.and_eq_true, decide_eq_true_eq]
    rfl
  rw [hstep]
  clear_value split resync ev received cur
  cases split <;> cases resync <;> cases emitsEvent cur received <;>
    simp [State.count, State.diag, State.emit, Counters.add]

/-! ## DEMUX -/

/-- What a DEMUX whose configuration and cell count pass changes before any output (44_demux R230). -/
theorem demuxWalked_eq (P : Params) (w : WalkResult) (s : State) (hm : w.missed = 0)
    (hc : w.cells.length = P.nMax) :
    demuxWalked P w s = (.ok, if s.tps.outValid then
      (s.qualityAccount P w.anomalies).emitAndFeed P (symbolBits P w.cells s.tps.idxSym.val)
      else s.qualityAccount P w.anomalies) := by
  have ht : (s.qualityAccount P w.anomalies).tps = s.tps := by
    obtain ⟨items, -, h⟩ := State.qualityAccount_eq P s w.anomalies
    rw [h]
  simp only [demuxWalked, hm, State.missedPilots_zero, hc, ne_eq, not_true_eq_false, if_false, ht]
  split <;> rfl

end Sys2Proof.Machine
end

