-- ==== Sys2Proof/Machine/Assembler.lean ====
section
/-! DEFINITION. The assembler syntax of 30_encoding R98 and the pseudo-instructions of R99: one line to one
command word. It is no part of the block; a word it writes may be illegal, as 95_test_vectors P1 writes one. -/

namespace Sys2Proof.Machine

/-- The digits of a decimal number from value `acc`. -/
def decimalFrom : (acc : Nat) → List Char → Option Nat
  | acc, [] => some acc
  | acc, c :: cs => if '0' ≤ c ∧ c ≤ '9' then decimalFrom (10 * acc + (c.toNat - 48)) cs else none

/-- A hexadecimal digit. -/
def hexDigit (c : Char) : Option Nat :=
  if '0' ≤ c ∧ c ≤ '9' then some (c.toNat - 48)
  else if 'a' ≤ c ∧ c ≤ 'f' then some (c.toNat - 87)
  else if 'A' ≤ c ∧ c ≤ 'F' then some (c.toNat - 55)
  else none

/-- The digits of a hexadecimal number from value `acc`. -/
def hexFrom : (acc : Nat) → List Char → Option Nat
  | acc, [] => some acc
  | acc, c :: cs => (hexDigit c).bind fun d => hexFrom (16 * acc + d) cs

/-- A number: decimal, or hexadecimal after `0x` (30_encoding R98). -/
def asmNumber : List Char → Option Nat
  | [] => none
  | '0' :: 'x' :: [] => none
  | '0' :: 'x' :: ds => hexFrom 0 ds
  | ds => decimalFrom 0 ds

/-- The characters of a word split off a line, and what follows. -/
def splitWord : List Char → List Char × List Char
  | [] => ([], [])
  | c :: cs =>
    if c = ' ' ∨ c = '\t' ∨ c = ',' ∨ c = ';' then ([], c :: cs)
    else (c :: (splitWord cs).1, (splitWord cs).2)

/-- The tokens of a line, a comma being a token; `;` starts a comment (30_encoding R98). `fuel` bounds the
number of tokens and separators. -/
def asmTokens : (fuel : Nat) → List Char → List (List Char)
  | 0, _ => []
  | _ + 1, [] => []
  | fuel + 1, c :: cs =>
    if c = ';' then []
    else if c = ' ' ∨ c = '\t' then asmTokens fuel cs
    else if c = ',' then [','] :: asmTokens fuel cs
    else (splitWord (c :: cs)).1 :: asmTokens fuel (splitWord (c :: cs)).2

/-- The names of the configuration registers in a `wrcfg` line (30_encoding R98). -/
def cfgRegNames : List (List Char × Nat) :=
  [("guard".toList, 0), ("const".toList, 1), ("hier".toList, 2), ("rate".toList, 3)]

/-- The names of 10_state R60 in lower case, with their indices (30_encoding R98). -/
def statRegNames : List (List Char × Nat) :=
  [("flags".toList, 0x00), ("tps_pos".toList, 0x01), ("tps_frame".toList, 0x02), ("tps_shift".toList, 0x03),
    ("idx_sym".toList, 0x04), ("idx_frame".toList, 0x05), ("conf".toList, 0x06), ("last_a".toList, 0x07),
    ("last_argmax".toList, 0x08), ("last_eps".toList, 0x09), ("nco".toList, 0x0A), ("efill".toList, 0x0B),
    ("last_tps_event".toList, 0x0C), ("anomaly_last".toList, 0x0D), ("vbest".toList, 0x0E),
    ("vcount".toList, 0x0F), ("cfg_guard".toList, 0x10), ("cfg_const".toList, 0x11),
    ("cfg_hier".toList, 0x12), ("cfg_rate".toList, 0x13), ("blk_id".toList, 0x14)] ++
  [("cnt_symbols".toList, 0x20), ("cnt_acq".toList, 0x21), ("cnt_anomaly_total".toList, 0x22),
    ("cnt_quality_warn".toList, 0x23), ("cnt_split_vote".toList, 0x24), ("cnt_resync".toList, 0x25),
    ("cnt_consist".toList, 0x26), ("cnt_config_err".toList, 0x27), ("cnt_seq_err".toList, 0x28),
    ("cnt_illegal".toList, 0x29), ("cnt_tps_events".toList, 0x2A), ("cnt_dmx_out".toList, 0x2B),
    ("cnt_vit_bits".toList, 0x2C)]

/-- The commands without an operand (30_encoding R98), and `rd.flags` (R99). -/
def plainWords : List (List Char × Instr) :=
  [("nop".toList, .nop), ("reset".toList, .reset), ("est".toList, .est), ("fft".toList, .fft),
    ("eq".toList, .eq), ("tps".toList, .tps), ("demux".toList, .demux), ("symbol".toList, .symbol),
    ("vflush".toList, .vflush), ("rd.flags".toList, Pseudo.rdFlags.expand)]

/-- The pseudo-instructions that write one configuration register (30_encoding R99), with its index. -/
def cfgPseudoWords : List (List Char × Nat) :=
  [("cfg.guard".toList, 0), ("cfg.const".toList, 1), ("cfg.hier".toList, 2), ("cfg.rate".toList, 3)]

/-- An operand that is a name of the table or a number below `bound`. -/
def asmOperand (names : List (List Char × Nat)) (bound : Nat) (tok : List Char) : Option Nat :=
  match names.lookup tok with
  | some k => some k
  | none => (asmNumber tok).bind fun k => if k < bound then some k else none

/-- The word `wrcfg reg, val` (30_encoding R98). -/
def asmWrcfg (reg val : Nat) : Word := packWord 0x02 (BitVec.ofNat 8 reg ++ BitVec.ofNat 16 val)

/-- One assembler line (30_encoding R98, R99): none where it is no line of the syntax, `some none` where it
holds no command. -/
def assembleLine (line : List Char) : Option (Option Word) :=
  match asmTokens (line.length + 1) line with
  | [] => some none
  | [m] => (plainWords.lookup m).map fun i => some (encode i)
  | [m, a] =>
    if m = "rdstat".toList then
      (asmOperand statRegNames 256 a).map fun k => some (packWord 0x03 (BitVec.ofNat 24 k))
    else if m = "vcons.p".toList then
      (asmOperand [] 2 a).map fun y => some (encode (.vconsP (decide (y = 1))))
    else
      (cfgPseudoWords.lookup m).bind fun reg =>
        (asmOperand [] (2 ^ 16) a).map fun val => some (asmWrcfg reg val)
  | [m, a, [','], b] =>
    if m = "wrcfg".toList then
      (asmOperand cfgRegNames 256 a).bind fun reg =>
        (asmOperand [] (2 ^ 16) b).map fun val => some (asmWrcfg reg val)
    else if m = "vcons".toList then
      (asmOperand [] 2 a).bind fun x =>
        (asmOperand [] 2 b).map fun y => some (encode (.vcons (decide (x = 1)) (decide (y = 1))))
    else none
  | _ => none

end Sys2Proof.Machine
end

