-- ==== Sys2Proof/Tests/Slice0.lean ====
section
/-! SUPPORT. Tests: the well-formedness smoke, decoding of words written out from 30_encoding, small vectors of
95_test_vectors, and for every statement with hypotheses a state and operands that meet them. -/

namespace Sys2Proof.Tests

open Sys2Proof Sys2Proof.Machine

/-! ## Well-formedness: the check of each register refuses an ill-formed value -/

theorem test_wellFormed_refuses_guard : ¬ WellFormed (.wrcfg .guard 4) := by decide
theorem test_wellFormed_refuses_const : ¬ WellFormed (.wrcfg .const 4) := by decide
theorem test_wellFormed_refuses_hier : ¬ WellFormed (.wrcfg .hier 8) := by decide
theorem test_wellFormed_refuses_rate : ¬ WellFormed (.wrcfg .rate 8) := by decide
theorem test_wellFormed_takes_the_top_values :
    WellFormed (.wrcfg .guard 3) ∧ WellFormed (.wrcfg .const 3) ∧ WellFormed (.wrcfg .hier 7) ∧
      WellFormed (.wrcfg .rate 7) := by decide

/-! ## Decoding: words written out bit by bit, OP then the operand field (30_encoding R90 to R95) -/

theorem test_decode_nop : decode 0b00000000_000000000000000000000000#32 = .ok .nop := by decide
theorem test_decode_reset : decode 0b00000001_000000000000000000000000#32 = .ok .reset := by decide
/-- REG 2 in bits 23:16, VAL 7 in bits 15:0. -/
theorem test_decode_wrcfg : decode 0b00000010_00000010_0000000000000111#32 = .ok (.wrcfg .hier 7) := by decide
/-- IDX 0x0C in bits 7:0. -/
theorem test_decode_rdstat : decode 0b00000011_0000000000000000_00001100#32 = .ok (.rdstat .lastTpsEvent) := by
  decide
theorem test_decode_est : decode 0b00010000_000000000000000000000000#32 = .ok .est := by decide
theorem test_decode_fft : decode 0b00010001_000000000000000000000000#32 = .ok .fft := by decide
theorem test_decode_eq : decode 0b00010010_000000000000000000000000#32 = .ok .eq := by decide
theorem test_decode_tps : decode 0b00010011_000000000000000000000000#32 = .ok .tps := by decide
theorem test_decode_demux : decode 0b00010100_000000000000000000000000#32 = .ok .demux := by decide
theorem test_decode_symbol : decode 0b00011000_000000000000000000000000#32 = .ok .symbol := by decide
/-- HX 1, X 0, Y 1. -/
theorem test_decode_vcons : decode 0b00100000_000000000000000000000_1_0_1#32 = .ok (.vcons false true) := by
  decide
/-- HX 0, Y 1. -/
theorem test_decode_vconsP : decode 0b00100000_000000000000000000000_0_0_1#32 = .ok (.vconsP true) := by decide
theorem test_decode_vflush : decode 0b00100001_000000000000000000000000#32 = .ok .vflush := by decide

/-- The illegal words of 95_test_vectors section 2. -/
theorem test_decode_illegal :
    decode 0x02010004 = .error .configValueTooWide ∧ decode 0x02040000 = .error .noSuchConfigRegister ∧
    decode 0x03000015 = .error .noSuchStatusRegister ∧ decode 0x03000120 = .error .reservedBitSet ∧
    decode 0x10000001 = .error .reservedBitSet ∧ decode 0x20000002 = .error .puncturedStepWithX ∧
    decode 0x20000008 = .error .reservedBitSet ∧ decode 0x15000000 = .error .unassignedOpcode ∧
    decode 0xFF000000 = .error .unassignedOpcode := by decide

/-- A serialised word is little-endian (20_memory R73). -/
theorem test_decodeBytes : decodeBytes [0x2C, 0x00, 0x00, 0x03] = .ok (.rdstat (.counter .vitBits)) := by decide
theorem test_decodeBytes_partial : decodeBytes [0x2C, 0x00, 0x00] = .error .notFourBytes := by decide

/-- The encodings 30_encoding R98 works out. -/
theorem test_encode : encode (.wrcfg .guard 2) = 0x02000002 ∧ encode (.rdstat (.counter .vitBits)) = 0x0300002C ∧
    encode (.vcons true false) = 0x20000006 ∧ encode (.vconsP true) = 0x20000001 := by decide

/-- An opcode-table word and the state whose next step runs it. -/
theorem test_table_word : decodeTableWord 32 0x20000006 = some (.vcons true false) ∧
    (State.reset.withFetchWord 32 0x20000006).cmd = [0x20000006] := by decide

/-- Assembler lines of 30_encoding R98 and R99. -/
theorem test_assemble : assembleLine "wrcfg guard, 2".toList = some (some 0x02000002) ∧
    assembleLine "  cfg.rate 1 ; rate".toList = some (some 0x02030001) ∧
    assembleLine "rdstat cnt_vit_bits".toList = some (some 0x0300002C) := by decide +kernel

/-! ## Small helpers -/

/-- The state after one command. -/
def after (i : Instr) (s : State) : State :=
  match exec i s with
  | .next t => t
  | _ => s

/-- A state whose stage tags all name block 1, DEMUX not having consumed it. -/
def tagged : State :=
  { State.reset with blk := { State.reset.blk with
      blkId := 1, tdId := some 1, fdId := some 1, eqId := some 1, tpsId := some 1 } }

/-- A state with `k` zero samples on the port, then EOS. -/
def withZeros (k : Nat) : State :=
  { State.reset with sample := (List.replicate k Cplx.zero).map .sample ++ [.eos] }

/-! ## One step each (95_test_vectors) -/

theorem test_nop : exec .nop State.reset = .next { State.reset with out := [.resp .ok 0] } := by rfl

/-- P3 line 10: RESET clears HALTED and the configuration. -/
theorem test_reset : (after .reset { State.reset with
    cfg := ⟨1, 1, 0, 0⟩, est := { State.reset.est with halted := true } }).cfg.guard = 0 := by decide +kernel

/-- P3 lines 8 and 9: a guard change empties the buffer. -/
theorem test_wrcfg_guard : (after (.wrcfg .guard 1)
    { State.reset with est := { State.reset.est with ebuf := [⟨1, 2⟩] } }).est.efill = 0 := by decide +kernel

/-- P3 lines 5 and 6: FLAGS and EFILL after a short read. -/
theorem test_est_short_read :
    readStatus (after .est (withZeros 5)) .flags = 0x18 ∧ readStatus (after .est (withZeros 5)) .efill = 5 := by
  decide +kernel

/-- EST-6: only EOS on the port. -/
theorem test_est_end_of_stream : (after .est (withZeros 0)).respPort = [(.endOfStream, 0)] ∧
    readStatus (after .est (withZeros 0)) .flags = 0x10 := by decide +kernel

/-- P4 line 7: CONF 0.234375 as a binary64 pattern. -/
theorem test_rdstat_conf : readStatus { State.reset with est := { State.reset.est with conf := 15 / 64 } } .conf =
    0x3FCE000000000000 := by decide +kernel

/-- P1 line 5. -/
theorem test_fft_out_of_order : (after .fft State.reset).respPort = [(.seqError, 0)] := by decide +kernel

/-- 42_equalizer R187, R330: EQ before FFT. -/
theorem test_eq_out_of_order : (after .eq State.reset).cnt.seqErr = 1 := by decide +kernel

/-- S2: TPS at position 16 goes on to 17. -/
theorem test_tps_advances : (after .tps { tagged with
    blk := { tagged.blk with tpsId := none }, tps := { tagged.tps with pos := 16, prev := [] } }).tps.pos = 17 := by
  rfl

/-- DMX-4: CFG_RATE 2. -/
theorem test_demux_config_error : (after .demux { tagged with cfg := ⟨0, 1, 0, 2⟩ }).respPort = [(.configError, 0)] ∧
    (after .demux { tagged with cfg := ⟨0, 1, 0, 2⟩ }).blk.dmxId = some 1 := by decide +kernel

/-- P3 line 4. -/
theorem test_symbol_halted : (after .symbol
    { State.reset with est := { State.reset.est with halted := true } }).respPort = [(.halted, 0)] := by
  decide +kernel

/-- A NUM whose trigonometry is never asked in these tests. -/
def testNum : NumParam := referenceNum (fun _ => 0) (fun _ => 0) (fun _ _ => 0) fun _ => ⟨0, 0⟩

/-- The decoder parameters of the VIT vectors: D 8, O 8, G 2. -/
def vitParams : Params := params2K testNum Config.snr Config.fftScale 8 8 2

/-- VIT-1: the records of slot 0 for states 0, 32 and 1. -/
theorem test_vcons_records : ringRead (vitStep vitParams true false false State.reset.vit).vit.vring 0 0 = ⟨0, 0, false⟩ ∧
    ringRead (vitStep vitParams true false false State.reset.vit).vit.vring 0 32 = ⟨0, 1, true⟩ ∧
    ringRead (vitStep vitParams true false false State.reset.vit).vit.vring 0 1 = ⟨1, 2, false⟩ := by decide +kernel

/-- VIT-2: the metrics of states 32 to 39 after `vcons 1, 1`. -/
theorem test_vcons_metrics :
    ((vitStep vitParams true true true State.reset.vit).vit.vpm.drop 32).take 8 = [0, 1, 0, 1, 0, 1, 0, 1] := by
  decide +kernel

/-- VIT-2: a punctured step leaves every metric 0. -/
theorem test_vconsP_metrics : (vitStep vitParams false false true State.reset.vit).vit.vpm = List.replicate 64 0 := by
  decide +kernel

/-- 30_encoding R113: three pending bits go out as a partial byte. -/
theorem test_vflush_partial : (after .vflush
    { State.reset with vit := { State.reset.vit with vob := [true, false, true] } }).vitPort = [⟨0xA0, 3⟩] := by
  decide +kernel

/-! ## Unit vectors -/

/-- DMX-1: 0.66 + 0.66j, as binary64 carries it, and 0.661 - 0.001j. -/
theorem test_demap_threshold : demap vitParams ⟨nlit testNum (66 / 100), nlit testNum (66 / 100)⟩ =
      ⟨false, false, true, true⟩ ∧
    demap vitParams ⟨661 / 1000, -1 / 1000⟩ = ⟨false, true, false, true⟩ := by decide +kernel
/-- DMX-1: 0 + 0j and -0.9 + 0.3j. -/
theorem test_demap_zero : demap vitParams ⟨0, 0⟩ = ⟨true, true, true, true⟩ ∧
    demap vitParams ⟨-9 / 10, 3 / 10⟩ = ⟨true, false, false, true⟩ := by decide +kernel

/-- EST-8. -/
theorem test_normalise : normalise theParams 64 (0 - 64) = -64 ∧ normalise theParams 64 (2047 - 64) = 1983 ∧
    normalise theParams 64 (2048 - 64) = -64 ∧ normalise theParams 64 (2111 - 64) = -1 := by decide
theorem test_windowStart : windowStart theParams 64 true (-64) = 49 ∧ windowStart theParams 64 true 1983 = 79 ∧
    windowStart theParams 64 true (-1) = 64 ∧ windowStart theParams 64 true 3 = 67 := by decide

/-- TPS-6. -/
theorem test_syncMatch : syncMatch theParams 0x35EE = true ∧ syncMatch theParams 0xCA11 = true ∧
    syncMatch theParams 0x35EF = false := by decide

/-- TPS-1: the event word of fixture f. -/
theorem test_decodeEvent : decodeEvent theParams (1#68 <<< 24 ||| 1#68 <<< 26 ||| 1#68 <<< 32) = 0x85 := by
  decide +kernel

/-- S10. -/
theorem test_isScattered : isScattered 1 3 = true ∧ isScattered 1 15 = true ∧ isScattered 0 12 = true ∧
    isScattered 0 3 = false := by decide

/-- FFT-2. -/
theorem test_carrierBin : carrierBin theParams 0 = 1196 ∧ carrierBin theParams 851 = 2047 ∧
    carrierBin theParams 852 = 0 ∧ carrierBin theParams 1704 = 852 := by decide

/-- VIT-3: the code pairs of the first bits of the message. -/
theorem test_convEncode : convEncode theParams 0 [true, false, true, true] =
    [(true, true), (true, false), (false, false), (true, false)] := by decide

/-- 20_memory R73: a sample's bytes, real part first, and EOS at the end of the stream. -/
theorem test_samples : samplesOfBytes [0, 0, 0, 0, 0, 0, 0xF0, 0x3F, 0, 0, 0, 0, 0, 0, 0, 0xC0, 7] =
    [.sample ⟨1, -2⟩, .eos] := by decide +kernel

/-! ## Witnesses: for every statement with hypotheses, a state and operands that meet all of them, at the
boundary of each clause -/

/-- A fill that the port serves: 4160 samples for guard code 0. -/
def served : State := { State.reset with sample := (List.replicate 4160 Cplx.zero).map .sample }

/-- The state with HALTED set. -/
def haltedState : State := { State.reset with est := { State.reset.est with halted := true } }

/-- A state whose TPS step stands at position `pos`, its vote giving 0. -/
def tpsAt (pos : Fin 68) (sync : Bool) : State :=
  { tagged with
    blk := { tagged.blk with tpsId := none }
    tps := { tagged.tps with pos := pos, prev := [], sync := sync } }

/-- A state with block 1 ready for DEMUX and a given configuration. -/
def demuxable (outValid : Bool) (cfg : CfgRegs) : State :=
  { tagged with tps := { tagged.tps with outValid := outValid }, cfg := cfg }

/-- A NUM that rounds nothing. -/
def exactNum : NumParam := { testNum with rnd := fun _ x => x }

/-- The parameters with that NUM, which holds SNR = 1 and FFT_SCALE = 1 exactly. -/
def exactParams : Params := { theParams with num := exactNum, snr := ⟨0⟩, fftScale := ⟨0⟩ }

theorem tagInv_served : TagInv served.blk := by
  intro tag h k hk
  have h' : tag ∈ [none, none, none, none, none] := h
  subst hk
  simp at h'

theorem bufSize_reset : State.reset.bufSize theParams = 4160 := rfl

theorem witness_DecodeOfEncode :
    WellFormed (.wrcfg .guard 3) ∧ WellFormed (.rdstat (.counter .vitBits)) ∧ WellFormed (.vcons true true) := by
  decide

theorem witness_StepRunsTheDecodedCommand :
    (({ State.reset with cmd := [0x02000003] } : State).hold = none ∧ decode 0x02000003 = .ok (.wrcfg .guard 3) ∧
      WellFormed (.wrcfg .guard 3)) ∧
    State.reset.hold = none ∧ State.reset.cmd = [] := by decide

theorem witness_IllegalWordAnswersIllegalCmd :
    ({ State.reset with cmd := [0x02000004, 0] } : State).hold = none ∧
      decode 0x02000004 = .error .configValueTooWide := by decide

theorem witness_EmittedItemsAndModelFaultsStay :
    ∃ t, step { State.reset with mfault := ⟨true, true⟩, cmd := [0x01000000] } = .next t := ⟨_, rfl⟩

theorem witness_WrcfgWritesItsRegister :
    (3 : BitVec 16).toNat < 2 ^ CfgReg.guard.width ∧ 2 ^ CfgReg.guard.width ≤ (4 : BitVec 16).toNat ∧
      (CfgReg.guard = .guard ∧ (3 : BitVec 16).toNat ≠ State.reset.cfg.guard.toNat) := by decide

theorem witness_RdstatAnswersTheRegister :
    ({ State.reset with est := { State.reset.est with lastA := 2 ^ 64 - 1 } } : State).est.lastA < 2 ^ 64 := by
  decide

theorem witness_Binary64ValuesReadAsTheirPattern :
    ofBinary64 1 = some (pow2 (-1074)) ∧ (1 : BitVec 64) ≠ 0x8000000000000000 ∧
      ofBinary64 0x7FEFFFFFFFFFFFFF = some (((2 ^ 53 - 1) * 2 ^ 971 : Nat) : Rat) := by decide +kernel

/-- The largest finite value is in range, and so is half the least subnormal, a tie between 0 and that value. -/
theorem witness_Binary64ValuesReadAsTheirPattern_nearest :
    |(((2 ^ 53 - 1) * 2 ^ 971 : Nat) : Rat)| < 2 ^ 1024 - 2 ^ 970 ∧ toBinary64 (pow2 (-1075)) = 0 ∧
      ofBinary64 1 = some (pow2 (-1075) + pow2 (-1075)) := by
  refine ⟨?_, by decide +kernel, by decide +kernel⟩
  rw [Nat.abs_cast]
  decide +kernel

theorem witness_HaltedRefusesTheSampleChain :
    haltedState.est.halted = true ∧ Instr.symbol ∈ [Instr.est, .fft, .eq, .tps, .demux, .symbol] := by decide

/-- The four cases: no block, no transform, a block already processed, a block already consumed. -/
theorem witness_OutOfOrderStagesAnswerSeqError :
    State.reset.est.halted = false ∧ State.reset.blk.tdId = none ∧ State.reset.blk.fdId = none ∧
    tagged.est.halted = false ∧ tagged.blk.tpsId = tagged.blk.fdId ∧ tagged.blk.fdId ≠ none ∧
    ({ tagged.blk with dmxId := some 1 } : BlockRegs).dmxId = tagged.blk.fdId := by decide

theorem witness_OnlyResetClearsTheStickyFlags :
    Instr.nop ≠ .reset ∧ ∃ t, exec .nop haltedState = .next t := ⟨by decide, _, rfl⟩

/-- A step on an illegal word, and one that resumes a waiting command with a RESET word on the port. -/
theorem witness_OnlyResetClearsTheStickyFlags_step :
    decode 0x15000000 ≠ .ok .reset ∧ (∃ t, step { haltedState with cmd := [0x15000000] } = .next t) ∧
    ({ State.reset with hold := some ⟨.est, 0⟩, cmd := [0x01000000] } : State).hold ≠ none ∧
    ∃ t, step { State.reset with hold := some ⟨.est, 0⟩, cmd := [0x01000000] } = .next t :=
  ⟨by decide, ⟨_, rfl⟩, by decide, _, rfl⟩

theorem witness_UnitsAreWrittenByTheirOwnCommands :
    (Instr.rdstat .flags ∉ [.reset, .est, .fft, .eq, .tps, .demux, .symbol, .vflush] ∧
      (∀ reg val, Instr.rdstat .flags ≠ .wrcfg reg val) ∧
      (∀ x y, Instr.rdstat .flags ≠ .vcons x y) ∧ ∀ y, Instr.rdstat .flags ≠ .vconsP y) ∧
    ∃ t, exec (.rdstat .flags) State.reset = .next t := by
  refine ⟨⟨by decide, ?_, ?_, ?_⟩, _, rfl⟩ <;> simp

/-- One sample, and one sample fewer than the fill needs. -/
theorem witness_EstAtTruncatedStreamHalts :
    (withZeros 1).est.halted = false ∧ (withZeros 1).est.eosSeen = false ∧
    (withZeros 4159).sample = (List.replicate 4159 Cplx.zero).map .sample ++ .eos :: [] ∧
    0 < (List.replicate 1 Cplx.zero).length ∧
    (withZeros 4159).est.efill + (List.replicate 4159 Cplx.zero).length < (withZeros 4159).bufSize theParams := by
  refine ⟨rfl, rfl, rfl, by simp, ?_⟩
  rw [List.length_replicate]; decide

theorem witness_EstAtEndedStreamOnlySetsEosSeen :
    (Instr.symbol = .est ∨ Instr.symbol = .symbol) ∧
    (withZeros 0).est.halted = false ∧ (withZeros 0).est.efill < (withZeros 0).bufSize theParams ∧
    (withZeros 0).est.eosSeen = false ∧ (withZeros 0).sample = .eos :: [] ∧
    ({ State.reset with est := { State.reset.est with eosSeen := true } } : State).est.eosSeen = true := by
  decide +kernel

/-- An empty port, and one sample fewer than the fill needs. -/
theorem witness_EstWaitsForSamples :
    State.reset.hold = none ∧ State.reset.est.halted = false ∧ State.reset.est.eosSeen = false ∧
    State.reset.sample = ([] : List Cplx).map .sample ∧
    State.reset.est.efill + ([] : List Cplx).length < State.reset.bufSize theParams ∧
    State.reset.est.efill + (List.replicate 4159 Cplx.zero).length < State.reset.bufSize theParams := by
  refine ⟨rfl, rfl, rfl, rfl, by decide, ?_⟩
  rw [List.length_replicate]; decide

theorem witness_WaitingCommandEndsAsIfNeverInterrupted :
    (Instr.symbol = .est ∨ Instr.symbol = .symbol) ∧ State.reset.hold = none ∧ State.reset.est.halted = false ∧
    State.reset.est.eosSeen = false ∧
    State.reset.est.efill + [Cplx.zero].length < State.reset.bufSize theParams := by decide

/-- The fill's samples on the port; and a buffer already full after the stream's end. -/
theorem witness_EstOutputsOneBlock :
    (served.est.halted = false ∧ (served.est.eosSeen = false ∨ List.replicate 4160 Cplx.zero = []) ∧
      served.sample = (List.replicate 4160 Cplx.zero).map .sample ++ [] ∧
      served.est.efill + (List.replicate 4160 Cplx.zero).length = served.bufSize theParams) ∧
    ({ State.reset.est with ebuf := List.replicate 4160 Cplx.zero, eosSeen := true } : EstState).efill =
      State.reset.bufSize theParams := by
  refine ⟨⟨rfl, .inl rfl, (List.append_nil _).symm, ?_⟩, ?_⟩
  · rw [List.length_replicate]; rfl
  · simp only [EstState.efill]; rw [List.length_replicate]; rfl

/-- The tracking clause of the estimate. -/
theorem witness_EstimateFollowsTheMetric :
    (estimate theParams { State.reset with est := { State.reset.est with conf := 1 } }).tracking = true := by
  simp only [estimate]; decide +kernel

theorem witness_TrackingAndConfidence :
    (∀ φ x, exactParams.num.rnd φ x = x) ∧ 0 < exactParams.confAlpha ∧ exactParams.confAlpha ≤ 1 ∧
    (0 : Scalar) ≤ 1 ∧ (1 : Scalar) ≤ 1 := by
  refine ⟨fun _ _ => rfl, ?_, ?_, by norm_num, le_rfl⟩ <;> decide +kernel

/-- The parameters with a NUM that rounds nothing and holds SNR and FFT_SCALE exactly, without bias: the premises of
every clause over the reals, those of O38, O39 and O44 among them. -/
theorem witness_overTheReals :
    (∀ φ x, exactParams.num.rnd φ x = x) ∧ (∀ φ x, exactNum.rnd φ x = x) ∧ 2047 < exactParams.n ∧
    exactParams.epsBias = 0 ∧
    (((exactParams.num.ofReal exactParams.snr).val : Rat) : ℝ) = Real.exp exactParams.snr.log ∧
    (((exactParams.num.ofReal exactParams.fftScale).val : Rat) : ℝ) = Real.exp exactParams.fftScale.log := by
  refine ⟨fun _ _ => rfl, fun _ _ => rfl, by decide, rfl, ?_, ?_⟩ <;>
    simp [exactParams, exactNum, testNum, referenceNum, PosRat.val]

/-- An all-zero buffer of the size of guard code 0. -/
theorem witness_EstimateFollowsTheMetric_zeros :
    ({ State.reset with est := { State.reset.est with ebuf := List.replicate 4160 Cplx.zero } } : State).est.ebuf =
      List.replicate (State.reset.bufSize theParams) Cplx.zero := rfl

theorem witness_PhaseReductions : (⟨0, -1⟩ : Cplx) ≠ Cplx.zero := by decide +kernel

/-- The three cases of Unwrap: the gap above pi either way, and the gap of exactly pi. -/
theorem witness_CarriersInterpolateTheirNeighbours_unwrap :
    exactNum.pi.val < (4 : Scalar) - 0 ∧ exactNum.pi.val < (0 : Scalar) - (-4) ∧
    exactNum.pi.val - (0 : Scalar) ≤ exactNum.pi.val ∧ (0 : Scalar) - exactNum.pi.val ≤ exactNum.pi.val ∧
    (⟨3, 0, 1⟩ : Pilot).c ≤ 3 ∧ (⟨3, 0, 1⟩ : Pilot).c < (⟨4, 0, 1⟩ : Pilot).c := by decide +kernel

theorem witness_FftTransformsTheBlock : tagged.est.halted = false ∧ tagged.blk.tdId = some 1 := by decide

theorem witness_CarrierGridIsInjective : 1704 ≤ 1704 ∧ carrierBin theParams 1704 = carrierBin theParams 1704 := by
  decide

theorem witness_EqEqualizesTheBlock : tagged.est.halted = false ∧ tagged.blk.fdId = some 1 := by decide

/-- Three ascending pilots: the first end and the last carrier inside a pair, the last pair's end, a carrier below
the first pilot and one above the last. -/
theorem witness_CarriersInterpolateTheirNeighbours :
    let ps : List Pilot := [⟨3, 0, 1⟩, ⟨6, 1, 2⟩, ⟨9, 0, 1⟩]
    List.Pairwise (fun p q : Pilot => p.c < q.c) ps ∧ ps[0]? = some ⟨3, 0, 1⟩ ∧ ps[0 + 1]? = some ⟨6, 1, 2⟩ ∧
    (3 ≤ 3 ∧ 3 < 6) ∧ (3 ≤ 5 ∧ 5 < 6) ∧ ps = [⟨3, 0, 1⟩] ++ [⟨6, 1, 2⟩, ⟨9, 0, 1⟩] ∧
    ps.head? = some ⟨3, 0, 1⟩ ∧ 2 < 3 ∧ ps.getLast? = some ⟨9, 0, 1⟩ ∧ 9 < 10 := by
  refine ⟨by simp, rfl, rfl, by omega, by omega, rfl, rfl, by omega, rfl, by omega⟩

theorem witness_EqualPilotsGiveTheirOwnValues :
    -testNum.pi.val < (0 : Scalar) ∧ (0 : Scalar) ≤ testNum.pi.val ∧ 0 < 1 ∧ 1 < 48 := by
  have := pi_pos testNum
  refine ⟨by linarith, this.le, by omega, by omega⟩

theorem witness_EqHasNoMemory :
    tagged.est.halted = false ∧ tagged.blk.fdId ≠ none ∧
    tagged.blk.fd = ({ tagged.blk with eqPh := [] } : BlockRegs).fd ∧
    (∃ t, exec .eq tagged = .next t) ∧
    ∃ t, exec .eq { tagged with blk := { tagged.blk with eqPh := [] } } = .next t :=
  ⟨rfl, by decide, rfl, ⟨_, rfl⟩, _, rfl⟩

/-- Three states for TPS: against an empty TPS_PREV at a boundary position; one whose 0 bit completes the sync
word away from position 16, so that it is matched and counts a resynchronisation; and one whose carriers split 9
to 8, under the reference NUM. -/
theorem witness_TpsProcessesOneBit :
    ((tpsAt 67 false).est.halted = false ∧ (tpsAt 67 false).blk.fdId = some 1 ∧
      (tpsAt 67 false).blk.tpsId ≠ some 1) ∧
    (let s : State := { tpsAt 0 false with tps := { (tpsAt 0 false).tps with shift := 0x1AF7 } }
     s.est.halted = false ∧ s.blk.fdId = some 1 ∧ s.blk.tpsId ≠ some 1 ∧ s.tps.pos ≠ 16 ∧
      shiftIn s.tps.shift (decide (17 - countOnes theParams.num (tpsPhasors theParams s.blk.fd) s.tps.prev <
        countOnes theParams.num (tpsPhasors theParams s.blk.fd) s.tps.prev)) = 0x35EE) ∧
    (let s : State := { tpsAt 0 false with
        blk := { (tpsAt 0 false).blk with fd := List.replicate 2048 ⟨1, 0⟩ }
        tps := { (tpsAt 0 false).tps with prev := List.replicate 9 ⟨-1, 0⟩ ++ List.replicate 8 ⟨1, 0⟩ } }
     s.est.halted = false ∧ s.blk.fdId = some 1 ∧ s.blk.tpsId ≠ some 1 ∧
      countOnes testNum (tpsPhasors theParams s.blk.fd) s.tps.prev ∈ [7, 8, 9, 10]) := by
  refine ⟨by decide, ?_, ?_⟩
  · decide +kernel
  · decide +kernel

/-- The three cases: the wrap with and without synchronisation, and the step before it. -/
theorem witness_TpsWrapEmitsOneEvent :
    ((after .tps (tpsAt 67 true)).tps.idxSym.val = 67 ∧ (after .tps (tpsAt 67 true)).tps.sync = true) ∧
    ((after .tps (tpsAt 67 false)).tps.idxSym.val = 67 ∧ (after .tps (tpsAt 67 false)).tps.sync = false) ∧
    (after .tps (tpsAt 66 true)).tps.idxSym.val ≠ 67 ∧
    exec .tps (tpsAt 67 true) = .next (after .tps (tpsAt 67 true)) ∧
    (tpsAt 67 true).blk.fdId = some 1 ∧ (tpsAt 67 true).blk.tpsId ≠ some 1 := by
  refine ⟨⟨rfl, rfl⟩, ⟨rfl, rfl⟩, ?_, rfl, rfl, by decide⟩
  rw [show (after .tps (tpsAt 66 true)).tps.idxSym.val = 66 from rfl]
  decide

theorem witness_FirstBitAfterResetIsZero :
    ({ tagged with blk := { tagged.blk with tpsId := none } } : State).blk.fdId = some 1 ∧
    ({ tagged with blk := { tagged.blk with tpsId := none } } : State).blk.tpsId ≠ some 1 ∧
    tagged.est.halted = false ∧ tagged.tps.prev = List.replicate 17 Cplx.zero := by
  refine ⟨rfl, by decide, rfl, rfl⟩

/-- Both rates, before and with OUT_VALID, FEED_BUF being empty. -/
theorem witness_DemuxCompletes : ∀ outValid : Bool, ∀ rate ∈ [(0 : BitVec 3), 1],
    (demuxable outValid ⟨0, 1, 0, rate⟩).est.halted = false ∧
    (demuxable outValid ⟨0, 1, 0, rate⟩).blk.fdId = some 1 ∧
    (demuxable outValid ⟨0, 1, 0, rate⟩).blk.eqId = some 1 ∧
    (demuxable outValid ⟨0, 1, 0, rate⟩).blk.tpsId = some 1 ∧
    (demuxable outValid ⟨0, 1, 0, rate⟩).blk.dmxId ≠ some 1 ∧
    (demuxable outValid ⟨0, 1, 0, rate⟩).cfg.const = 1 ∧ (demuxable outValid ⟨0, 1, 0, rate⟩).cfg.hier = 0 ∧
    ((demuxable outValid ⟨0, 1, 0, rate⟩).cfg.rate = 0 ∨ (demuxable outValid ⟨0, 1, 0, rate⟩).cfg.rate = 1) ∧
    (demuxable outValid ⟨0, 1, 0, rate⟩).tps.outValid = outValid ∧
    (demuxable outValid ⟨0, 1, 0, rate⟩).dmx.feedBuf = [] := by decide

/-- The three failures of the configuration check. -/
theorem witness_UnsupportedConfigurationConsumesTheBlock :
    (demuxable false ⟨0, 2, 0, 0⟩).cfg.const ≠ 1 ∧ (demuxable false ⟨0, 1, 1, 0⟩).cfg.hier ≠ 0 ∧
    ((demuxable false ⟨0, 1, 0, 2⟩).cfg.rate ≠ 0 ∧ (demuxable false ⟨0, 1, 0, 2⟩).cfg.rate ≠ 1) ∧
    (demuxable false ⟨0, 1, 0, 2⟩).blk.dmxId ≠ some 1 := by decide

theorem witness_EverySymbolHas1512Cells : ∃ t, exec .demux tagged = .next t := ⟨_, rfl⟩

/-- Both parities, at the ends of the ranges of w and j. -/
theorem witness_DeinterleaverClosedForm :
    (List.replicate 1512 (default : Cell)).length = 1512 ∧ 1511 < 1512 ∧ 3 < 4 ∧ 0 % 2 = 0 ∧ 1 % 2 = 1 ∧
    (List.replicate 1512 (default : Cell))[hq2K.getD 1511 0]? = some default ∧ hq2K[0]? = some 0 ∧
    (List.replicate 1512 (default : Cell))[0]? = some default := by
  refine ⟨List.length_replicate, by omega, by omega, rfl, rfl, ?_, by decide +kernel, ?_⟩
  · rw [List.getElem?_replicate, if_pos (by decide +kernel)]
  · rw [List.getElem?_replicate, if_pos (by omega)]

theorem witness_DeinterleaverIsBijective :
    (List.replicate 6048 false).length = 6048 ∧ (List.replicate 1512 (default : Cell)).length = 1512 :=
  ⟨List.length_replicate, List.length_replicate⟩

theorem witness_DemapperRegions : 0 < nlit testNum (66 / 100) := by decide +kernel

theorem witness_BytesArePackedMsbFirst :
    [true, false, true, false, false, false, false, true].length % 8 = 0 ∧
    7 < [true, false, true, false, false, false, false, true].length ∧
    (packBits [true, false, true, false, false, false, false, true])[7 / 8]? = some 0xA1 := by decide

theorem witness_FeederCutsWholePeriods :
    (cutBits 1 [true, true, false, true]).1[1]? = some ⟨false, false, false⟩ ∧
    (cutBits 0 [true, true, false]).1[0]? = some ⟨true, true, true⟩ := by decide

/-- The two cases of the window: one step missing, and room for more. -/
theorem witness_TrellisStepSelectsTheBetterBranch :
    ({ State.reset.vit with vcount := theParams.decisionLen + theParams.outputBits - 1 } : VitState).vcount + 1 =
      theParams.decisionLen + theParams.outputBits ∧
    State.reset.vit.vcount + 1 ≠ theParams.decisionLen + theParams.outputBits := by
  have h1 := theParams_decisionLen_pos
  have h2 := theParams_outputBits_pos
  have h3 : State.reset.vit.vcount = 0 := rfl
  constructor
  · simp only; omega
  · omega

/-- A partial byte of seven bits, the item of which has one place below its bits. -/
theorem witness_VflushEmitsEverythingPending :
    ({ State.reset with vit := { State.reset.vit with vob := List.replicate 7 true } } : State).vit.vob.length < 8 := by
  decide

theorem witness_BestStateIsLeast : ([2, 0, 0] : List Nat) ≠ [] ∧ bestState [2, 0, 0] = 1 ∧ 0 < 1 := by decide

theorem witness_PathMetricIsTheLeastDistance :
    State.reset.vit.vpm = List.replicate 64 0 ∧ [false].length = [(⟨true, true, true⟩ : FeedStep)].length := by decide

/-- A decoder with D = 1, O = 1 and no guard slot, whose ring has two slots. -/
def shortVitParams : Params := params2K testNum Config.snr Config.fftScale 1 1 0

/-- That decoder after a step, a VFLUSH and two steps, the last of which ran a traceback: the ring has wrapped. -/
def wrapped : VitState :=
  decoderRun shortVitParams [some ⟨true, true, true⟩, none, some ⟨true, true, false⟩, some ⟨false, false, true⟩]
    State.reset.vit

/-- The write pointer is 1, one step is undecided and its place is slot 0. -/
theorem witness_TracebackFollowsABestPath_window :
    VitInv shortVitParams wrapped ∧ wrapped.vw = 1 ∧ wrapped.vcount = 1 ∧ 0 < wrapped.vcount ∧
    undecidedSlot shortVitParams wrapped 0 = 0 := by
  refine ⟨⟨?_, ?_, ?_, ?_, ?_, ?_⟩, ?_⟩ <;> decide +kernel

/-- Its run: O is 1, and three steps have run since reset, of which the last one is undecided. -/
theorem witness_TracebackFollowsABestPath_run :
    1 ≤ shortVitParams.outputBits ∧
    [some (⟨true, true, true⟩ : FeedStep), none, some ⟨true, true, false⟩, some ⟨false, false, true⟩].reduceOption.length = 3 ∧
    (decidedBits shortVitParams wrapped).length = 1 := by decide +kernel

/-- A window just full. -/
theorem witness_TracebackFollowsABestPath :
    State.reset.vit.vpm = List.replicate 64 0 ∧ State.reset.vit.vring = [] ∧ State.reset.vit.vw = 0 ∧
    State.reset.vit.vcount = 0 ∧
    (List.replicate 16 (⟨true, true, false⟩ : FeedStep)).length ≤ vitParams.decisionLen + vitParams.outputBits ∧
    0 < vitParams.depth := by decide

theorem witness_SymbolRunsTheFiveStages :
    TagInv served.blk ∧ served.est.halted = false ∧
    (served.est.eosSeen = false ∨ List.replicate 4160 Cplx.zero = []) ∧
    served.sample = (List.replicate 4160 Cplx.zero).map .sample ++ [] ∧
    served.est.efill + (List.replicate 4160 Cplx.zero).length = served.bufSize theParams ∧
    served.cfg.const = 1 ∧ served.cfg.hier = 0 ∧ (served.cfg.rate = 0 ∨ served.cfg.rate = 1) := by
  refine ⟨?_, rfl, .inl rfl, (List.append_nil _).symm, ?_, rfl, rfl, .inl rfl⟩
  · exact tagInv_served
  · rw [List.length_replicate]; rfl

/-- A stage list that EST starts with OK, and an EST that ends otherwise. -/
theorem witness_SymbolStagesAreNeverOutOfOrder :
    TagInv served.blk ∧ (∃ s1, estBody theParams served = .done .ok s1) ∧
    (∃ t, exec .symbol served = .next t) ∧ estBody theParams haltedState = .done .halted haltedState := by
  refine ⟨tagInv_served, ?_, ⟨_, rfl⟩, rfl⟩
  have h : fill theParams 0 served = .full (served.filled (List.replicate 4160 Cplx.zero) []) := by
    refine fillLoop_full (.inl rfl) (List.append_nil _).symm ?_
    rw [List.length_replicate]; rfl
  rcases estBody_cases theParams served with ⟨h', -⟩ | ⟨-, h'⟩
  · exact absurd h' (by decide)
  · exact ⟨_, by rw [h', estFrom, h]⟩

/-- An unsupported configuration of each kind, with the fill's samples on the port. -/
theorem witness_SymbolStagesAreNeverOutOfOrder_config : ∀ cfg ∈ [(⟨0, 2, 0, 0⟩ : CfgRegs), ⟨0, 1, 7, 0⟩, ⟨0, 1, 0, 2⟩],
    (cfg.const ≠ 1 ∨ cfg.hier ≠ 0 ∨ (cfg.rate ≠ 0 ∧ cfg.rate ≠ 1)) ∧ TagInv ({ served with cfg := cfg } : State).blk ∧
    ∃ s1, estBody theParams { served with cfg := cfg } = .done .ok s1 := by
  intro cfg hc
  have hg : cfg.guard = 0 := by revert cfg; decide
  refine ⟨by revert cfg; decide, tagInv_served, ?_⟩
  have h : fill theParams 0 { served with cfg := cfg } =
      .full (State.filled { served with cfg := cfg } (List.replicate 4160 Cplx.zero) []) := by
    refine fillLoop_full (.inl rfl) (List.append_nil _).symm ?_
    rw [List.length_replicate, State.bufSize, hg]; rfl
  rcases estBody_cases theParams { served with cfg := cfg } with ⟨h', -⟩ | ⟨-, h'⟩
  · exact absurd h' Bool.false_ne_true
  · exact ⟨_, by rw [h', estFrom, h]⟩

/-- A tag at the newest block. -/
theorem witness_StepKeepsTheStageTags : TagInv tagged.blk ∧ ∃ t, step tagged = .next t := by
  refine ⟨fun tag h k hk => ?_, _, rfl⟩
  have h' : tag ∈ [some 1, some 1, some 1, some 1, none] := h
  show k ≤ 1
  subst hk
  simp at h'
  omega

/-- A decoder with seven bits in its partial byte. -/
theorem witness_StepKeepsTheDecoderInvariant :
    VitInv theParams { State.reset.vit with vob := List.replicate 7 true } ∧
    ∃ t, step { State.reset with vit := { State.reset.vit with vob := List.replicate 7 true } } = .next t := by
  have h1 := theParams_decisionLen_pos
  have h2 := theParams_window_le_depth
  refine ⟨⟨by decide, by decide, ?_, ?_, by decide, ?_⟩, _, rfl⟩
  · show 0 < theParams.depth; omega
  · show 0 < theParams.decisionLen + theParams.outputBits; omega
  · intro k hk; exact absurd hk (Nat.not_lt_zero k)

/-- An estimator at the upper ends of LAST_ARGMAX and LAST_A. -/
theorem witness_StepKeepsTheEstimatorInvariant :
    EstInv theParams { State.reset with est := { State.reset.est with lastArgmax := 2559, lastA := 2047 } } ∧
    ∃ t, step { State.reset with est := { State.reset.est with lastArgmax := 2559, lastA := 2047 } } = .next t := by
  refine ⟨⟨?_, le_rfl, twoPi_pos _, ?_, ?_⟩, _, rfl⟩ <;> decide

/-- A demux at the upper ends of ANOMALY_LAST and FEED_BUF. -/
theorem witness_StepKeepsTheArrayInvariant :
    ArrayInv theParams { State.reset with dmx := ⟨1705, [true, false]⟩ } ∧
    ∃ t, step { State.reset with dmx := ⟨1705, [true, false]⟩ } = .next t := by
  refine ⟨⟨?_, ?_, ?_, ?_, ?_, ?_, ?_, ?_⟩, _, rfl⟩
  · intro h; exact absurd rfl h
  · intro h; exact absurd rfl h
  · intro h; exact absurd rfl h
  · exact List.length_replicate
  · exact List.length_replicate
  · exact List.length_replicate
  · decide
  · decide

/-- A NUM that rounds nothing, at the last position that has a next one. -/
theorem witness_WindowSumsAreExactOverTheReals :
    (∀ φ x, exactParams.num.rnd φ x = x) ∧ 2110 < exactParams.n + 64 ∧ 2110 + 1 < exactParams.n + 64 := by
  refine ⟨fun _ _ => rfl, ?_, ?_⟩ <;> decide

end Sys2Proof.Tests
end

section
/-! Waiting commands (00_scope R11): a fill cut in two by a wait is the fill of all its samples, so a resumed
EST or SYMBOL goes on where the uninterrupted one stands. -/

namespace Sys2Proof.Machine

theorem State.efill_filled (s : State) (zs : List Cplx) (rest : List SampleItem) :
    (s.filled zs rest).est.efill = s.est.efill + zs.length := by
  simp [State.filled, EstState.efill]

/-- A fill that starts with `zs` is the fill that has already taken them. -/
theorem fill_samples {P : Params} {got : Nat} {s : State} {zs : List Cplx} {rest : List SampleItem}
    (he : s.est.eosSeen = false) (hs : s.sample = zs.map .sample ++ rest)
    (hl : s.est.efill + zs.length ≤ s.bufSize P) :
    fill P got s = fill P (got + zs.length) (s.filled zs rest) := by
  have hb : (s.filled zs rest).bufSize P = s.bufSize P := rfl
  rw [fill, fill, hb, State.efill_filled, ← Nat.sub_sub]
  exact fillLoop_samples zs _ got s rest he hs (by omega)

theorem estBody_of_not_halted (P : Params) {s : State} (hh : s.est.halted = false) :
    estBody P s = estFrom P 0 s :=
  if_neg (by simp [hh])

/-- The body of EST with `zs` at the head of the port goes on as from a fill that has taken them. -/
theorem estBody_samples {P : Params} {s : State} {zs : List Cplx} {rest : List SampleItem}
    (hh : s.est.halted = false) (he : s.est.eosSeen = false) (hs : s.sample = zs.map .sample ++ rest)
    (hl : s.est.efill + zs.length ≤ s.bufSize P) :
    estBody P s = estFrom P zs.length (s.filled zs rest) := by
  have hfill : fill P 0 s = fill P zs.length (s.filled zs rest) := by
    simpa using fill_samples (got := 0) he hs hl
  rw [estBody_of_not_halted P hh]
  simp only [estFrom, hfill]

/-- With too few samples and no EOS the body of EST takes what the port holds and waits (10_state R52). -/
theorem estBody_held {P : Params} {s : State} {zs : List Cplx}
    (hh : s.est.halted = false) (he : s.est.eosSeen = false) (hs : s.sample = zs.map .sample)
    (hl : s.est.efill + zs.length < s.bufSize P) :
    estBody P s = .held zs.length (s.filled zs []) := by
  have hfill : fill P 0 s = .held zs.length (s.filled zs []) := by
    simpa [fill] using fillLoop_held (got := 0) he hs (show zs.length < s.bufSize P - s.est.efill by omega)
  rw [estBody_of_not_halted P hh]
  simp only [estFrom, hfill]

/-- EST and SYMBOL differ only in what they do once the body of EST has ended or waits. -/
def finishHoldCmd (P : Params) : HoldCmd → EstEnd → State
  | .est => finishEst
  | .symbol => finishSymbol P

theorem finishHoldCmd_held (P : Params) (c : HoldCmd) (got : Nat) (s : State) :
    finishHoldCmd P c (.held got s) = { s with hold := some ⟨c, got⟩ } := by
  cases c <;> rfl

theorem resumeHold_eq_finishHoldCmd (P : Params) (h : Hold) (s : State) :
    resumeHold P h s = finishHoldCmd P h.cmd (estFrom P h.got { s with hold := none }) := by
  obtain ⟨c, got⟩ := h
  cases c <;> rfl

theorem exec_eq_finishHoldCmd {i : Instr} (hi : i = .est ∨ i = .symbol) :
    ∃ c, ∀ s, exec i s = .next (finishHoldCmd theParams c (estBody theParams s)) := by
  rcases hi with rfl | rfl
  · exact ⟨.est, fun _ => rfl⟩
  · exact ⟨.symbol, fun _ => rfl⟩

theorem step_of_hold {s : State} {h : Hold} (hs : s.hold = some h) :
    step s = .next (finishHoldCmd theParams h.cmd (estFrom theParams h.got { s with hold := none })) := by
  rw [step, hs, ← resumeHold_eq_finishHoldCmd]

/-- Clearing the hold gives the state of the uninterrupted fill, in which nothing was held. -/
theorem step_of_waiting {s : State} (hs : s.hold = none) (c : HoldCmd) (got : Nat) (zs : List Cplx)
    (more : List SampleItem) :
    step { s.filled zs [] with hold := some ⟨c, got⟩, sample := more } =
      .next (finishHoldCmd theParams c (estFrom theParams got (s.filled zs more))) := by
  have hcleared : ({ s.filled zs more with hold := none } : State) = s.filled zs more := by
    rw [← hs]; rfl
  rw [← hcleared]
  exact step_of_hold (h := ⟨c, got⟩) rfl

/-- Settles O22: the resumed fill and the uninterrupted one reach the same state after the samples `zs`. -/
theorem waitingCommandEndsAsIfNeverInterrupted : Obligations.WaitingCommandEndsAsIfNeverInterrupted := by
  intro i s zs more hi hhold hhalted heos hl
  obtain ⟨c, hexec⟩ := exec_eq_finishHoldCmd hi
  have hheld : estBody theParams { s with sample := zs.map .sample } = .held zs.length (s.filled zs []) :=
    estBody_held hhalted heos rfl hl
  have hwhole : estBody theParams { s with sample := zs.map .sample ++ more } =
      estFrom theParams zs.length (s.filled zs more) :=
    estBody_samples hhalted heos rfl hl.le
  refine ⟨{ s.filled zs [] with hold := some ⟨c, zs.length⟩ }, ?_, Option.some_ne_none _, ?_⟩
  · rw [hexec, hheld, finishHoldCmd_held]
  · rw [hexec, hwhole]
    exact step_of_waiting hhold c zs.length zs more

end Sys2Proof.Machine
end

section
/-! Phases (00_scope R9, 40_estimator R143): the reductions modulo 2 pi subtract a multiple of 2 pi, and the
angle is one of them. Their ranges are `modTwoPi_range` and `wrap_range`. -/

namespace Sys2Proof.Machine

theorem modTwoPi_congruent (A : NumParam) (t : Scalar) :
    ∃ k : Int, t = modTwoPi A t + k * (2 * A.pi.val) := by
  refine ⟨(t / twoPi A).floor, ?_⟩
  rw [modTwoPi, ← twoPi]
  ring

theorem wrap_congruent (A : NumParam) (t : Scalar) : ∃ k : Int, t = wrap A t + k * (2 * A.pi.val) := by
  refine ⟨((t - A.pi.val) / twoPi A).ceil, ?_⟩
  rw [wrap, ← twoPi]
  ring

theorem angle_zero (A : NumParam) : angle A Cplx.zero = 0 := if_pos ⟨rfl, rfl⟩

theorem angle_of_ne_zero (A : NumParam) {z : Cplx} (hz : z ≠ Cplx.zero) :
    angle A z = wrap A (A.atan2 z.im z.re) := by
  refine if_neg fun ⟨hre, him⟩ => hz ?_
  obtain ⟨re, im⟩ := z
  subst hre him
  rfl

/-- The angle is in (-pi, pi]. -/
theorem angle_range (A : NumParam) (z : Cplx) : -A.pi.val < angle A z ∧ angle A z ≤ A.pi.val := by
  by_cases hz : z = Cplx.zero
  · have hpi := pi_pos A
    rw [hz, angle_zero]
    exact ⟨neg_neg_of_pos hpi, hpi.le⟩
  · rw [angle_of_ne_zero A hz]
    exact wrap_range A _

/-- Settles O26: each reduction's range, and the multiple of 2 pi that it takes away. -/
theorem phaseReductions : Obligations.PhaseReductions := by
  intro A x z
  obtain ⟨hmodLow, hmodHigh⟩ := modTwoPi_range A x
  obtain ⟨hwrapLow, hwrapHigh⟩ := wrap_range A x
  refine ⟨⟨hmodLow, hmodHigh, modTwoPi_congruent A x⟩, ⟨hwrapLow, hwrapHigh, wrap_congruent A x⟩,
    angle_zero A, angle_range A z, fun hz => ?_⟩
  rw [angle_of_ne_zero A hz]
  exact wrap_congruent A _

end Sys2Proof.Machine
end

section
/-! Steps (10_state R51, R52): everything a step can be, and the changes that steps are made of. A property of
states that every change keeps is kept by every step. -/

namespace Sys2Proof.Machine

/-! ## What a step can be -/

theorem step_of_empty {s : State} (hs : s.hold = none) (hc : s.cmd = []) : step s = .next s := by
  simp only [step, hs, fetchWord, hc]

theorem step_of_legal {s : State} {w : Word} {rest : List Word} {i : Instr} (hs : s.hold = none)
    (hc : s.cmd = w :: rest) (hd : decode w = .ok i) : step s = exec i { s with cmd := rest } := by
  simp only [step, hs, fetchWord, hc, hd]

theorem step_of_illegal {s : State} {w : Word} {rest : List Word} {e : Illegal} (hs : s.hold = none)
    (hc : s.cmd = w :: rest) (hd : decode w = .error e) :
    step s = .next (respondCondition .illegalCmd { s with cmd := rest }) := by
  simp only [step, hs, fetchWord, hc, hd]

/-- Everything a step can be: a waiting command that goes on, nothing, a command, or an illegal word. -/
theorem step_cases {s t : State} (h : step s = .next t) :
    (∃ held, s.hold = some held ∧
      t = finishHoldCmd theParams held.cmd (estFrom theParams held.got { s with hold := none })) ∨
    (s.hold = none ∧ s.cmd = [] ∧ t = s) ∨
    (∃ w rest i, s.hold = none ∧ s.cmd = w :: rest ∧ decode w = .ok i ∧ exec i { s with cmd := rest } = .next t) ∨
    (∃ w rest e, s.hold = none ∧ s.cmd = w :: rest ∧ decode w = .error e ∧
      t = respondCondition .illegalCmd { s with cmd := rest }) := by
  obtain hs | ⟨held, hs⟩ := s.hold.eq_none_or_eq_some
  · cases hc : s.cmd with
    | nil =>
      rw [step_of_empty hs hc] at h
      cases h
      exact .inr (.inl ⟨hs, rfl, rfl⟩)
    | cons w rest =>
      cases hd : decode w with
      | ok i =>
        rw [step_of_legal hs hc hd] at h
        exact .inr (.inr (.inl ⟨w, rest, i, hs, rfl, hd, h⟩))
      | error e =>
        rw [step_of_illegal hs hc hd] at h
        cases h
        exact .inr (.inr (.inr ⟨w, rest, e, hs, rfl, hd, rfl⟩))
  · rw [step_of_hold hs] at h
    cases h
    exact .inl ⟨held, hs, rfl⟩

/-- Settles O4. -/
theorem stepRunsTheDecodedCommand : Obligations.StepRunsTheDecodedCommand :=
  ⟨fun _ _ _ _ hs hc hd _ => step_of_legal hs hc hd, fun _ hs hc => step_of_empty hs hc⟩

/-! ## The changes a step is made of -/

/-- One change of the state: a stage body, a decoder operation, or a single effect of a control command. -/
inductive Change : State → State → Prop
  | respond (s : State) (code : Status) (data : BitVec 64) : Change s (s.respond code data)
  | hold (s : State) (h : Option Hold) : Change s { s with hold := h }
  | takeWord (s : State) (rest : List Word) : Change s { s with cmd := rest }
  | illegal (s : State) : Change s (s.count .illegal 1)
  | config (s : State) (reg : CfgReg) (val : BitVec 16) : Change s (writeConfig reg val s)
  | est (s : State) (got : Nat) : Change s (estFrom theParams got s).state
  | fft (s : State) : Change s (fftBody theParams s).2
  | eq (s : State) : Change s (eqBody theParams s).2
  | tps (s : State) : Change s (tpsBody theParams s).2
  | demux (s : State) : Change s (demuxBody theParams s).2
  | trellis (s : State) (hasX x y : Bool) : Change s (s.trellisStep theParams hasX x y)
  | flush (s : State) : Change s (s.withVit (vitFlush theParams s.vit))

/-- Any number of changes, one after the other. -/
def Changes : State → State → Prop := Relation.ReflTransGen Change

namespace Changes

theorem refl (s : State) : Changes s s := Relation.ReflTransGen.refl

theorem one {s t : State} (h : Change s t) : Changes s t := .single h

theorem trans {s t u : State} (h : Changes s t) (k : Changes t u) : Changes s u :=
  Relation.ReflTransGen.trans h k

theorem respond {s t : State} (h : Changes s t) (code : Status) (data : BitVec 64) :
    Changes s (t.respond code data) := h.tail (.respond t code data)

/-- A reflexive and transitive relation that every change keeps is kept by any number of them. -/
theorem lift {R : State → State → Prop} (hr : ∀ s, R s s) (ht : ∀ s t u, R s t → R t u → R s u)
    (hc : ∀ s t, Change s t → R s t) {s t : State} (h : Changes s t) : R s t := by
  induction h with
  | refl => exact hr s
  | tail _ hlast ih => exact ht _ _ _ ih (hc _ _ hlast)

/-- A property that every change keeps is kept by any number of them. -/
theorem keeps {I : State → Prop} (hc : ∀ s t, Change s t → I s → I t) {s t : State} (h : Changes s t) :
    I s → I t :=
  lift (R := fun s t => I s → I t) (fun _ => id) (fun _ _ _ h k => k ∘ h) hc h

theorem laterStages (s : State) : Changes s (runStages (laterStages theParams) s).2 := by
  refine runStages_induction Changes refl (fun _ _ _ => trans) _ ?_ s
  simp only [Machine.laterStages, List.mem_cons, List.not_mem_nil, or_false]
  rintro _ (rfl | rfl | rfl | rfl) s
  · exact one (.fft s)
  · exact one (.eq s)
  · exact one (.tps s)
  · exact one (.demux s)

/-- What follows the body of EST, in EST and in SYMBOL. -/
theorem finishHoldCmd (c : HoldCmd) (e : EstEnd) : Changes e.state (finishHoldCmd theParams c e) := by
  cases e with
  | held got s =>
    rw [finishHoldCmd_held]
    exact one (.hold s _)
  | done code s =>
    cases c with
    | est => exact (refl s).respond code 0
    | symbol =>
      cases code with
      | ok => exact (laterStages s).respond _ 0
      | _ => exact (refl s).respond _ 0

theorem estBody (s : State) : Changes s (estBody theParams s).state := by
  rcases estBody_cases theParams s with ⟨-, h⟩ | ⟨-, h⟩ <;> rw [h]
  · exact refl s
  · exact one (.est s 0)

theorem resumed (h : Hold) (s : State) :
    Changes s (Machine.finishHoldCmd theParams h.cmd (estFrom theParams h.got { s with hold := none })) :=
  ((one (.hold s none)).trans (one (.est _ h.got))).trans (finishHoldCmd h.cmd _)

theorem execHoldCmd {i : Instr} (hi : i = .est ∨ i = .symbol) {s t : State} (h : exec i s = .next t) :
    Changes s t := by
  obtain ⟨c, hexec⟩ := exec_eq_finishHoldCmd hi
  rw [hexec] at h
  cases h
  exact (estBody s).trans (finishHoldCmd c _)

/-- Every command but RESET. -/
theorem exec {i : Instr} {s t : State} (hi : i ≠ .reset) (h : exec i s = .next t) : Changes s t := by
  cases i with
  | reset => exact absurd rfl hi
  | est => exact execHoldCmd (.inl rfl) h
  | symbol => exact execHoldCmd (.inr rfl) h
  | nop => cases h; exact (refl s).respond .ok 0
  | rdstat idx => cases h; exact (refl s).respond .ok _
  | fft => cases h; exact (one (.fft s)).respond _ 0
  | eq => cases h; exact (one (.eq s)).respond _ 0
  | tps => cases h; exact (one (.tps s)).respond _ 0
  | demux => cases h; exact (one (.demux s)).respond _ 0
  | vcons x y => cases h; exact (one (.trellis s true x y)).respond .ok 0
  | vconsP y => cases h; exact (one (.trellis s false false y)).respond .ok 0
  | vflush => cases h; exact (one (.flush s)).respond .ok 0
  | wrcfg reg val =>
    cases h
    split
    · exact (one (.config s reg val)).respond .ok 0
    · exact (one (.illegal s)).respond .illegalCmd 0

end Changes

/-- A step takes a RESET word, or it is made of changes. -/
theorem step_resets_or_changes {s t : State} (h : step s = .next t) :
    (∃ w rest, s.hold = none ∧ s.cmd = w :: rest ∧ decode w = .ok .reset ∧
      t = State.respond ({ s with cmd := rest } : State).resetChannel .ok 0) ∨ Changes s t := by
  rcases step_cases h with
    ⟨held, -, rfl⟩ | ⟨-, -, rfl⟩ | ⟨w, rest, i, hs, hc, hd, he⟩ | ⟨w, rest, e, -, -, -, rfl⟩
  · exact .inr (.resumed held s)
  · exact .inr (.refl t)
  · by_cases hi : i = .reset
    · subst hi
      cases he
      exact .inl ⟨w, rest, hs, hc, hd, rfl⟩
    · exact .inr ((Changes.one (.takeWord s rest)).trans (.exec hi he))
  · exact .inr (((Changes.one (.takeWord s rest)).trans (.one (.illegal _))).respond .illegalCmd 0)

/-- A property of states that RESET and every change keep is kept by every step. -/
theorem step_keeps {I : State → Prop} (hreset : ∀ (s : State) code data, I (s.resetChannel.respond code data))
    (hc : ∀ s t, Change s t → I s → I t) {s t : State} (h : step s = .next t) (hi : I s) : I t := by
  rcases step_resets_or_changes h with ⟨w, rest, -, -, -, rfl⟩ | hch
  · exact hreset _ .ok 0
  · exact hch.keeps hc hi

/-! ## Outputs, model faults and sticky flags -/

/-- From `s` to `t` no emitted item is taken back and no model fault is cleared (10_state R57, 20_memory R87). -/
def Emits (s t : State) : Prop :=
  s.out <+: t.out ∧ (s.mfault.preZeroAmp → t.mfault.preZeroAmp) ∧ (s.mfault.preInstance → t.mfault.preInstance)

/-- From `s` to `t` no sticky flag is cleared (10_state R29, R33). -/
def KeepsFlags (s t : State) : Prop :=
  (s.tps.sync → t.tps.sync) ∧ (s.tps.outValid → t.tps.outValid) ∧ (s.tps.eventSeen → t.tps.eventSeen) ∧
    (s.est.halted → t.est.halted) ∧ (s.est.eosSeen → t.est.eosSeen)

theorem Emits.of_eq {s t : State} (ho : t.out = s.out) (hm : t.mfault = s.mfault) : Emits s t :=
  ⟨by rw [ho], by rw [hm]; exact id, by rw [hm]; exact id⟩

theorem Emits.trans {s t u : State} (h : Emits s t) (k : Emits t u) : Emits s u := by
  obtain ⟨ho, hz, hi⟩ := h
  obtain ⟨ko, kz, ki⟩ := k
  exact ⟨ho.trans ko, kz ∘ hz, ki ∘ hi⟩

theorem Emits.respond (s : State) (code : Status) (data : BitVec 64) : Emits s (s.respond code data) :=
  ⟨⟨[.resp code data], rfl⟩, id, id⟩

theorem KeepsFlags.of_eq {s t : State} (ht : t.tps = s.tps) (hh : t.est.halted = s.est.halted)
    (he : t.est.eosSeen = s.est.eosSeen) : KeepsFlags s t := by
  simp only [KeepsFlags, ht, hh, he]
  exact ⟨id, id, id, id, id⟩

theorem KeepsFlags.trans {s t u : State} (h : KeepsFlags s t) (k : KeepsFlags t u) : KeepsFlags s u := by
  obtain ⟨h1, h2, h3, h4, h5⟩ := h
  obtain ⟨k1, k2, k3, k4, k5⟩ := k
  exact ⟨k1 ∘ h1, k2 ∘ h2, k3 ∘ h3, k4 ∘ h4, k5 ∘ h5⟩

theorem BodyFrame.emits {s t : State} (h : BodyFrame s t) : Emits s t := by
  obtain ⟨items, ho, -⟩ := h.out
  exact ⟨⟨items, ho.symm⟩, h.preZeroAmp, by rw [h.preInstance]; exact id⟩

theorem BodyFrame.keepsFlags {s t : State} (h : BodyFrame s t) : KeepsFlags s t :=
  ⟨h.sync, h.outValid, h.eventSeen, h.halted, h.eosSeen⟩

/-- WRCFG changes the configuration, EBUF and CONF alone (46_control R312). -/
theorem writeConfig_eq (reg : CfgReg) (val : BitVec 16) (s : State) :
    ∃ ebuf conf, writeConfig reg val s =
      { s with cfg := s.cfg.write reg val, est := { s.est with ebuf := ebuf, conf := conf } } := by
  unfold writeConfig
  split
  · exact ⟨[], 0, rfl⟩
  · exact ⟨s.est.ebuf, s.est.conf, rfl⟩

theorem Change.emits_and_keepsFlags {s t : State} (h : Change s t) : Emits s t ∧ KeepsFlags s t := by
  have body {u : State} (h : BodyFrame s u) : Emits s u ∧ KeepsFlags s u := ⟨h.emits, h.keepsFlags⟩
  cases h with
  | respond code data => exact ⟨.respond s code data, .of_eq rfl rfl rfl⟩
  | hold h => exact ⟨.of_eq rfl rfl, .of_eq rfl rfl rfl⟩
  | takeWord rest => exact ⟨.of_eq rfl rfl, .of_eq rfl rfl rfl⟩
  | illegal => exact body (.count s _ _)
  | config reg val =>
    obtain ⟨ebuf, conf, h⟩ := writeConfig_eq reg val s
    rw [h]
    exact ⟨.of_eq rfl rfl, .of_eq rfl rfl rfl⟩
  | est got => exact body (estFrom_frame theParams got s)
  | fft => exact body (fftBody_frame theParams s)
  | eq => exact body (eqBody_frame theParams s)
  | tps => exact body (tpsBody_frame theParams s)
  | demux => exact body (demuxBody_frame theParams s)
  | trellis hasX x y => exact body (.withVit s _)
  | flush => exact body (.withVit s _)

theorem Changes.emits {s t : State} (h : Changes s t) : Emits s t :=
  h.lift (fun _ => .of_eq rfl rfl) (fun _ _ _ => .trans) fun _ _ hc => hc.emits_and_keepsFlags.1

theorem Changes.keepsFlags {s t : State} (h : Changes s t) : KeepsFlags s t :=
  h.lift (fun _ => .of_eq rfl rfl rfl) (fun _ _ _ => .trans) fun _ _ hc => hc.emits_and_keepsFlags.2

/-- Settles O7: a step that takes a RESET word only adds its response, any other is made of changes. -/
theorem emittedItemsAndModelFaultsStay : Obligations.EmittedItemsAndModelFaultsStay := by
  intro s t h
  rcases step_resets_or_changes h with ⟨w, rest, -, -, -, rfl⟩ | hch
  · exact Emits.trans (.of_eq rfl rfl) (.respond _ .ok 0)
  · exact hch.emits

/-- Settles O17: a step that takes no RESET word is made of changes, and so is every command but RESET. -/
theorem onlyResetClearsTheStickyFlags : Obligations.OnlyResetClearsTheStickyFlags := by
  refine ⟨fun s t hno h => ?_, fun i s t hi h => (Changes.exec hi h).keepsFlags⟩
  rcases step_resets_or_changes h with ⟨w, rest, hs, hc, hd, -⟩ | hch
  · exact absurd hd (hno w rest hs hc)
  · exact hch.keepsFlags

end Sys2Proof.Machine
end

section
/-! Units (10_state R61): the parts of the state that have writers of their own, what it means that one stays as it
is, and which part each stage body and each command leaves alone. -/

namespace Sys2Proof.Machine

/-! ## Parts -/

/-- The parts of the state by their writers (10_state R61). -/
inductive Part where
  /-- the CMD port -/
  | port
  | config
  /-- the whole estimator, EBUF and CONF among it -/
  | buffer
  /-- the estimator without EBUF and CONF, and what EST extracts -/
  | estimator
  | spectrum
  | equalizer
  | tps
  | demux
  | decoder
  /-- CNT_SEQ_ERR -/
  | sequence

/-- The part a health counter belongs to. -/
def Part.ofCounter : Counter → Part
  | .symbols => .estimator
  | .acq => .estimator
  | .anomalyTotal => .demux
  | .qualityWarn => .demux
  | .splitVote => .tps
  | .resync => .tps
  | .consist => .demux
  | .configErr => .demux
  | .seqErr => .sequence
  | .illegal => .config
  | .tpsEvents => .tps
  | .dmxOut => .demux
  | .vitBits => .decoder

/-- The other fields and the output port of a part are in `t` as they were in `s`. -/
def Part.SameFields : Part → State → State → Prop
  | .port, s, t => t.cmd = s.cmd
  | .config, s, t => t.cfg = s.cfg
  | .buffer, s, t => t.est = s.est
  | .estimator, s, t =>
    t.est = { s.est with ebuf := t.est.ebuf, conf := t.est.conf } ∧
      t.blk.td = s.blk.td ∧ t.blk.tdId = s.blk.tdId ∧ t.blk.blkId = s.blk.blkId ∧ t.sample = s.sample ∧
      t.hold = s.hold
  | .spectrum, s, t => t.blk.fd = s.blk.fd ∧ t.blk.fdId = s.blk.fdId
  | .equalizer, s, t =>
    t.blk.eqPh = s.blk.eqPh ∧ t.blk.eqAmp = s.blk.eqAmp ∧ t.blk.eqb = s.blk.eqb ∧ t.blk.eqId = s.blk.eqId ∧
      t.mfault = s.mfault ∧ t.draws = s.draws
  | .tps, s, t => t.tps = s.tps ∧ t.blk.tpsId = s.blk.tpsId ∧ t.tpsPort = s.tpsPort
  | .demux, s, t => t.dmx = s.dmx ∧ t.blk.dmxId = s.blk.dmxId ∧ t.dmxPort = s.dmxPort
  | .decoder, s, t => t.vit = s.vit ∧ t.vitPort = s.vitPort
  | .sequence, _, _ => True

/-- The items of a part's output port. -/
def Part.Emits : Part → OutItem → Prop
  | .tps, .tpsEvt _ => True
  | .demux, .dmx _ => True
  | .decoder, .vit _ => True
  | _, _ => False

/-- A part is in `t` as it was in `s`. -/
structure Same (p : Part) (s t : State) : Prop where
  counters : ∀ c, Part.ofCounter c = p → t.cnt.get c = s.cnt.get c
  fields : p.SameFields s t

/-- The commands other than RESET that write a part (10_state R61, 43_tps R207). -/
def Part.WrittenBy : Part → Instr → Prop
  | .port, _ => False
  | .config, i => ∃ reg val, i = .wrcfg reg val
  | .buffer, i => i = .est ∨ i = .symbol ∨ ∃ reg val, i = .wrcfg reg val
  | .estimator, i => i = .est ∨ i = .symbol
  | .spectrum, i => i = .fft ∨ i = .symbol
  | .equalizer, i => i = .eq ∨ i = .symbol
  | .tps, i => i = .tps ∨ i = .symbol
  | .demux, i => i = .demux ∨ i = .symbol
  | .decoder, i => (∃ x y, i = .vcons x y) ∨ (∃ y, i = .vconsP y) ∨ i = .vflush ∨ i = .demux ∨ i = .symbol
  | .sequence, i => i ∈ [.fft, .eq, .tps, .demux, .symbol]

/-! ## Items of other ports -/

theorem State.tpsPort_of_append {s t : State} {items : List OutItem} (h : t.out = s.out ++ items)
    (hn : ∀ w, .tpsEvt w ∉ items) : t.tpsPort = s.tpsPort := by
  rw [State.tpsPort_append h, List.append_right_eq_self, State.tpsPort, List.filterMap_eq_nil_iff]
  intro it hit
  cases it with
  | tpsEvt w => exact absurd hit (hn w)
  | _ => rfl

theorem State.dmxPort_of_append {s t : State} {items : List OutItem} (h : t.out = s.out ++ items)
    (hn : ∀ b, .dmx b ∉ items) : t.dmxPort = s.dmxPort := by
  rw [State.dmxPort_append h, List.append_right_eq_self, State.dmxPort, List.filterMap_eq_nil_iff]
  intro it hit
  cases it with
  | dmx b => exact absurd hit (hn b)
  | _ => rfl

theorem State.vitPort_of_append {s t : State} {items : List OutItem} (h : t.out = s.out ++ items)
    (hn : ∀ v, .vit v ∉ items) : t.vitPort = s.vitPort := by
  rw [State.vitPort_append h, List.append_right_eq_self, State.vitPort, List.filterMap_eq_nil_iff]
  intro it hit
  cases it with
  | vit v => exact absurd hit (hn v)
  | _ => rfl

/-! ## What leaves a part as it is -/

namespace Same

variable {p : Part} {s t u : State}

theorem refl (p : Part) (s : State) : Same p s s := by
  refine ⟨fun _ _ => rfl, ?_⟩
  cases p <;> simp [Part.SameFields]

theorem trans (h : Same p s t) (k : Same p t u) : Same p s u := by
  refine ⟨fun c hc => (k.counters c hc).trans (h.counters c hc), ?_⟩
  have hf := h.fields
  have kf := k.fields
  cases p with
  | estimator =>
    obtain ⟨he, htd, htdId, hblk, hsample, hhold⟩ := hf
    obtain ⟨ke, ktd, ktdId, kblk, ksample, khold⟩ := kf
    refine ⟨?_, ktd.trans htd, ktdId.trans htdId, kblk.trans hblk, ksample.trans hsample, khold.trans hhold⟩
    rw [ke, he]
  | _ => simp_all [Part.SameFields]

/-- A counter of another part. -/
theorem count (c : Counter) (hc : Part.ofCounter c ≠ p) (s : State) (k : Nat) : Same p s (s.count c k) := by
  refine ⟨fun other ho => Counters.get_add_ne _ _ ?_, ?_⟩
  · rintro rfl
    exact hc ho
  · have hself := (refl p s).fields
    cases p <;> exact hself

/-- Items of other ports. -/
theorem emitAll {items : List OutItem} (hn : ∀ it ∈ items, ¬ p.Emits it) (s : State) :
    Same p s (s.emitAll items) := by
  refine ⟨fun _ _ => rfl, ?_⟩
  have hself := (refl p s).fields
  cases p with
  | tps => exact ⟨rfl, rfl, State.tpsPort_of_append rfl fun w hw => hn _ hw trivial⟩
  | demux => exact ⟨rfl, rfl, State.dmxPort_of_append rfl fun b hb => hn _ hb trivial⟩
  | decoder => exact ⟨rfl, State.vitPort_of_append rfl fun v hv => hn _ hv trivial⟩
  | _ => exact hself

theorem emit {item : OutItem} (hn : ¬ p.Emits item) (s : State) : Same p s (s.emit item) :=
  emitAll (items := [item]) (by simpa using hn) s

theorem respond (p : Part) (s : State) (code : Status) (data : BitVec 64) : Same p s (s.respond code data) :=
  emit (by cases p <;> exact id) s

theorem diag (p : Part) (s : State) (code : BitVec 8) (arg : Nat) : Same p s (s.diag code arg) :=
  emit (by cases p <;> exact id) s

theorem count_diag (c : Counter) (hc : Part.ofCounter c ≠ p) (s : State) (k : Nat) (code : BitVec 8) (arg : Nat) :
    Same p s ((s.count c k).diag code arg) :=
  (count c hc s k).trans (diag p _ code arg)

theorem ite {c : Prop} [Decidable c] (ht : Same p s t) (hu : Same p s u) : Same p s (if c then t else u) := by
  split
  · exact ht
  · exact hu

end Same

/-! ## The bodies -/

/-- SYMBOL writes whatever a stage writes (46_control R320). -/
theorem Part.WrittenBy.symbol {p : Part} {i : Instr} (hi : i ∈ [.est, .fft, .eq, .tps, .demux])
    (h : p.WrittenBy i) : p.WrittenBy .symbol := by
  simp only [List.mem_cons, List.not_mem_nil, or_false] at hi
  rcases hi with rfl | rfl | rfl | rfl | rfl <;> cases p <;> simp_all [Part.WrittenBy]

theorem Part.ne_of_not_writtenBy {p q : Part} {i : Instr} (hq : q.WrittenBy i) (hp : ¬ p.WrittenBy i) : q ≠ p := by
  rintro rfl
  exact hp hq

theorem fftBody_same {p : Part} (hp : ¬ p.WrittenBy .fft) (P : Params) (s : State) :
    Same p s (fftBody P s).2 := by
  have hseq : .sequence ≠ p := Part.ne_of_not_writtenBy (by simp [Part.WrittenBy]) hp
  rcases fftBody_cases P s with ⟨-, h⟩ | ⟨-, -, h⟩ | ⟨-, -, h⟩ <;> rw [h]
  · exact .refl p s
  · exact .count .seqErr hseq s 1
  · refine ⟨fun _ _ => rfl, ?_⟩
    have hself := (Same.refl p s).fields
    cases p with
    | spectrum => exact absurd (.inl rfl) hp
    | _ => exact hself

theorem eqBody_same {p : Part} (hp : ¬ p.WrittenBy .eq) (P : Params) (s : State) :
    Same p s (eqBody P s).2 := by
  have hseq : .sequence ≠ p := Part.ne_of_not_writtenBy (by simp [Part.WrittenBy]) hp
  rcases eqBody_cases P s with ⟨-, h⟩ | ⟨-, -, h⟩ | ⟨-, -, h⟩ <;> rw [h]
  · exact .refl p s
  · exact .count .seqErr hseq s 1
  · refine ⟨fun _ _ => rfl, ?_⟩
    have hself := (Same.refl p s).fields
    cases p with
    | equalizer => exact absurd (.inl rfl) hp
    | _ => exact hself

/-- TPS writes its state and tag, counts, and emits events and diagnostics alone (43_tps R200 to R211). -/
theorem tpsStep_updates (P : Params) (s : State) :
    ∃ tps split resync events items, (∀ p, p ≠ Part.tps → ∀ it ∈ items, ¬ p.Emits it) ∧
      tpsStep P s =
        (((({ s with tps := tps, blk := { s.blk with tpsId := s.blk.fdId } } : State).count .splitVote split).count
          .resync resync).count .tpsEvents events).emitAll items := by
  have h := tpsStep_eq P s
  dsimp only at h
  rw [List.append_assoc, List.append_assoc] at h
  refine ⟨_, _, _, _, _, fun p hp it hit => ?_, h⟩
  have hkind : (∃ code arg, it = .diag code arg) ∨ ∃ w, it = .tpsEvt w := by
    simp only [List.mem_append] at hit
    rcases hit with hit | hit | hit <;> split at hit <;> simp_all
    rcases hit with rfl | rfl <;> simp
  rcases hkind with ⟨code, arg, rfl⟩ | ⟨w, rfl⟩
  · cases p <;> exact id
  · cases p with
    | tps => exact absurd rfl hp
    | _ => exact id

theorem tpsBody_same {p : Part} (hp : ¬ p.WrittenBy .tps) (P : Params) (s : State) :
    Same p s (tpsBody P s).2 := by
  have hseq : .sequence ≠ p := Part.ne_of_not_writtenBy (by simp [Part.WrittenBy]) hp
  rcases tpsBody_cases P s with ⟨-, h⟩ | ⟨-, -, h⟩ | ⟨-, -, -, h⟩ <;> rw [h]
  · exact .refl p s
  · exact .count .seqErr hseq s 1
  · obtain ⟨tps, split, resync, events, items, hitems, hstep⟩ := tpsStep_updates P s
    have htps : .tps ≠ p := Part.ne_of_not_writtenBy (.inl rfl) hp
    rw [hstep]
    refine ((((?_ : Same p s _).trans (.count .splitVote htps _ _)).trans (.count .resync htps _ _)).trans
      (.count .tpsEvents htps _ _)).trans (.emitAll (hitems p htps.symm) _)
    refine ⟨fun _ _ => rfl, ?_⟩
    have hself := (Same.refl p s).fields
    cases p with
    | tps => exact absurd rfl htps
    | _ => exact hself

/-- A change of what EST writes. -/
theorem Same.of_estimator {p : Part} (hp : ¬ p.WrittenBy .est) (s : State) (est : EstState) (td : List Cplx)
    (blkId : Nat) (tdId : Option Nat) (sample : List SampleItem) (hold : Option Hold) :
    Same p s { s with
      est := est, blk := { s.blk with td := td, blkId := blkId, tdId := tdId }, sample := sample, hold := hold } := by
  refine ⟨fun _ _ => rfl, ?_⟩
  have hself := (Same.refl p s).fields
  cases p with
  | buffer => exact absurd (.inl rfl) hp
  | estimator => exact absurd (.inl rfl) hp
  | _ => exact hself

theorem outputBlock_same {p : Part} (hp : ¬ p.WrittenBy .est) (P : Params) (e : Estimate) (s : State) :
    Same p s (outputBlock P e s) := by
  have hest : .estimator ≠ p := Part.ne_of_not_writtenBy (.inl rfl) hp
  have hrecord := Same.of_estimator hp s
  exact .trans (.ite (hrecord ..) (.trans (hrecord ..) (.count_diag .acq hest _ _ _ _))) (.count .symbols hest _ _)

theorem estFrom_same {p : Part} (hp : ¬ p.WrittenBy .est) (P : Params) (got : Nat) (s : State) :
    Same p s (estFrom P got s).state := by
  have hrecord := Same.of_estimator hp s
  rcases estFrom_cases P got s with
    ⟨zs, rest, -, -, -, h⟩ | ⟨zs, -, -, -, h⟩ | ⟨zs, rest, c, -, ⟨rfl, -⟩ | ⟨rfl, -⟩, h⟩ <;> rw [h]
  · exact .trans (hrecord ..) (outputBlock_same hp P _ _)
  · exact hrecord ..
  · exact .trans (hrecord ..) (.diag p _ _ _)
  · exact .trans (hrecord ..) (.diag p _ _ _)

/-! ### DEMUX and the decoder -/

theorem Same.withVit {p : Part} (hp : .decoder ≠ p) (s : State) (r : VitResult) : Same p s (s.withVit r) := by
  have hitems : ∀ it ∈ r.items.map .vit, ¬ p.Emits it := by
    simp only [List.mem_map]
    rintro _ ⟨v, -, rfl⟩
    cases p <;> simp_all [Part.Emits]
  refine ((Same.emitAll hitems s).trans (.count .vitBits hp _ r.bits)).trans ⟨fun _ _ => rfl, ?_⟩
  have hself := (Same.refl p ((s.emitAll (r.items.map .vit)).count .vitBits r.bits)).fields
  cases p with
  | decoder => exact absurd rfl hp
  | _ => exact hself

/-- A change of the demux's state and tag. -/
theorem Same.of_demux {p : Part} (hp : .demux ≠ p) (s : State) (dmx : DemuxState) (dmxId : Option Nat) :
    Same p s { s with dmx := dmx, blk := { s.blk with dmxId := dmxId } } := by
  refine ⟨fun _ _ => rfl, ?_⟩
  have hself := (Same.refl p s).fields
  cases p with
  | demux => exact absurd rfl hp
  | _ => exact hself

section

variable {p : Part} (hd : .demux ≠ p)
include hd

theorem missedPilots_same (k : Nat) : ∀ s : State, Same p s (s.missedPilots k) := by
  induction k with
  | zero => exact .refl p
  | succ k ih => exact fun s => (Same.count_diag .consist hd s 1 0x05 1).trans (ih _)

theorem qualityAccount_same (P : Params) (s : State) (k : Nat) : Same p s (s.qualityAccount P k) := by
  have hrecord : Same p s ({ s with dmx := { s.dmx with anomalyLast := k } }.count .anomalyTotal k) :=
    (Same.of_demux hd s _ s.blk.dmxId).trans (.count .anomalyTotal hd _ _)
  exact .ite (hrecord.trans (.count_diag .qualityWarn hd _ _ _ _)) hrecord

variable (hv : .decoder ≠ p)
include hv

theorem emitAndFeed_same (P : Params) (x : List Bool) (s : State) : Same p s (s.emitAndFeed P x) := by
  have hitems : ∀ it ∈ (packBits x).map .dmx, ¬ p.Emits it := by
    simp only [List.mem_map]
    rintro _ ⟨b, -, rfl⟩
    cases p <;> simp_all [Part.Emits]
  have hbytes : Same p s ((s.emitAll ((packBits x).map .dmx)).count .dmxOut 1) :=
    (Same.emitAll hitems s).trans (.count .dmxOut hd _ 1)
  simp only [State.emitAndFeed, State.feed, trellisSteps_eq]
  exact (hbytes.trans (.withVit hv _ _)).trans (.of_demux hd _ _ _)

theorem demuxWalked_same (P : Params) (w : WalkResult) (s : State) : Same p s (demuxWalked P w s).2 := by
  have hwalk : Same p s ((s.missedPilots w.missed).qualityAccount P w.anomalies) :=
    (missedPilots_same hd _ s).trans (qualityAccount_same hd P _ _)
  unfold demuxWalked
  dsimp only
  split
  · exact hwalk.trans (.count_diag .consist hd _ _ _ _)
  · split
    · exact hwalk.trans (emitAndFeed_same hd hv P _ _)
    · exact hwalk

theorem demuxRun_same (P : Params) (s : State) : Same p s (demuxRun P s).2 := by
  have htag : Same p s { s with blk := { s.blk with dmxId := s.blk.fdId } } := .of_demux hd s s.dmx _
  unfold demuxRun
  dsimp only
  split
  · exact htag.trans (.count_diag .configErr hd _ _ _ _)
  · exact htag.trans (demuxWalked_same hd hv P _ _)

end

theorem demuxBody_same {p : Part} (hp : ¬ p.WrittenBy .demux) (P : Params) (s : State) :
    Same p s (demuxBody P s).2 := by
  have hseq : .sequence ≠ p := Part.ne_of_not_writtenBy (by simp [Part.WrittenBy]) hp
  have hd : .demux ≠ p := Part.ne_of_not_writtenBy (.inl rfl) hp
  have hv : .decoder ≠ p := Part.ne_of_not_writtenBy (by simp [Part.WrittenBy]) hp
  rcases demuxBody_cases P s with ⟨-, h⟩ | ⟨-, -, h⟩ | ⟨-, -, h⟩ <;> rw [h]
  · exact .refl p s
  · exact .count .seqErr hseq s 1
  · exact demuxRun_same hd hv P s

/-! ## The commands -/

theorem writeConfig_same {p : Part} {reg : CfgReg} {val : BitVec 16} (hp : ¬ p.WrittenBy (.wrcfg reg val))
    (s : State) : Same p s (writeConfig reg val s) := by
  obtain ⟨ebuf, conf, h⟩ := writeConfig_eq reg val s
  rw [h]
  refine ⟨fun _ _ => rfl, ?_⟩
  have hself := (Same.refl p s).fields
  cases p with
  | config => exact absurd ⟨reg, val, rfl⟩ hp
  | buffer => exact absurd (.inr (.inr ⟨reg, val, rfl⟩)) hp
  | estimator =>
    obtain ⟨-, hrest⟩ := hself
    exact ⟨rfl, hrest⟩
  | _ => exact hself

theorem laterStages_same {p : Part} (hp : ¬ p.WrittenBy .symbol) (P : Params) (s : State) :
    Same p s (runStages (laterStages P) s).2 := by
  have hstage {i : Instr} (hi : i ∈ [.est, .fft, .eq, .tps, .demux]) : ¬ p.WrittenBy i :=
    fun h => hp (h.symbol hi)
  refine runStages_induction (Same p) (.refl p) (fun _ _ _ => .trans) _ ?_ s
  simp only [laterStages, List.mem_cons, List.not_mem_nil, or_false]
  rintro _ (rfl | rfl | rfl | rfl)
  · exact fftBody_same (hstage (by simp)) P
  · exact eqBody_same (hstage (by simp)) P
  · exact tpsBody_same (hstage (by simp)) P
  · exact demuxBody_same (hstage (by simp)) P

theorem estBody_same {p : Part} (hp : ¬ p.WrittenBy .est) (P : Params) (s : State) :
    Same p s (estBody P s).state := by
  rcases estBody_cases P s with ⟨-, h⟩ | ⟨-, h⟩ <;> rw [h]
  · exact .refl p s
  · exact estFrom_same hp P 0 s

theorem finishEst_same {p : Part} (hp : ¬ p.WrittenBy .est) (e : EstEnd) : Same p e.state (finishEst e) := by
  cases e with
  | held got s => exact .of_estimator hp s _ _ _ _ _ _
  | done code s => exact .respond p s code 0

theorem finishSymbol_same {p : Part} (hp : ¬ p.WrittenBy .symbol) (P : Params) (e : EstEnd) :
    Same p e.state (finishSymbol P e) := by
  cases e with
  | held got s => exact .of_estimator (fun h => hp (h.symbol (by simp))) s _ _ _ _ _ _
  | done code s =>
    cases code with
    | ok => exact (laterStages_same hp P s).trans (.respond p _ _ 0)
    | _ => exact .respond p s _ 0

/-- A command other than RESET leaves every part as it is that it does not write (10_state R61). -/
theorem exec_same {p : Part} {i : Instr} {s t : State} (hi : i ≠ .reset) (hp : ¬ p.WrittenBy i)
    (h : exec i s = .next t) : Same p s t := by
  cases i with
  | reset => exact absurd rfl hi
  | nop => cases h; exact .respond p s _ _
  | rdstat idx => cases h; exact .respond p s _ _
  | wrcfg reg val =>
    have hillegal : .config ≠ p := Part.ne_of_not_writtenBy ⟨reg, val, rfl⟩ hp
    cases h
    exact .ite ((writeConfig_same hp s).trans (.respond p _ _ _))
      ((Same.count .illegal hillegal s 1).trans (.respond p _ _ _))
  | est => cases h; exact (estBody_same hp theParams s).trans (finishEst_same hp _)
  | symbol =>
    cases h
    exact (estBody_same (fun h => hp (h.symbol (by simp))) theParams s).trans (finishSymbol_same hp theParams _)
  | fft => cases h; exact (fftBody_same hp theParams s).trans (.respond p _ _ _)
  | eq => cases h; exact (eqBody_same hp theParams s).trans (.respond p _ _ _)
  | tps => cases h; exact (tpsBody_same hp theParams s).trans (.respond p _ _ _)
  | demux => cases h; exact (demuxBody_same hp theParams s).trans (.respond p _ _ _)
  | vcons x y =>
    cases h
    exact (Same.withVit (Part.ne_of_not_writtenBy (by simp [Part.WrittenBy]) hp) s _).trans (.respond p _ _ _)
  | vconsP y =>
    cases h
    exact (Same.withVit (Part.ne_of_not_writtenBy (by simp [Part.WrittenBy]) hp) s _).trans (.respond p _ _ _)
  | vflush =>
    cases h
    exact (Same.withVit (Part.ne_of_not_writtenBy (by simp [Part.WrittenBy]) hp) s _).trans (.respond p _ _ _)

/-- Settles O18: each clause is one part, which its command alone writes. -/
theorem unitsAreWrittenByTheirOwnCommands : Obligations.UnitsAreWrittenByTheirOwnCommands := by
  intro i s t hi h
  have same (p : Part) (hp : ¬ p.WrittenBy i) : Same p s t := exec_same hi hp h
  refine ⟨(same .port id).fields, fun hw => ?config, fun he hs => ?estimator, fun hf hs => ?spectrum,
    fun he hs => ?equalizer, fun ht hs => ?tps, fun hd hs => ?demux, fun hv hp hf hd hs => ?decoder,
    fun hn => ?sequence⟩
  case config =>
    obtain ⟨hc, hf⟩ := same .config (by simpa [Part.WrittenBy] using hw)
    exact ⟨hf, hc .illegal rfl⟩
  case estimator =>
    obtain ⟨hc, hest, htd, htdId, hblk, hsample, hhold⟩ := same .estimator (by simp [Part.WrittenBy, he, hs])
    exact ⟨hest, fun hw => (same .buffer (by simpa [Part.WrittenBy, he, hs] using hw)).fields, htd, htdId, hblk,
      hsample, hhold, hc .symbols rfl, hc .acq rfl⟩
  case spectrum => exact (same .spectrum (by simp [Part.WrittenBy, hf, hs])).fields
  case equalizer => exact (same .equalizer (by simp [Part.WrittenBy, he, hs])).fields
  case tps =>
    obtain ⟨hc, htps, htag, hport⟩ := same .tps (by simp [Part.WrittenBy, ht, hs])
    exact ⟨htps, htag, hport, hc .splitVote rfl, hc .resync rfl,
      hc .tpsEvents rfl⟩
  case demux =>
    obtain ⟨hc, hdmx, htag, hport⟩ := same .demux (by simp [Part.WrittenBy, hd, hs])
    exact ⟨hdmx, htag, hport, hc .anomalyTotal rfl, hc .qualityWarn rfl,
      hc .consist rfl, hc .configErr rfl,
      hc .dmxOut rfl⟩
  case decoder =>
    obtain ⟨hc, hvit, hport⟩ := same .decoder (by simp [Part.WrittenBy, hv, hp, hf, hd, hs])
    exact ⟨hvit, hport, hc .vitBits rfl⟩
  case sequence => exact (same .sequence hn).counters .seqErr rfl

end Sys2Proof.Machine
end

section
/-! Answers and waits (10_state R34, R52, R54): the one response of a command that completes, the wait of one that
does not, and the counters. -/

namespace Sys2Proof.Machine

/-- Settles O14. -/
theorem countersSaturate : Obligations.CountersSaturate := fun c name k =>
  ⟨by rw [Counters.get_add_self, satAdd_toNat], fun _ ho => Counters.get_add_ne c k ho⟩

/-! ## One response or a wait -/

/-- From `s` to `t` command `i` completes: one response, and nothing waits that did not wait before (R54). -/
def Completes (i : Instr) (s t : State) : Prop :=
  ∃ code data, t.respPort = s.respPort ++ [(code, data)] ∧ (data ≠ 0 → ∃ idx, i = .rdstat idx) ∧
    t.hold = if i = .reset then none else s.hold

/-- From `s` to `t` command `i` is left waiting, without a response (R52). -/
def Waits (i : Instr) (s t : State) : Prop := (i = .est ∨ i = .symbol) ∧ t.respPort = s.respPort ∧ t.hold ≠ none

theorem completes_respond {i : Instr} {s t : State} (hi : i ≠ .reset) (hport : t.respPort = s.respPort)
    (hhold : t.hold = s.hold) (code : Status) : Completes i s (t.respond code 0) :=
  ⟨code, 0, by rw [State.respond_respPort, hport], fun h => absurd rfl h,
    by rw [State.respond_hold, hhold, if_neg hi]⟩

theorem BodyFrame.completes {i : Instr} {s t : State} (hi : i ≠ .reset) (h : BodyFrame s t) (code : Status) :
    Completes i s (t.respond code 0) :=
  completes_respond hi h.respPort h.hold code

/-- After the body of EST, EST and SYMBOL wait or respond. -/
theorem finishHoldCmd_cases (P : Params) (c : HoldCmd) (e : EstEnd) :
    (∃ h, finishHoldCmd P c e = { e.state with hold := some h }) ∨
    ∃ code t, BodyFrame e.state t ∧ finishHoldCmd P c e = t.respond code 0 := by
  cases c with
  | symbol =>
    rcases finishSymbol_cases P e with ⟨got, s, rfl, h⟩ | ⟨_, s, code, t, rfl, hf, h⟩
    · exact .inl ⟨_, h⟩
    · exact .inr ⟨code, t, hf, h⟩
  | est =>
    cases e with
    | held got s => exact .inl ⟨_, rfl⟩
    | done code s => exact .inr ⟨code, s, .refl s, rfl⟩

theorem execHoldCmd_completes_or_waits {i : Instr} (hi : i = .est ∨ i = .symbol) (s : State) :
    ∃ t, exec i s = .next t ∧ (Completes i s t ∨ Waits i s t) := by
  have hreset : i ≠ .reset := by
    rintro rfl
    simp at hi
  obtain ⟨c, hexec⟩ := exec_eq_finishHoldCmd hi
  have hbody := estBody_frame theParams s
  refine ⟨_, hexec s, ?_⟩
  rcases finishHoldCmd_cases theParams c (estBody theParams s) with ⟨h, heq⟩ | ⟨code, t, hf, heq⟩ <;> rw [heq]
  · exact .inr ⟨hi, hbody.respPort, Option.some_ne_none h⟩
  · exact .inl ((hbody.trans hf).completes hreset code)

/-- Settles O6: a command responds after a body that does not, and only EST and SYMBOL can be left waiting. -/
theorem everyCommandAnswersOnceOrWaits : Obligations.EveryCommandAnswersOnceOrWaits := by
  intro i s
  cases i with
  | est => exact execHoldCmd_completes_or_waits (.inl rfl) s
  | symbol => exact execHoldCmd_completes_or_waits (.inr rfl) s
  | nop => exact ⟨_, rfl, .inl (completes_respond (by simp) rfl rfl .ok)⟩
  | rdstat idx => exact ⟨_, rfl, .inl ⟨.ok, _, State.respond_respPort s _ _, fun _ => ⟨idx, rfl⟩, rfl⟩⟩
  | reset => exact ⟨_, rfl, .inl ⟨.ok, 0, by simp, fun h => absurd rfl h, rfl⟩⟩
  | wrcfg reg val =>
    refine ⟨_, rfl, .inl ?_⟩
    split
    · exact completes_respond (by simp) rfl rfl .ok
    · exact (BodyFrame.count s .illegal 1).completes (by simp) .illegalCmd
  | fft => exact ⟨_, rfl, .inl ((fftBody_frame theParams s).completes (by simp) _)⟩
  | eq => exact ⟨_, rfl, .inl ((eqBody_frame theParams s).completes (by simp) _)⟩
  | tps => exact ⟨_, rfl, .inl ((tpsBody_frame theParams s).completes (by simp) _)⟩
  | demux => exact ⟨_, rfl, .inl ((demuxBody_frame theParams s).completes (by simp) _)⟩
  | vcons x y => exact ⟨_, rfl, .inl ((BodyFrame.withVit s _).completes (by simp) .ok)⟩
  | vconsP y => exact ⟨_, rfl, .inl ((BodyFrame.withVit s _).completes (by simp) .ok)⟩
  | vflush => exact ⟨_, rfl, .inl ((BodyFrame.withVit s _).completes (by simp) .ok)⟩

/-! ## The wait of EST -/

/-- A fill that meets an empty port holds as it stands. -/
theorem estFrom_of_empty {P : Params} {got : Nat} {s : State} (he : s.est.eosSeen = false) (hs : s.sample = [])
    (hl : s.est.efill < s.bufSize P) : estFrom P got s = .held got s := by
  have hfill : fill P got s = .held got s := by
    have hheld := fillLoop_held (got := got) (zs := []) (missing := s.bufSize P - s.est.efill) he (by simpa using hs)
      (by simpa using hl)
    rwa [State.filled_nil hs] at hheld
  simp only [estFrom, hfill]

/-- Settles O21: the fill takes the samples and holds, and resumed on an empty port it holds as it stands. -/
theorem estWaitsForSamples : Obligations.EstWaitsForSamples := by
  intro s zs hhold hhalted heos hs hl
  have hheld : estBody theParams s = .held zs.length (s.filled zs []) := estBody_held hhalted heos hs hl
  have hresumed : estFrom theParams zs.length (s.filled zs []) = .held zs.length (s.filled zs []) :=
    estFrom_of_empty heos rfl (by rwa [State.efill_filled])
  refine ⟨{ s.filled zs [] with hold := some ⟨.est, zs.length⟩ }, ?_, ?_, rfl⟩
  · rw [exec, execEst, hheld, finishEst]
  · have hstep := step_of_waiting hhold .est zs.length zs []
    rwa [hresumed] at hstep

end Sys2Proof.Machine
end

section
/-! Stage tags and the estimator's ranges (10_state R24, R27, R28, 40_estimator R148): every change keeps them. -/

namespace Sys2Proof.Machine

/-! ## Stage tags -/

/-- The tag names no block after block `k`. -/
def TagWithin (tag : Option Nat) (k : Nat) : Prop := ∀ b, tag = some b → b ≤ k

theorem TagWithin.mono {tag : Option Nat} {k k' : Nat} (h : TagWithin tag k) (hk : k ≤ k') : TagWithin tag k' :=
  fun b hb => (h b hb).trans hk

theorem tagWithin_none (k : Nat) : TagWithin none k := fun _ h => absurd h (Option.some_ne_none _).symm

theorem tagWithin_some (k : Nat) : TagWithin (some k) k := fun _ h => (Option.some.inj h).ge

theorem tagInv_iff (b : BlockRegs) : TagInv b ↔
    TagWithin b.tdId b.blkId ∧ TagWithin b.fdId b.blkId ∧ TagWithin b.eqId b.blkId ∧ TagWithin b.tpsId b.blkId ∧
      TagWithin b.dmxId b.blkId := by
  simp [TagInv, TagWithin]

theorem tagInv_reset : TagInv State.reset.blk :=
  (tagInv_iff _).mpr ⟨tagWithin_none 0, tagWithin_none 0, tagWithin_none 0, tagWithin_none 0, tagWithin_none 0⟩

theorem State.missedPilots_blk (k : Nat) : ∀ s : State, (s.missedPilots k).blk = s.blk := by
  induction k with
  | zero => exact fun _ => rfl
  | succ k ih => exact fun s => ih _

theorem State.qualityAccount_blk (P : Params) (s : State) (k : Nat) : (s.qualityAccount P k).blk = s.blk := by
  obtain ⟨items, -, h⟩ := State.qualityAccount_eq P s k
  rw [h]

theorem demuxWalked_blk (P : Params) (w : WalkResult) (s : State) : (demuxWalked P w s).2.blk = s.blk := by
  have hwalk : ((s.missedPilots w.missed).qualityAccount P w.anomalies).blk = s.blk := by
    rw [State.qualityAccount_blk, State.missedPilots_blk]
  unfold demuxWalked
  dsimp only
  split
  · exact hwalk
  · split
    · rw [State.emitAndFeed_eq]
      exact hwalk
    · exact hwalk

/-- DEMUX consumes the block first, whatever follows (44_demux R231). -/
theorem demuxRun_blk (P : Params) (s : State) : (demuxRun P s).2.blk = { s.blk with dmxId := s.blk.fdId } := by
  unfold demuxRun
  dsimp only
  split
  · rfl
  · exact demuxWalked_blk P _ _

theorem outputBlock_keeps_tagInv {P : Params} {e : Estimate} {s : State} (h : TagInv s.blk) :
    TagInv (outputBlock P e s).blk := by
  obtain ⟨items, -, heq⟩ := outputBlock_eq P e s
  obtain ⟨-, hfd, heqId, htps, hdmx⟩ := (tagInv_iff _).mp h
  rw [heq]
  have hle := Nat.le_succ s.blk.blkId
  exact (tagInv_iff _).mpr ⟨tagWithin_some _, hfd.mono hle, heqId.mono hle, htps.mono hle, hdmx.mono hle⟩

theorem equalize_keeps_tagInv {P : Params} {s : State} (h : TagInv s.blk) : TagInv (equalize P s).blk := by
  obtain ⟨htd, hfd, -, htps, hdmx⟩ := (tagInv_iff _).mp h
  exact (tagInv_iff _).mpr ⟨htd, hfd, hfd, htps, hdmx⟩

theorem estFrom_keeps_tagInv {P : Params} {got : Nat} {s : State} (h : TagInv s.blk) :
    TagInv (estFrom P got s).state.blk := by
  rcases estFrom_cases P got s with
    ⟨zs, rest, -, -, -, heq⟩ | ⟨zs, -, -, -, heq⟩ | ⟨zs, rest, c, -, -, heq⟩ <;> rw [heq]
  · exact outputBlock_keeps_tagInv (s := s.filled zs rest) h
  · exact h
  · obtain ⟨_, _, _, hc, -, -⟩ := c.effect_cases
      { s.filled zs rest with est := { (s.filled zs rest).est with eosSeen := true } }
    simp only [EstEnd.state, hc]
    exact h

/-- A stage body sets its tag to one it has read. -/
theorem Change.keeps_tagInv {s t : State} (hc : Change s t) (h : TagInv s.blk) : TagInv t.blk := by
  obtain ⟨htd, hfd, heqId, htps, hdmx⟩ := (tagInv_iff _).mp h
  cases hc with
  | est got => exact estFrom_keeps_tagInv h
  | fft =>
    rcases fftBody_cases theParams s with ⟨-, heq⟩ | ⟨-, -, heq⟩ | ⟨-, -, heq⟩ <;> rw [heq]
    · exact h
    · exact h
    · exact (tagInv_iff _).mpr ⟨htd, htd, heqId, htps, hdmx⟩
  | eq =>
    rcases eqBody_cases theParams s with ⟨-, heq⟩ | ⟨-, -, heq⟩ | ⟨-, -, heq⟩ <;> rw [heq]
    · exact h
    · exact h
    · exact equalize_keeps_tagInv h
  | tps =>
    rcases tpsBody_cases theParams s with ⟨-, heq⟩ | ⟨-, -, heq⟩ | ⟨-, -, -, heq⟩ <;> rw [heq]
    · exact h
    · exact h
    · rw [tpsStep_eq]
      exact (tagInv_iff _).mpr ⟨htd, hfd, heqId, hfd, hdmx⟩
  | demux =>
    rcases demuxBody_cases theParams s with ⟨-, heq⟩ | ⟨-, -, heq⟩ | ⟨-, -, heq⟩ <;> rw [heq]
    · exact h
    · exact h
    · rw [demuxRun_blk]
      exact (tagInv_iff _).mpr ⟨htd, hfd, heqId, htps, hfd⟩
  | _ => exact h

/-- Settles O55. -/
theorem stepKeepsTheStageTags : Obligations.StepKeepsTheStageTags := fun _ _ h hstep =>
  step_keeps (I := fun s => TagInv s.blk) (fun _ _ _ => tagInv_reset) (fun _ _ => Change.keeps_tagInv) hstep h

/-! ## The estimate -/

theorem scores_length (P : Params) (ebuf : List Cplx) (b len : Nat) : (scores P ebuf b len).length = P.n + len := by
  simp [scores]

theorem argmaxLeast_lt {l : List Scalar} (h : l ≠ []) : argmaxLeast l < l.length := by
  obtain ⟨m, hm, -⟩ := argmaxLeast_spec l h
  exact (List.getElem?_eq_some_iff.mp hm).1

/-- The argmax is one of the N + L window positions (40_estimator R134). -/
theorem estimate_argmax_lt (s : State) :
    (estimate theParams s).argmax < 2048 + theParams.guardLen s.cfg.guard := by
  have hlen := scores_length theParams s.est.ebuf (s.bufSize theParams) (theParams.guardLen s.cfg.guard)
  rw [theParams_n] at hlen
  have hne : scores theParams s.est.ebuf (s.bufSize theParams) (theParams.guardLen s.cfg.guard) ≠ [] := by
    apply List.ne_nil_of_length_pos
    omega
  exact (argmaxLeast_lt hne).trans_eq hlen

theorem trackAdjust_le (d : Int) : trackAdjust theParams d ≤ 15 := by
  have htrack := theParams_trackW
  unfold trackAdjust
  split <;> omega

theorem normalise_lt {len m : Nat} (hlen : len ≤ 512) (hm : m < 2048 + len) :
    normalise theParams len ((m : Int) - len) < 2048 - len := by
  have hn := theParams_n
  unfold normalise
  split <;> omega

/-- The window starts inside the symbol (40_estimator R139). -/
theorem estimate_start_lt (s : State) : (estimate theParams s).start < 2048 := by
  obtain ⟨-, hguard⟩ := theParams_guardLen_range s.cfg.guard
  have hd := normalise_lt hguard (estimate_argmax_lt s)
  have ht := trackAdjust_le (estimate theParams s).deviation
  simp only [estimate, windowStart] at hd ht ⊢
  split <;> omega

theorem slide_length_le (P : Params) (ebuf : List Cplx) (b a : Nat) : (slide P ebuf b a).length ≤ b := by
  simp only [slide, List.length_take, List.length_drop]
  omega

/-! ## The estimator's ranges -/

/-- The ranges speak of the estimator and the guard code alone. -/
theorem EstInv.of_eq {P : Params} {s t : State} (h : EstInv P s) (he : t.est = s.est) (hc : t.cfg = s.cfg) :
    EstInv P t := by
  obtain ⟨hbuf, hlow, hhigh, hargmax, hstart⟩ := h
  constructor <;> simp only [he, State.bufSize, hc] <;> assumption

theorem estInv_reset (s : State) : EstInv theParams s.resetChannel :=
  ⟨Nat.zero_le _, le_rfl, twoPi_pos _, Nat.succ_pos _, Nat.succ_pos _⟩

theorem EstInv.filled {P : Params} {s : State} (h : EstInv P s) {zs : List Cplx} (rest : List SampleItem)
    (hl : zs.length ≤ s.bufSize P - s.est.efill) : EstInv P (s.filled zs rest) := by
  obtain ⟨hbuf, hlow, hhigh, hargmax, hstart⟩ := h
  refine ⟨?_, hlow, hhigh, hargmax, hstart⟩
  rw [State.efill_filled]
  show s.est.efill + zs.length ≤ s.bufSize P
  omega

/-- EOS and a condition change no measured value. -/
theorem EstInv.effect {P : Params} {s : State} (h : EstInv P s) (c : Condition) (eosSeen : Bool) :
    EstInv P (c.effect { s with est := { s.est with eosSeen := eosSeen } }) := by
  obtain ⟨halted, cnt, items, hc, -, -⟩ := c.effect_cases { s with est := { s.est with eosSeen := eosSeen } }
  obtain ⟨hbuf, hlow, hhigh, hargmax, hstart⟩ := h
  rw [hc]
  exact ⟨hbuf, hlow, hhigh, hargmax, hstart⟩

/-- A block's measurements are in their ranges where the estimate is, whatever they were before. -/
theorem estInv_outputBlock {P : Params} {e : Estimate} (hargmax : e.argmax < P.n + P.n / 4) (hstart : e.start < P.n)
    (s : State) : EstInv P (outputBlock P e s) := by
  obtain ⟨items, -, heq⟩ := outputBlock_eq P e s
  obtain ⟨hlow, hhigh⟩ := modTwoPi_range P.num
    (P.num.rnd (.advance s.est.nco e.eps) (s.est.nco + twoPi P.num * e.eps))
  rw [heq]
  exact ⟨slide_length_le _ _ _ _, hlow, hhigh, hargmax, hstart⟩

theorem estFrom_keeps_estInv {got : Nat} {s : State} (h : EstInv theParams s) :
    EstInv theParams (estFrom theParams got s).state := by
  rcases estFrom_cases theParams got s with
    ⟨zs, rest, -, -, -, heq⟩ | ⟨zs, hl, -, -, heq⟩ | ⟨zs, rest, c, hl, -, heq⟩ <;> rw [heq]
  · have hargmax := estimate_argmax_lt (s.filled zs rest)
    obtain ⟨-, hguard⟩ := theParams_guardLen_range (s.filled zs rest).cfg.guard
    refine estInv_outputBlock ?_ (estimate_start_lt _) _
    rw [theParams_n]
    omega
  · exact h.filled [] hl.le
  · exact (h.filled rest hl.le).effect c true

theorem writeConfig_keeps_estInv {reg : CfgReg} {val : BitVec 16} {s : State} (h : EstInv theParams s) :
    EstInv theParams (writeConfig reg val s) := by
  obtain ⟨hbuf, hlow, hhigh, hargmax, hstart⟩ := h
  by_cases hguard : reg = .guard ∧ val.setWidth 2 ≠ s.cfg.guard
  · simp only [writeConfig, if_pos hguard]
    exact ⟨Nat.zero_le _, hlow, hhigh, hargmax, hstart⟩
  · have hsame : (s.cfg.write reg val).guard = s.cfg.guard := by
      cases reg <;> simp_all [CfgRegs.write]
    simp only [writeConfig, if_neg hguard]
    refine ⟨?_, hlow, hhigh, hargmax, hstart⟩
    simpa only [State.bufSize, hsame] using hbuf

theorem Change.keeps_estInv {s t : State} (hc : Change s t) (h : EstInv theParams s) : EstInv theParams t := by
  have same {u : State} (hs : ∀ p, p = .buffer ∨ p = .config → Same p s u) : EstInv theParams u :=
    h.of_eq (hs .buffer (.inl rfl)).fields (hs .config (.inr rfl)).fields
  cases hc with
  | est got => exact estFrom_keeps_estInv h
  | config reg val => exact writeConfig_keeps_estInv h
  | fft => exact same fun p hp => fftBody_same (by rcases hp with rfl | rfl <;> simp [Part.WrittenBy]) _ s
  | eq => exact same fun p hp => eqBody_same (by rcases hp with rfl | rfl <;> simp [Part.WrittenBy]) _ s
  | tps => exact same fun p hp => tpsBody_same (by rcases hp with rfl | rfl <;> simp [Part.WrittenBy]) _ s
  | demux => exact same fun p hp => demuxBody_same (by rcases hp with rfl | rfl <;> simp [Part.WrittenBy]) _ s
  | _ => exact h.of_eq rfl rfl

/-- Settles O57. -/
theorem stepKeepsTheEstimatorInvariant : Obligations.StepKeepsTheEstimatorInvariant := fun _ _ h hstep =>
  step_keeps (fun s _ _ => (estInv_reset s).of_eq rfl rfl) (fun _ _ => Change.keeps_estInv) hstep h

end Sys2Proof.Machine
end

section
/-! The decoder's ranges and its written window (10_state R32, 45_viterbi R276, R283): every trellis step, every
traceback and VFLUSH keep them. -/

namespace Sys2Proof.Machine

/-- The undecided steps after a traceback of `k` bits are those from step `k` on (45_viterbi R283). -/
theorem undecidedSlot_traceback (P : Params) {k : Nat} {v : VitState} (hk : k ≤ v.vcount) (j : Nat) :
    undecidedSlot P (traceback P k v).vit j = undecidedSlot P v (k + j) := by
  simp only [undecidedSlot, traceback]
  congr 2
  omega

/-- What a traceback needs of the decoder: its ranges and a written window, which may be full. -/
structure Traceable (P : Params) (v : VitState) : Prop where
  metrics : v.vpm.length = 64
  ringForm : ringWf v.vring = true
  writePointer : v.vw < P.depth
  partialByte : v.vob.length < 8
  window : ∀ k, k < v.vcount → ∃ slot, ringSlot v.vring (undecidedSlot P v k) = some slot ∧ slot.length = 64

theorem VitInv.traceable {P : Params} {v : VitState} (h : VitInv P v) : Traceable P v :=
  ⟨h.metrics, h.ringForm, h.writePointer, h.partialByte, h.window⟩

theorem VitInv.acsStep {P : Params} {v : VitState} (h : VitInv P v) (hasX x y : Bool) :
    Traceable P (acsStep P hasX x y v) where
  metrics := by simp
  ringForm := ringWf_ringWrite h.ringForm _ _
  writePointer := Nat.mod_lt _ (h.writePointer.trans_le' (Nat.zero_le _))
  partialByte := h.partialByte
  window := acsStep_window h hasX x y

namespace Traceable

variable {P : Params} {v : VitState}

theorem vitInv (h : Traceable P v) (hl : v.vcount < P.decisionLen + P.outputBits) : VitInv P v :=
  ⟨h.metrics, h.ringForm, h.writePointer, hl, h.partialByte, h.window⟩

theorem traceback (h : Traceable P v) {k : Nat} (hk : k ≤ v.vcount) : Traceable P (traceback P k v).vit where
  metrics := h.metrics
  ringForm := h.ringForm
  writePointer := h.writePointer
  partialByte := by
    obtain ⟨-, -, -, hvob, -⟩ := traceback_spec P k v
    exact hvob h.partialByte
  window := by
    intro j hj
    rw [undecidedSlot_traceback P hk]
    have hcount : (Machine.traceback P k v).vit.vcount = v.vcount - k := rfl
    exact h.window (k + j) (by omega)

theorem clearPartialByte (h : Traceable P v) : Traceable P { v with vob := [] } :=
  ⟨h.metrics, h.ringForm, h.writePointer, Nat.succ_pos 7, h.window⟩

end Traceable

/-- A full window is decided down to D steps (45_viterbi R277). -/
theorem VitInv.vitStep {P : Params} (ho : 1 ≤ P.outputBits) {v : VitState} (h : VitInv P v) (hasX x y : Bool) :
    VitInv P (vitStep P hasX x y v).vit := by
  have ht := h.acsStep hasX x y
  have hl := h.pending
  unfold Machine.vitStep
  dsimp only
  split
  · rename_i hfull
    refine (ht.traceback (by omega)).vitInv ?_
    show (Machine.acsStep P hasX x y v).vcount - P.outputBits < _
    omega
  · rename_i hfull
    refine ht.vitInv ?_
    rw [acsStep_vcount] at hfull ⊢
    omega

theorem VitInv.feedRun {P : Params} (ho : 1 ≤ P.outputBits) (fs : List FeedStep) :
    ∀ {v : VitState}, VitInv P v → VitInv P (feedRun P fs v).vit := by
  induction fs with
  | nil => exact id
  | cons f fs ih => exact fun h => ih (h.vitStep ho f.hasX f.x f.y)

/-- The decoder with every pending step decided, before VFLUSH empties the partial byte (45_viterbi R290). -/
def pendingDecided (P : Params) (v : VitState) : VitResult :=
  if 0 < v.vcount then traceback P v.vcount v else ⟨v, [], 0⟩

theorem vitFlush_vit (P : Params) (v : VitState) :
    (vitFlush P v).vit = { (pendingDecided P v).vit with vob := [] } := by
  change (if (pendingDecided P v).vit.vob.length = 0 then pendingDecided P v else _).vit = _
  split
  · rename_i hempty
    rw [← List.eq_nil_of_length_eq_zero hempty]
  · rfl

theorem pendingDecided_vcount_le (P : Params) (v : VitState) : (pendingDecided P v).vit.vcount ≤ v.vcount := by
  unfold pendingDecided
  split
  · exact Nat.sub_le _ _
  · exact le_rfl

theorem Traceable.pendingDecided {P : Params} {v : VitState} (h : Traceable P v) :
    Traceable P (pendingDecided P v).vit := by
  unfold Machine.pendingDecided
  split
  · exact h.traceback le_rfl
  · exact h

/-- VFLUSH decides every pending step and empties the partial byte (45_viterbi R290). -/
theorem VitInv.vitFlush {P : Params} {v : VitState} (h : VitInv P v) : VitInv P (vitFlush P v).vit := by
  rw [vitFlush_vit]
  exact h.traceable.pendingDecided.clearPartialByte.vitInv ((pendingDecided_vcount_le P v).trans_lt h.pending)

theorem vitInv_reset : VitInv theParams State.reset.vit where
  metrics := rfl
  ringForm := rfl
  writePointer := theParams_decisionLen_pos.trans_lt' (by decide) |>.trans_le
    ((Nat.le_add_right _ _).trans theParams_window_le_depth)
  pending := theParams_decisionLen_pos.trans (Nat.le_add_right _ _)
  partialByte := Nat.succ_pos 7
  window := fun k hk => absurd hk (Nat.not_lt_zero k)

/-! ## DEMUX -/

theorem State.missedPilots_vit (k : Nat) : ∀ s : State, (s.missedPilots k).vit = s.vit := by
  induction k with
  | zero => exact fun _ => rfl
  | succ k ih => exact fun s => ih _

theorem State.qualityAccount_vit (P : Params) (s : State) (k : Nat) : (s.qualityAccount P k).vit = s.vit := by
  obtain ⟨items, -, h⟩ := State.qualityAccount_eq P s k
  rw [h]

/-- Whatever DEMUX ends in, it leaves the decoder as some run of trellis steps does (44_demux R250). -/
theorem demuxWalked_vit (P : Params) (w : WalkResult) (s : State) :
    ∃ fs, (demuxWalked P w s).2.vit = (feedRun P fs s.vit).vit := by
  have hwalk : ((s.missedPilots w.missed).qualityAccount P w.anomalies).vit = s.vit := by
    rw [State.qualityAccount_vit, State.missedPilots_vit]
  unfold demuxWalked
  dsimp only
  split
  · exact ⟨[], hwalk⟩
  · split
    · rw [State.emitAndFeed_eq]
      exact ⟨_, by rw [hwalk]⟩
    · exact ⟨[], hwalk⟩

theorem demuxBody_vit (P : Params) (s : State) : ∃ fs, (demuxBody P s).2.vit = (feedRun P fs s.vit).vit := by
  rcases demuxBody_cases P s with ⟨-, heq⟩ | ⟨-, -, heq⟩ | ⟨-, -, heq⟩ <;> rw [heq]
  · exact ⟨[], rfl⟩
  · exact ⟨[], rfl⟩
  · unfold demuxRun
    dsimp only
    split
    · exact ⟨[], rfl⟩
    · exact demuxWalked_vit P _ _

/-! ## Every change -/

theorem Change.keeps_vitInv {s t : State} (hc : Change s t) (h : VitInv theParams s.vit) :
    VitInv theParams t.vit := by
  have same {u : State} (hs : Same .decoder s u) : VitInv theParams u.vit := by
    obtain ⟨hvit, -⟩ := hs.fields
    rwa [hvit]
  cases hc with
  | trellis hasX x y => exact h.vitStep theParams_outputBits_pos hasX x y
  | flush => exact h.vitFlush
  | demux =>
    obtain ⟨fs, hvit⟩ := demuxBody_vit theParams s
    rw [hvit]
    exact h.feedRun theParams_outputBits_pos fs
  | est got => exact same (estFrom_same (by simp [Part.WrittenBy]) _ got s)
  | fft => exact same (fftBody_same (by simp [Part.WrittenBy]) _ s)
  | eq => exact same (eqBody_same (by simp [Part.WrittenBy]) _ s)
  | tps => exact same (tpsBody_same (by simp [Part.WrittenBy]) _ s)
  | config reg val => exact same (writeConfig_same (by simp [Part.WrittenBy]) s)
  | _ => exact h

/-- Settles O56. -/
theorem stepKeepsTheDecoderInvariant : Obligations.StepKeepsTheDecoderInvariant := fun _ _ h hstep =>
  step_keeps (I := fun s => VitInv theParams s.vit) (fun _ _ _ => vitInv_reset) (fun _ _ => Change.keeps_vitInv)
    hstep h

end Sys2Proof.Machine
end

section
/-! Binary64 patterns (10_state R60): a pattern is a sign, an exponent field and a fraction; the finite ones stand for
the numbers `m * 2^g` of 53 bits, and the pattern of a number is that of the multiple of its grid nearest to it. -/

namespace Sys2Proof.Machine

/-! ## Patterns and their values -/

/-- The pattern of a sign and a magnitude, the low 63 bits. -/
def signedPattern (negative : Bool) (magnitude : Nat) : BitVec 64 :=
  BitVec.ofNat 64 ((if negative then 2 ^ 63 else 0) + magnitude)

/-- The number of steps of its grid that a finite magnitude stands for: the fraction, below the hidden bit of a normal
number. -/
def significand (field fraction : Nat) : Nat := if field = 0 then fraction else 2 ^ 52 + fraction

/-- The exponent of that grid. -/
def gridOf (field : Nat) : Int := if field = 0 then -1074 else (field : Int) - 1075

theorem signedPattern_toNat (negative : Bool) {magnitude : Nat} (h : magnitude < 2 ^ 63) :
    (signedPattern negative magnitude).toNat = (if negative then 2 ^ 63 else 0) + magnitude := by
  rw [signedPattern, BitVec.toNat_ofNat]
  apply Nat.mod_eq_of_lt
  split <;> omega

/-- The value of a finite pattern. -/
theorem ofBinary64_signedPattern (negative : Bool) {field fraction : Nat} (hfield : field < 2047)
    (hfraction : fraction < 2 ^ 52) :
    ofBinary64 (signedPattern negative (field * 2 ^ 52 + fraction)) =
      some ((if negative then -1 else 1) * (significand field fraction * (2 : Rat) ^ gridOf field)) := by
  have hnat := signedPattern_toNat negative (magnitude := field * 2 ^ 52 + fraction) (by omega)
  generalize signedPattern negative (field * 2 ^ 52 + fraction) = b at hnat
  have hf : (b.extractLsb' 52 11).toNat = field := by
    rw [BitVec.extractLsb'_toNat, Nat.shiftRight_eq_div_pow, hnat]
    split <;> omega
  have hm : (b.extractLsb' 0 52).toNat = fraction := by
    rw [BitVec.extractLsb'_toNat, Nat.shiftRight_zero, hnat]
    split <;> omega
  have hsign : b.getLsbD 63 = negative := by
    rw [BitVec.getLsbD, Nat.testBit_eq_decide_div_mod_eq, hnat]
    cases negative <;> simp <;> omega
  simp only [ofBinary64, hf, hm, hsign, if_neg hfield.ne, pow2_eq, significand, gridOf]
  cases negative <;> by_cases h0 : field = 0 <;> simp [h0]

/-- Every finite pattern is made of a sign, an exponent field and a fraction. -/
theorem finite_pattern_cases {b : BitVec 64} {x : Rat} (h : ofBinary64 b = some x) :
    ∃ negative field fraction, field < 2047 ∧ fraction < 2 ^ 52 ∧
      b = signedPattern negative (field * 2 ^ 52 + fraction) := by
  have hlt := b.isLt
  have hf : (b.extractLsb' 52 11).toNat = b.toNat / 2 ^ 52 % 2 ^ 11 := by
    rw [BitVec.extractLsb'_toNat, Nat.shiftRight_eq_div_pow]
  have hfinite : b.toNat / 2 ^ 52 % 2 ^ 11 ≠ 2047 := by
    intro he
    simp only [ofBinary64, hf, he, if_true, reduceCtorEq] at h
  refine ⟨decide (2 ^ 63 ≤ b.toNat), b.toNat / 2 ^ 52 % 2 ^ 11, b.toNat % 2 ^ 52, by omega, by omega, ?_⟩
  apply BitVec.eq_of_toNat_eq
  rw [signedPattern_toNat _ (by omega)]
  simp only [decide_eq_true_eq]
  split <;> omega

theorem significand_lt {field fraction : Nat} (h : fraction < 2 ^ 52) : significand field fraction < 2 ^ 53 := by
  unfold significand
  split <;> omega

theorem gridOf_ge (field : Nat) : -1074 ≤ gridOf field := by
  unfold gridOf
  split <;> omega

/-- Every finite value is a whole number of 53 bits of some grid. -/
theorem finite_value_form {b : BitVec 64} {y : Rat} (h : ofBinary64 b = some y) :
    ∃ m g : Int, |(m : Rat)| < 2 ^ 53 ∧ -1074 ≤ g ∧ y = m * (2 : Rat) ^ g := by
  obtain ⟨negative, field, fraction, hfield, hfraction, rfl⟩ := finite_pattern_cases h
  rw [ofBinary64_signedPattern negative hfield hfraction, Option.some.injEq] at h
  have hm : ((significand field fraction : Nat) : Rat) < 2 ^ 53 := by
    exact_mod_cast significand_lt (field := field) hfraction
  have habs : |((significand field fraction : Nat) : Rat)| < 2 ^ 53 := by rwa [abs_of_nonneg (Nat.cast_nonneg _)]
  refine ⟨(if negative then -1 else 1) * significand field fraction, gridOf field, ?_, gridOf_ge field, ?_⟩
  · split <;> simpa using habs
  · rw [← h]
    split <;> push_cast <;> ring

/-! ## Rounding -/

/-- The rounded integer is a nearest one, and even where another is as near. -/
theorem roundHalfEven_nearest (y : Rat) (k : Int) : |y - roundHalfEven y| ≤ |y - k| ∧
    (|y - roundHalfEven y| = |y - k| → k ≠ roundHalfEven y → roundHalfEven y % 2 = 0) := by
  obtain ⟨hhalf, heven⟩ := roundHalfEven_spec y
  by_cases hk : k = roundHalfEven y
  · subst hk
    exact ⟨le_rfl, fun _ hne => absurd rfl hne⟩
  · have hone : (1 : Rat) ≤ |(roundHalfEven y : Rat) - k| := by
      exact_mod_cast Int.one_le_abs (sub_ne_zero.mpr (Ne.symm hk))
    have htri : |(roundHalfEven y : Rat) - k| ≤ |y - roundHalfEven y| + |y - k| := by
      rw [abs_sub_comm y (roundHalfEven y)]
      exact abs_sub_le _ y _
    exact ⟨by linarith, fun htie _ => heven (by linarith)⟩

theorem roundHalfEven_intCast (k : Int) : roundHalfEven k = k := by
  obtain ⟨hnear, -⟩ := roundHalfEven_nearest k k
  rw [sub_self, abs_zero] at hnear
  have hzero : ((k : Rat) - roundHalfEven k) = 0 := abs_eq_zero.mp (hnear.antisymm (abs_nonneg _))
  exact_mod_cast (sub_eq_zero.mp hzero).symm

/-- Rounding passes no integer. -/
theorem le_roundHalfEven {y : Rat} {k : Int} (h : (k : Rat) ≤ y) : k ≤ roundHalfEven y := by
  obtain ⟨hhalf, -⟩ := roundHalfEven_spec y
  obtain ⟨-, hupper⟩ := abs_le.mp hhalf
  have hlt : (k : Rat) < roundHalfEven y + 1 := by linarith
  have : k < roundHalfEven y + 1 := by exact_mod_cast hlt
  omega

theorem roundHalfEven_lt {y : Rat} {k : Int} (h : y < k - 1 / 2) : roundHalfEven y < k := by
  obtain ⟨hhalf, -⟩ := roundHalfEven_spec y
  obtain ⟨hlower, -⟩ := abs_le.mp hhalf
  have : (roundHalfEven y : Rat) < k := by linarith
  exact_mod_cast this

theorem exponentOf_eq {x : Rat} {e : Int} (hlow : (2 : Rat) ^ e ≤ x) (hhigh : x < (2 : Rat) ^ (e + 1)) :
    exponentOf x = e := by
  obtain ⟨hl, hh⟩ := exponentOf_spec ((zpow_pos two_pos e).trans_le hlow)
  rw [pow2_eq] at hl hh
  have h1 : exponentOf x < e + 1 := (zpow_lt_zpow_iff_right₀ one_lt_two).mp (hl.trans_lt hhigh)
  have h2 : e < exponentOf x + 1 := (zpow_lt_zpow_iff_right₀ one_lt_two).mp (hlow.trans_lt hh)
  omega

theorem sabs_eq_abs (x : Rat) : sabs x = |x| := by
  unfold sabs
  split
  · rw [abs_of_neg ‹_›]
  · rw [abs_of_nonneg (not_lt.mp ‹_›)]

/-- The exponent of the grid that `x` is rounded to. -/
def gridExponent (x : Rat) : Int := max (exponentOf |x|) (-1022) - 52

/-- The steps of that grid that `|x|` is rounded to. -/
def gridSteps (x : Rat) : Int := roundHalfEven (|x| / 2 ^ gridExponent x)

theorem gridExponent_ge (x : Rat) : -1074 ≤ gridExponent x := by
  unfold gridExponent
  omega

theorem toBinary64_zero : toBinary64 0 = 0 := if_pos rfl

theorem toBinary64_eq {x : Rat} (hx : x ≠ 0) (hg : gridExponent x ≤ 971) :
    toBinary64 x =
      signedPattern (decide (x < 0)) ((gridExponent x + 1074).toNat * 2 ^ 52 + (gridSteps x).toNat) := by
  unfold gridExponent at hg
  have hover : ¬ 1023 < max (exponentOf |x|) (-1022) := by omega
  have hexp : max (exponentOf |x|) (-1022) + 1022 = gridExponent x + 1074 := by
    unfold gridExponent
    omega
  simp only [toBinary64, if_neg hx, sabs_eq_abs, if_neg hover, pow2_eq, hexp, signedPattern, decide_eq_true_eq]
  rfl

section

variable {x : Rat} (hx : x ≠ 0)
include hx

/-- `|x|` is less than 2^53 steps of its grid. -/
theorem abs_lt_of_gridExponent : |x| < 2 ^ (gridExponent x + 53) := by
  obtain ⟨-, hhigh⟩ := exponentOf_spec (abs_pos.mpr hx)
  rw [pow2_eq] at hhigh
  refine hhigh.trans_le (zpow_le_zpow_right₀ one_le_two ?_)
  unfold gridExponent
  omega

/-- `|x|` is at least 2^52 steps of its grid, unless that is the finest one. -/
theorem le_abs_of_gridExponent (hg : -1074 < gridExponent x) : 2 ^ (gridExponent x + 52) ≤ |x| := by
  obtain ⟨hlow, -⟩ := exponentOf_spec (abs_pos.mpr hx)
  rw [pow2_eq] at hlow
  refine (zpow_le_zpow_right₀ one_le_two ?_).trans hlow
  unfold gridExponent at hg ⊢
  omega

theorem scaled_lt : |x| / 2 ^ gridExponent x < 2 ^ 53 := by
  rw [div_lt_iff₀ (zpow_pos two_pos _), ← zpow_natCast, ← zpow_add₀ two_ne_zero, add_comm]
  exact abs_lt_of_gridExponent hx

theorem gridSteps_le : gridSteps x ≤ 2 ^ 53 := by
  have h : gridSteps x < 2 ^ 53 + 1 := by
    refine roundHalfEven_lt ((scaled_lt hx).trans_le ?_)
    norm_num
  omega

theorem le_gridSteps (hg : -1074 < gridExponent x) : 2 ^ 52 ≤ gridSteps x := by
  have hcast : ((2 ^ 52 : Int) : Rat) = 2 ^ (52 : Int) := by norm_num
  refine le_roundHalfEven ?_
  rw [le_div_iff₀ (zpow_pos two_pos _), hcast, ← zpow_add₀ two_ne_zero, add_comm]
  exact le_abs_of_gridExponent hx hg

end

theorem gridSteps_nonneg (x : Rat) : 0 ≤ gridSteps x :=
  le_roundHalfEven (by simpa using div_nonneg (abs_nonneg x) (zpow_pos two_pos _).le)

/-- Short of the overflow bound the grid is that of a finite value. -/
theorem gridExponent_le {x : Rat} (hx : x ≠ 0) (hb : |x| < 2 ^ 1024 - 2 ^ 970) : gridExponent x ≤ 971 := by
  obtain ⟨hlow, -⟩ := exponentOf_spec (abs_pos.mpr hx)
  rw [pow2_eq] at hlow
  have hlt : (2 : Rat) ^ exponentOf |x| < 2 ^ (1024 : Int) := by
    refine hlow.trans_lt (hb.trans_le ?_)
    rw [zpow_ofNat]
    exact sub_le_self _ (by positivity)
  have hexp : exponentOf |x| < 1024 := (zpow_lt_zpow_iff_right₀ one_lt_two).mp hlt
  unfold gridExponent
  omega

/-- Short of the overflow bound no number of the coarsest grid is rounded up to it. -/
theorem gridSteps_lt {x : Rat} (hb : |x| < 2 ^ 1024 - 2 ^ 970) (hg : gridExponent x = 971) :
    gridSteps x < 2 ^ 53 := by
  have hbound : (2 : Rat) ^ 1024 = 2 ^ 54 * 2 ^ 970 := (pow_add 2 54 970)
  have hgrid : (2 : Rat) ^ (971 : Int) = 2 * 2 ^ 970 := by rw [zpow_ofNat, ← pow_succ']
  refine roundHalfEven_lt ?_
  rw [hg, div_lt_iff₀ (zpow_pos two_pos _)]
  refine hb.trans_eq ?_
  rw [hbound, hgrid]
  generalize (2 : Rat) ^ 970 = t
  push_cast
  ring

/-! ## The value of the rounded pattern -/

/-- A number of steps of a grid has a pattern: one of 2^53 steps is the least of the next grid. -/
theorem exists_fields_of_steps {g : Int} {m : Nat} (hlow : -1074 ≤ g) (hhigh : g ≤ 971) (hm : m ≤ 2 ^ 53)
    (hnormal : -1074 < g → 2 ^ 52 ≤ m) (hover : g = 971 → m < 2 ^ 53) :
    ∃ field fraction, field < 2047 ∧ fraction < 2 ^ 52 ∧ (g + 1074).toNat * 2 ^ 52 + m = field * 2 ^ 52 + fraction ∧
      (significand field fraction : Rat) * 2 ^ gridOf field = m * 2 ^ g := by
  rcases Nat.lt_or_ge m (2 ^ 52) with hsub | hnorm
  · obtain rfl : g = -1074 := by omega
    exact ⟨0, m, by omega, hsub, by omega, rfl⟩
  · have hfield : (g + 1074).toNat + 1 ≠ 0 := by omega
    rcases Nat.lt_or_ge m (2 ^ 53) with hlt | hge
    · refine ⟨(g + 1074).toNat + 1, m - 2 ^ 52, by omega, by omega, by omega, ?_⟩
      have hs : significand ((g + 1074).toNat + 1) (m - 2 ^ 52) = m := by
        rw [significand, if_neg hfield]
        omega
      have hgrid : gridOf ((g + 1074).toNat + 1) = g := by
        rw [gridOf, if_neg hfield]
        omega
      rw [hs, hgrid]
    · obtain rfl : m = 2 ^ 53 := by omega
      refine ⟨(g + 1074).toNat + 2, 0, by omega, by omega, by omega, ?_⟩
      have hgrid : gridOf ((g + 1074).toNat + 2) = g + 1 := by
        rw [gridOf, if_neg (by omega)]
        omega
      rw [significand, if_neg (by omega), hgrid, zpow_add_one₀ two_ne_zero]
      push_cast
      ring

/-- The sign of a number, as a factor. -/
def signFactor (x : Rat) : Rat := if x < 0 then -1 else 1

theorem signFactor_mul_self (x : Rat) : signFactor x * signFactor x = 1 := by
  unfold signFactor
  split <;> norm_num

theorem signFactor_mul_abs (x : Rat) : signFactor x * |x| = x := by
  unfold signFactor
  split
  · rw [abs_of_neg ‹_›]
    ring
  · rw [abs_of_nonneg (not_lt.mp ‹_›), one_mul]

theorem abs_signFactor (x : Rat) : |signFactor x| = 1 := by
  unfold signFactor
  split <;> norm_num

/-- A number is as far from `x` as the number with `x`'s sign taken off is from `|x|`. -/
theorem abs_sub_eq_signFactor (x y : Rat) : |x - y| = |(|x| - signFactor x * y)| := by
  have h : x - y = signFactor x * (|x| - signFactor x * y) := by
    rw [mul_sub, signFactor_mul_abs, ← mul_assoc, signFactor_mul_self, one_mul]
  rw [h, abs_mul, abs_signFactor, one_mul]

/-- The value of the pattern that a number is rounded to. -/
def rounded (x : Rat) : Rat := signFactor x * (gridSteps x * 2 ^ gridExponent x)

theorem ofBinary64_toBinary64 {x : Rat} (hx : x ≠ 0) (hb : |x| < 2 ^ 1024 - 2 ^ 970) :
    ofBinary64 (toBinary64 x) = some (rounded x) := by
  have hg := gridExponent_le hx hb
  have hn := gridSteps_nonneg x
  have hle := gridSteps_le hx
  have hnormal := le_gridSteps hx
  have hover := gridSteps_lt hb
  obtain ⟨field, fraction, hfield, hfraction, hpattern, hvalue⟩ :=
    exists_fields_of_steps (m := (gridSteps x).toNat) (gridExponent_ge x) hg (by omega) (by omega) (by omega)
  have hcast : (((gridSteps x).toNat : Nat) : Rat) = gridSteps x := by exact_mod_cast Int.toNat_of_nonneg hn
  rw [toBinary64_eq hx hg, hpattern, ofBinary64_signedPattern _ hfield hfraction, hvalue, hcast, rounded, signFactor]
  simp only [decide_eq_true_eq]

theorem toBinary64_lastBit {x : Rat} (hx : x ≠ 0) (hb : |x| < 2 ^ 1024 - 2 ^ 970) (heven : gridSteps x % 2 = 0) :
    (toBinary64 x).getLsbD 0 = false := by
  have hn := gridSteps_nonneg x
  rw [toBinary64_eq hx (gridExponent_le hx hb), signedPattern, BitVec.getLsbD_ofNat]
  simp only [Nat.testBit_zero, Nat.zero_lt_succ, decide_true, Bool.true_and, decide_eq_false_iff_not]
  split <;> omega

/-- Of the values of a number's own grid the rounded one is a nearest, and the one of an even number of steps where
another is as near. -/
theorem rounded_nearest_on_grid (x : Rat) (k : Int) :
    let y := signFactor x * (k * (2 : Rat) ^ gridExponent x)
    |x - rounded x| ≤ |x - y| ∧ (|x - rounded x| = |x - y| → y ≠ rounded x → gridSteps x % 2 = 0) := by
  have hu : (0 : Rat) < 2 ^ gridExponent x := zpow_pos two_pos _
  have hdist (j : Int) : |x - signFactor x * (j * (2 : Rat) ^ gridExponent x)| =
      |(|x| / 2 ^ gridExponent x - j)| * 2 ^ gridExponent x := by
    rw [abs_sub_eq_signFactor, ← mul_assoc, signFactor_mul_self, one_mul]
    nth_rewrite 3 [← abs_of_pos hu]
    rw [← abs_mul, sub_mul, div_mul_cancel₀ _ hu.ne']
  obtain ⟨hnear, htie⟩ := roundHalfEven_nearest (|x| / 2 ^ gridExponent x) k
  dsimp only
  rw [rounded, hdist, hdist]
  refine ⟨mul_le_mul_of_nonneg_right hnear hu.le, fun heq hne => htie (mul_right_cancel₀ hu.ne' heq) ?_⟩
  rintro rfl
  exact hne rfl

/-- A finite value is on the grid of `x`, or it is nearer to 0 than `x` and every number of that grid below it. -/
theorem finite_value_grid_cases {b : BitVec 64} {y : Rat} (h : ofBinary64 b = some y) (g : Int) :
    (∃ k : Int, y = k * (2 : Rat) ^ g) ∨ (|y| < 2 ^ (g + 52) ∧ -1074 < g) := by
  obtain ⟨m, e, hm, he, rfl⟩ := finite_value_form h
  rcases le_or_gt g e with hge | hlt
  · refine .inl ⟨m * 2 ^ (e - g).toNat, ?_⟩
    push_cast
    rw [mul_assoc, ← zpow_natCast, ← zpow_add₀ two_ne_zero]
    congr 2
    omega
  · refine .inr ⟨?_, by omega⟩
    rw [abs_mul, abs_of_pos (a := (2 : Rat) ^ e) (zpow_pos two_pos e)]
    calc |(m : Rat)| * 2 ^ e < 2 ^ 53 * 2 ^ e := by
          exact mul_lt_mul_of_pos_right hm (zpow_pos two_pos e)
      _ = 2 ^ (e + 53) := by rw [add_comm, zpow_add₀ two_ne_zero, zpow_ofNat]
      _ ≤ 2 ^ (g + 52) := zpow_le_zpow_right₀ one_le_two (by omega)

/-- Of all finite values the rounded one is a nearest. -/
theorem rounded_nearest {x : Rat} (hx : x ≠ 0) {b : BitVec 64} {y : Rat} (h : ofBinary64 b = some y) :
    |x - rounded x| ≤ |x - y| ∧ (|x - rounded x| = |x - y| → y ≠ rounded x → gridSteps x % 2 = 0) := by
  rcases finite_value_grid_cases h (gridExponent x) with ⟨k, hk⟩ | ⟨hsmall, hg⟩
  · have hgrid : ∃ j : Int, y = signFactor x * (j * (2 : Rat) ^ gridExponent x) := by
      unfold signFactor
      split
      · exact ⟨-k, by rw [hk]; push_cast; ring⟩
      · exact ⟨k, by rw [hk, one_mul]⟩
    obtain ⟨j, rfl⟩ := hgrid
    exact rounded_nearest_on_grid x j
  · have hle := le_abs_of_gridExponent hx hg
    have hbase : |x - rounded x| ≤ |x| - 2 ^ (gridExponent x + 52) := by
      obtain ⟨hnear, -⟩ := rounded_nearest_on_grid x (2 ^ 52)
      refine hnear.trans_eq ?_
      rw [abs_sub_eq_signFactor, ← mul_assoc, signFactor_mul_self, one_mul, add_comm, zpow_add₀ two_ne_zero,
        zpow_ofNat]
      push_cast
      refine abs_of_nonneg (sub_nonneg.mpr ?_)
      rwa [add_comm, zpow_add₀ two_ne_zero, zpow_ofNat] at hle
    have hfar := abs_sub_abs_le_abs_sub x y
    exact ⟨by linarith, fun htie _ => absurd htie (by linarith)⟩

/-! ## The pattern of a binary64 value -/

theorem ofBinary64_zero : ofBinary64 0 = some 0 := by
  simpa [signedPattern, significand] using
    ofBinary64_signedPattern false (field := 0) (fraction := 0) (by decide) (by decide)

theorem significand_pos {field fraction : Nat} (h : field ≠ 0 ∨ fraction ≠ 0) : 0 < significand field fraction := by
  unfold significand
  split <;> omega

theorem significand_eq_zero {field fraction : Nat} (h : significand field fraction = 0) :
    field * 2 ^ 52 + fraction = 0 := by
  by_contra hne
  exact (significand_pos (show field ≠ 0 ∨ fraction ≠ 0 by omega)).ne' h

/-- A magnitude is its grid's place plus its steps of it. -/
theorem gridOf_add_significand (field fraction : Nat) :
    (gridOf field + 1074).toNat * 2 ^ 52 + significand field fraction = field * 2 ^ 52 + fraction := by
  unfold gridOf significand
  split <;> omega

theorem gridExponent_of_abs {x : Rat} {field fraction : Nat} (hfraction : fraction < 2 ^ 52) (hx : x ≠ 0)
    (habs : |x| = significand field fraction * (2 : Rat) ^ gridOf field) : gridExponent x = gridOf field := by
  have hu : (0 : Rat) < 2 ^ gridOf field := zpow_pos two_pos _
  by_cases h0 : field = 0
  · have hlt : |x| < 2 ^ (-1022 : Int) := by
      have hs : ((significand field fraction : Nat) : Rat) < 2 ^ (52 : Int) := by
        rw [significand, if_pos h0]
        exact_mod_cast hfraction
      rw [habs, show (-1022 : Int) = 52 + gridOf field by simp [gridOf, h0], zpow_add₀ two_ne_zero]
      exact mul_lt_mul_of_pos_right hs hu
    obtain ⟨hlow, -⟩ := exponentOf_spec (abs_pos.mpr hx)
    rw [pow2_eq] at hlow
    have hexp : exponentOf |x| < -1022 := (zpow_lt_zpow_iff_right₀ one_lt_two).mp (hlow.trans_lt hlt)
    rw [gridExponent, gridOf, if_pos h0]
    omega
  · have hlow : (2 : Rat) ^ (52 : Int) ≤ significand field fraction := by
      rw [significand, if_neg h0]
      exact_mod_cast Nat.le_add_right _ _
    have hhigh : ((significand field fraction : Nat) : Rat) < 2 ^ (53 : Int) := by
      exact_mod_cast significand_lt hfraction
    have hexp : exponentOf |x| = 52 + gridOf field := by
      apply exponentOf_eq
      · rw [habs, zpow_add₀ two_ne_zero]
        exact mul_le_mul_of_nonneg_right hlow hu.le
      · rw [habs, show (52 : Int) + gridOf field + 1 = 53 + gridOf field by ring, zpow_add₀ two_ne_zero]
        exact mul_lt_mul_of_pos_right hhigh hu
    rw [gridExponent, hexp, gridOf, if_neg h0]
    omega

/-- A binary64 value, but for -0, reads as its own pattern. -/
theorem toBinary64_of_finite {b : BitVec 64} {x : Rat} (h : ofBinary64 b = some x)
    (hb : b ≠ 0x8000000000000000) : toBinary64 x = b := by
  obtain ⟨negative, field, fraction, hfield, hfraction, rfl⟩ := finite_pattern_cases h
  rw [ofBinary64_signedPattern negative hfield hfraction, Option.some.injEq] at h
  have hu : (0 : Rat) < 2 ^ gridOf field := zpow_pos two_pos _
  rcases (significand field fraction).eq_zero_or_pos with hzero | hpos
  · have hx : x = 0 := by simp [← h, hzero]
    rw [significand_eq_zero hzero] at hb ⊢
    rw [hx, toBinary64_zero]
    cases negative with
    | true => exact absurd rfl hb
    | false => rfl
  · have hmag : (0 : Rat) < significand field fraction * 2 ^ gridOf field := mul_pos (by exact_mod_cast hpos) hu
    have hsign : decide (x < 0) = negative := by
      cases negative with
      | true => simpa [← h] using hmag
      | false => simpa [← h] using hmag.le
    have habs : |x| = significand field fraction * (2 : Rat) ^ gridOf field := by
      rw [← h, abs_mul, abs_of_pos hmag]
      cases negative <;> simp
    have hx : x ≠ 0 := abs_pos.mp (habs ▸ hmag)
    have hg := gridExponent_of_abs hfraction hx habs
    have hsteps : gridSteps x = significand field fraction := by
      rw [gridSteps, hg, habs, mul_div_cancel_right₀ _ hu.ne']
      exact roundHalfEven_intCast (significand field fraction : Nat)
    have hle : gridOf field ≤ 971 := by
      unfold gridOf
      split <;> omega
    rw [toBinary64_eq hx (hg.trans_le hle), hsign, hg, hsteps, Int.toNat_natCast, gridOf_add_significand]

/-- Settles O13: a binary64 value is on its own grid, and any other number is rounded to a nearest value of its grid,
than which no finite value is nearer. -/
theorem binary64ValuesReadAsTheirPattern : Obligations.Binary64ValuesReadAsTheirPattern := by
  refine ⟨fun b x h hb => toBinary64_of_finite h hb, fun x hb => ?_⟩
  by_cases hx : x = 0
  · subst hx
    refine ⟨0, by rw [toBinary64_zero, ofBinary64_zero], fun b y _ => ?_⟩
    rw [sub_zero, abs_zero, zero_sub, abs_neg]
    exact ⟨abs_nonneg y, fun htie hne => absurd (abs_eq_zero.mp htie.symm) hne⟩
  · refine ⟨rounded x, ofBinary64_toBinary64 hx hb, fun b y h => ?_⟩
    obtain ⟨hnear, htie⟩ := rounded_nearest hx h
    exact ⟨hnear, fun heq hne => toBinary64_lastBit hx hb (htie heq hne)⟩

end Sys2Proof.Machine
end

section
/-! Arrays (20_memory R71, 10_state R25, R30, R31): a stage body writes its whole array before it sets the tag, and
DEMUX keeps ANOMALY_LAST and FEED_BUF in their ranges. -/

namespace Sys2Proof.Machine

/-! ## Lengths of what the stages write -/

@[simp] theorem derotate_length (P : Params) (ebuf : List Cplx) (start : Nat) (nco eps : Scalar) :
    (derotate P ebuf start nco eps).length = P.n := by
  simp [derotate]

@[simp] theorem forwardTransform_length (P : Params) (td : List Cplx) : (forwardTransform P td).length = P.n := by
  simp [forwardTransform]

@[simp] theorem equalizerTable_length (P : Params) (fd : List Cplx) :
    (equalizerTable P fd).length = P.kMax + 1 := by
  simp [equalizerTable]

@[simp] theorem tpsPhasors_length (P : Params) (fd : List Cplx) : (tpsPhasors P fd).length = P.tpsList.length := by
  simp [tpsPhasors]

/-! ## The demux's ranges -/

/-- ANOMALY_LAST and FEED_BUF are in their ranges (10_state R30, R31). -/
def DemuxState.InRange (P : Params) (d : DemuxState) : Prop := d.anomalyLast ≤ P.kMax + 1 ∧ d.feedBuf.length ≤ 2

theorem State.missedPilots_dmx (k : Nat) : ∀ s : State, (s.missedPilots k).dmx = s.dmx := by
  induction k with
  | zero => exact fun _ => rfl
  | succ k ih => exact fun s => ih _

theorem State.qualityAccount_dmx (P : Params) (s : State) (k : Nat) :
    (s.qualityAccount P k).dmx = { s.dmx with anomalyLast := k } := by
  obtain ⟨items, -, h⟩ := State.qualityAccount_eq P s k
  rw [h]

/-- The anomalies of a walk are the new ANOMALY_LAST, and what the feeder leaves is less than a period. -/
theorem demuxWalked_inRange {P : Params} {w : WalkResult} {s : State} (hw : w.anomalies ≤ P.kMax + 1)
    (h : s.dmx.InRange P) : (demuxWalked P w s).2.dmx.InRange P := by
  obtain ⟨-, hleftover⟩ := h
  have hwalk : ((s.missedPilots w.missed).qualityAccount P w.anomalies).dmx =
      { s.dmx with anomalyLast := w.anomalies } := by
    rw [State.qualityAccount_dmx, State.missedPilots_dmx]
  have hin : ((s.missedPilots w.missed).qualityAccount P w.anomalies).dmx.InRange P := by
    rw [hwalk]
    exact ⟨hw, hleftover⟩
  unfold demuxWalked
  dsimp only
  split
  · exact hin
  · split
    · rw [State.emitAndFeed_eq]
      obtain ⟨hanomalies, -⟩ := hin
      exact ⟨hanomalies, cutBits_leftover _ _⟩
    · exact hin

theorem demuxRun_inRange {P : Params} {s : State} (h : s.dmx.InRange P) : (demuxRun P s).2.dmx.InRange P := by
  unfold demuxRun
  dsimp only
  split
  · exact h
  · exact demuxWalked_inRange (walk_anomalies_le _ _ _) h

/-! ## Every change -/

namespace ArrayInv

variable {P : Params} {s t : State}

/-- The arrays are all in the block registers, the TPS decoder and the demux. -/
theorem of_eq (h : ArrayInv P s) (hblk : t.blk = s.blk) (htps : t.tps = s.tps) (hdmx : t.dmx = s.dmx) :
    ArrayInv P t := by
  obtain ⟨htd, hfd, heqb, heqPh, heqAmp, hprev, hanomalies, hleftover⟩ := h
  constructor <;> simp only [hblk, htps, hdmx] <;> assumption

theorem reset (s : State) : ArrayInv theParams s.resetChannel where
  td h := absurd rfl h
  fd h := absurd rfl h
  eqb h := absurd rfl h
  eqPh := List.length_replicate
  eqAmp := List.length_replicate
  prev := List.length_replicate
  anomalies := Nat.zero_le _
  leftover := Nat.zero_le _

theorem outputBlock (h : ArrayInv P s) (e : Estimate) : ArrayInv P (outputBlock P e s) := by
  obtain ⟨items, -, heq⟩ := outputBlock_eq P e s
  rw [heq]
  exact { h with td := fun _ => derotate_length .. }

theorem estFrom (h : ArrayInv P s) (got : Nat) : ArrayInv P (estFrom P got s).state := by
  have filled (zs : List Cplx) (rest : List SampleItem) : ArrayInv P (s.filled zs rest) := h.of_eq rfl rfl rfl
  rcases estFrom_cases P got s with
    ⟨zs, rest, -, -, -, heq⟩ | ⟨zs, -, -, -, heq⟩ | ⟨zs, rest, c, -, -, heq⟩ <;> rw [heq]
  · exact (filled zs rest).outputBlock _
  · exact filled zs []
  · obtain ⟨_, _, _, hc, -, -⟩ := c.effect_cases
      { s.filled zs rest with est := { (s.filled zs rest).est with eosSeen := true } }
    simp only [EstEnd.state, hc]
    exact (filled zs rest).of_eq rfl rfl rfl

theorem fftBody (h : ArrayInv P s) : ArrayInv P (fftBody P s).2 := by
  rcases fftBody_cases P s with ⟨-, heq⟩ | ⟨-, -, heq⟩ | ⟨-, -, heq⟩ <;> rw [heq]
  · exact h
  · exact h.of_eq rfl rfl rfl
  · exact { h with fd := fun _ => forwardTransform_length .. }

theorem equalize (h : ArrayInv P s) : ArrayInv P (equalize P s) :=
  { h with
    eqb := fun _ => by simp [Machine.equalize]
    eqPh := by simp [Machine.equalize]
    eqAmp := by simp [Machine.equalize] }

theorem eqBody (h : ArrayInv P s) : ArrayInv P (eqBody P s).2 := by
  rcases eqBody_cases P s with ⟨-, heq⟩ | ⟨-, -, heq⟩ | ⟨-, -, heq⟩ <;> rw [heq]
  · exact h
  · exact h.of_eq rfl rfl rfl
  · exact h.equalize

theorem tpsBody (h : ArrayInv P s) : ArrayInv P (tpsBody P s).2 := by
  rcases tpsBody_cases P s with ⟨-, heq⟩ | ⟨-, -, heq⟩ | ⟨-, -, -, heq⟩ <;> rw [heq]
  · exact h
  · exact h.of_eq rfl rfl rfl
  · rw [tpsStep_eq]
    refine { h with prev := ?_ }
    rw [tpsAdvance_prev, tpsReceive_prev, tpsPhasors_length]

theorem demuxBody (h : ArrayInv P s) : ArrayInv P (demuxBody P s).2 := by
  have hsame : Same .tps s (Machine.demuxBody P s).2 := demuxBody_same (by simp [Part.WrittenBy]) P s
  obtain ⟨htps, -⟩ := hsame.fields
  rcases demuxBody_cases P s with ⟨-, heq⟩ | ⟨-, -, heq⟩ | ⟨-, -, heq⟩ <;> rw [heq] at htps ⊢
  · exact h
  · exact h.of_eq rfl rfl rfl
  · obtain ⟨hanomalies, hleftover⟩ := demuxRun_inRange (s := s) ⟨h.anomalies, h.leftover⟩
    have hrun : ArrayInv P
        { s with blk := { s.blk with dmxId := s.blk.fdId }, dmx := (demuxRun P s).2.dmx } :=
      { h with anomalies := hanomalies, leftover := hleftover }
    exact hrun.of_eq (demuxRun_blk P s) htps rfl

end ArrayInv

theorem Change.keeps_arrayInv {s t : State} (hc : Change s t) (h : ArrayInv theParams s) : ArrayInv theParams t := by
  cases hc with
  | est got => exact h.estFrom got
  | fft => exact h.fftBody
  | eq => exact h.eqBody
  | tps => exact h.tpsBody
  | demux => exact h.demuxBody
  | _ => exact h.of_eq rfl rfl rfl

/-- Settles O58: RESET sets every array it has a value for, and every change keeps them. -/
theorem stepKeepsTheArrayInvariant : Obligations.StepKeepsTheArrayInvariant := fun _ _ h hstep =>
  step_keeps (fun s _ _ => (ArrayInv.reset s).of_eq rfl rfl rfl) (fun _ _ => Change.keeps_arrayInv) hstep h

end Sys2Proof.Machine
end

section
/-! Cells of a symbol (20_memory R75, R76, 44_demux R233 to R236): how many carriers each class has. The scattered
pilots' number depends on the symbol, but those that are no continual pilots are as many in every symbol. -/

namespace Sys2Proof.Machine

/-! ## Carriers by class -/

/-- The carriers of one class in symbol `sym`. -/
def carriersOfClass (sym : Nat) (cls : CarrierClass) : Finset Nat :=
  (Finset.range 1705).filter fun c => carrierClass theParams sym c = cls

/-- The carriers on the scattered grid of a symbol, the continual pilots among them (44_demux R236). -/
def scatteredGrid (sym : Nat) : Finset Nat := (Finset.range 1705).filter fun c => c % 12 = 3 * (sym % 4)

theorem cpList2K_lt : ∀ c ∈ cpList2K, c < 1705 := by decide

theorem tpsList2K_lt : ∀ c ∈ tpsList2K, c < 1705 := by decide

/-- No TPS carrier is a continual pilot (20_memory R76). -/
theorem tpsList2K_not_continual : ∀ c ∈ tpsList2K, c ∉ cpList2K := by decide

/-- Pilots are at multiples of 3 and TPS carriers are not, so no TPS carrier is on a scattered grid. -/
theorem tpsList2K_not_on_grid : ∀ c ∈ tpsList2K, c % 3 ≠ 0 := by decide

theorem mem_carriersOfClass {sym c : Nat} {cls : CarrierClass} :
    c ∈ carriersOfClass sym cls ↔ c < 1705 ∧ carrierClass theParams sym c = cls := by
  rw [carriersOfClass, Finset.mem_filter, Finset.mem_range]

theorem carrierClass_eq_continual {P : Params} {sym c : Nat} :
    carrierClass P sym c = .continual ↔ c ∈ P.cpList := by
  unfold carrierClass
  split_ifs <;> simp [*]

theorem carrierClass_eq_tps {P : Params} {sym c : Nat} :
    carrierClass P sym c = .tps ↔ c ∉ P.cpList ∧ c ∈ P.tpsList := by
  unfold carrierClass
  split_ifs <;> simp [*]

theorem carrierClass_eq_scattered {P : Params} {sym c : Nat} :
    carrierClass P sym c = .scattered ↔ c ∉ P.cpList ∧ c ∉ P.tpsList ∧ c % 12 = 3 * (sym % 4) := by
  unfold carrierClass
  split_ifs <;> simp [*]

theorem carriersOfClass_continual (sym : Nat) : carriersOfClass sym .continual = cpList2K.toFinset := by
  ext c
  rw [mem_carriersOfClass, carrierClass_eq_continual, theParams_cpList, List.mem_toFinset]
  exact and_iff_right_of_imp (cpList2K_lt c)

theorem carriersOfClass_tps (sym : Nat) : carriersOfClass sym .tps = tpsList2K.toFinset := by
  ext c
  rw [mem_carriersOfClass, carrierClass_eq_tps, theParams_cpList, theParams_tpsList, List.mem_toFinset]
  exact ⟨fun ⟨_, _, hc⟩ => hc, fun hc => ⟨tpsList2K_lt c hc, tpsList2K_not_continual c hc, hc⟩⟩

theorem carriersOfClass_scattered (sym : Nat) :
    carriersOfClass sym .scattered = scatteredGrid sym \ cpList2K.toFinset := by
  ext c
  have hgrid : c % 12 = 3 * (sym % 4) → c ∉ tpsList2K := fun h hc => tpsList2K_not_on_grid c hc (by omega)
  rw [mem_carriersOfClass, carrierClass_eq_scattered, theParams_cpList, theParams_tpsList, Finset.mem_sdiff,
    scatteredGrid, Finset.mem_filter, Finset.mem_range, List.mem_toFinset]
  tauto

/-! ## How many -/

theorem card_continual (sym : Nat) : (carriersOfClass sym .continual).card = 45 := by
  rw [carriersOfClass_continual, List.toFinset_card_of_nodup (cpList2K_ascending.imp Nat.ne_of_lt), cpList2K_length]

theorem card_tps (sym : Nat) : (carriersOfClass sym .tps).card = 17 := by
  rw [carriersOfClass_tps, List.toFinset_card_of_nodup (tpsList2K_ascending.imp Nat.ne_of_lt), tpsList2K_length]

/-- The grid through carrier 0 holds the last carrier too, so one more than the others. -/
theorem card_scatteredGrid (sym : Nat) : (scatteredGrid sym).card = 142 + if sym % 4 = 0 then 1 else 0 := by
  have hmod : scatteredGrid sym = (Finset.range 1705).filter fun c => c ≡ 3 * (sym % 4) [MOD 12] := by
    refine Finset.filter_congr fun c _ => ?_
    rw [Nat.ModEq, Nat.mod_eq_of_lt (by omega : 3 * (sym % 4) < 12)]
  rw [hmod, ← Nat.count_eq_card_filter_range, Nat.count_modEq_card _ (by omega)]
  split_ifs <;> omega

theorem card_continual_of_residue : ∀ r < 4,
    (cpList2K.toFinset.filter fun c => c % 12 = 3 * r).card = 11 + if r = 0 then 1 else 0 := by
  decide +kernel

/-- It holds one more continual pilot than the others, too. -/
theorem card_continual_on_grid (sym : Nat) :
    (cpList2K.toFinset ∩ scatteredGrid sym).card = 11 + if sym % 4 = 0 then 1 else 0 := by
  have hfilter : cpList2K.toFinset ∩ scatteredGrid sym =
      cpList2K.toFinset.filter fun c => c % 12 = 3 * (sym % 4) := by
    ext c
    have hlt := cpList2K_lt c
    rw [scatteredGrid, Finset.mem_inter, Finset.mem_filter, Finset.mem_filter, Finset.mem_range, List.mem_toFinset]
    tauto
  rw [hfilter, card_continual_of_residue _ (Nat.mod_lt _ (by omega))]

theorem card_scattered (sym : Nat) : (carriersOfClass sym .scattered).card = 131 := by
  rw [carriersOfClass_scattered, Finset.card_sdiff, card_scatteredGrid, card_continual_on_grid]
  split_ifs <;> rfl

/-- The data carriers are those of no other class: 1705 - 45 - 17 - 131. -/
theorem card_data (sym : Nat) : (carriersOfClass sym .data).card = 1512 := by
  have hclasses : (Finset.range 1705).card =
      ∑ cls ∈ {CarrierClass.continual, .tps, .scattered, .data}, (carriersOfClass sym cls).card :=
    Finset.card_eq_sum_card_fiberwise fun c _ => by cases carrierClass theParams sym c <;> simp
  rw [Finset.card_range, Finset.sum_insert (by decide), Finset.sum_insert (by decide), Finset.sum_insert (by decide),
    Finset.sum_singleton, card_continual, card_tps, card_scattered] at hclasses
  omega

/-! ## DEMUX -/

theorem dataCells_length (eqb : List Cplx) (sym : Nat) : (dataCells theParams eqb sym).length = 1512 := by
  have hcard := card_data sym
  rw [carriersOfClass, ← Nat.count_eq_card_filter_range, Nat.count, List.countP_eq_length_filter] at hcard
  rwa [dataCells, List.length_map, theParams_kMax]

theorem walk_cells_length (eqb : List Cplx) (sym : Nat) : (walk theParams eqb sym).cells.length = 1512 := by
  simp only [walk_eq, dataCells_length]

theorem walk_missed (eqb : List Cplx) (sym : Nat) : (walk theParams eqb sym).missed = 0 := by
  rw [walk_eq]

/-- A DEMUX in order ends in OK, or in CONFIG_ERROR before the walk. -/
theorem demuxRun_status (s : State) :
    (demuxRun theParams s).1 = .ok ∨ (demuxRun theParams s).1 = .configError := by
  unfold demuxRun
  dsimp only
  split
  · exact .inr rfl
  · rw [demuxWalked_eq theParams _ _ (walk_missed _ _) (walk_cells_length _ _)]
    exact .inl rfl

theorem demuxBody_status_ne (s : State) : (demuxBody theParams s).1 ≠ .consistencyError := by
  rcases demuxBody_cases theParams s with ⟨-, heq⟩ | ⟨-, -, heq⟩ | ⟨-, -, heq⟩ <;> rw [heq]
  · exact nofun
  · exact nofun
  · rcases demuxRun_status s with hcode | hcode <;> rw [hcode] <;> exact nofun

/-- Settles O41: the classes' numbers leave 1512 carriers to the data cells, so the count check passes. -/
theorem everySymbolHas1512Cells : Obligations.EverySymbolHas1512Cells := by
  refine ⟨fun eqb sym => ⟨walk_cells_length eqb sym, walk_missed eqb sym⟩, fun s t h => ?_⟩
  cases h
  refine ⟨_, ?_, demuxBody_status_ne s⟩
  rw [respondStage, State.respond_respPort, (demuxBody_frame theParams s).respPort]

end Sys2Proof.Machine
end

section
/-! Packed bytes (20_memory R72, 30_encoding R112): eight bits at a time, the first of them bit 7 of its byte. -/

namespace Sys2Proof.Machine

/-- Packing takes eight bits off the head. -/
theorem packBits_append {bits : List Bool} (h : bits.length = 8) (rest : List Bool) :
    packBits (bits ++ rest) = byteOfBits bits :: packBits rest := by
  match bits, h with
  | [_, _, _, _, _, _, _, _], _ => rfl

/-- A whole number of bytes is that many packed bytes. -/
theorem packBits_length (n : Nat) : ∀ x : List Bool, x.length = 8 * n → (packBits x).length = n := by
  induction n with
  | zero =>
    intro x hx
    rw [List.eq_nil_of_length_eq_zero hx]
    rfl
  | succ n ih =>
    intro x hx
    have hhead : (x.take 8).length = 8 := by rw [List.length_take]; omega
    have htail : (x.drop 8).length = 8 * n := by rw [List.length_drop]; omega
    rw [← List.take_append_drop 8 x, packBits_append hhead, List.length_cons, ih _ htail]

/-- Byte `i` of them is packed from the bits from bit `8 i` on. -/
theorem packBits_getElem? (n : Nat) : ∀ (x : List Bool) (i : Nat), x.length = 8 * n → i < n →
    (packBits x)[i]? = some (byteOfBits ((x.drop (8 * i)).take 8)) := by
  induction n with
  | zero => exact fun _ i _ hi => absurd hi (Nat.not_lt_zero i)
  | succ n ih =>
    intro x i hx hi
    have hhead : (x.take 8).length = 8 := by rw [List.length_take]; omega
    have htail : (x.drop 8).length = 8 * n := by rw [List.length_drop]; omega
    have hpack : packBits x = byteOfBits (x.take 8) :: packBits (x.drop 8) := by
      rw [← packBits_append hhead, List.take_append_drop]
    rw [hpack]
    cases i with
    | zero => rfl
    | succ i =>
      rw [List.getElem?_cons_succ, ih _ i htail (by omega), List.drop_drop, Nat.mul_succ, Nat.add_comm]

/-- Settles O45: bit `j` is the one at `j mod 8` of the eight that byte `j div 8` is packed from. -/
theorem bytesArePackedMsbFirst : Obligations.BytesArePackedMsbFirst := by
  intro x hx
  have hlen : x.length = 8 * (x.length / 8) := by omega
  refine ⟨packBits_length _ x hlen, fun j b hj hb => ?_⟩
  rw [packBits_getElem? _ x (j / 8) hlen (by omega)] at hb
  obtain rfl := Option.some.inj hb
  have hj8 : 8 * (j / 8) + j % 8 = j := Nat.div_add_mod j 8
  rw [byteOfBits_getLsbD _ _ (List.length_take_le _ _) (Nat.mod_lt j (by omega)), List.getD_eq_getElem?_getD,
    List.getElem?_take_of_lt (Nat.mod_lt j (by omega)), List.getElem?_drop, hj8, List.getElem?_eq_getElem hj,
    Option.getD_some]

end Sys2Proof.Machine
end

section
/-! The decoder against the encoder (30_encoding R90 to R97). Each format accepts a word exactly when the operand
field is the one that the encoder writes, so the words of the well-formed commands are exactly the legal words. -/

namespace Sys2Proof

/-- Two adjacent fields of a word hold `a` and `b` exactly when the field they make up holds `a ++ b`. -/
theorem extractLsb'_eq_append_iff {k m n : Nat} (w : BitVec k) (start : Nat) (a : BitVec m) (b : BitVec n) :
    w.extractLsb' start (m + n) = a ++ b ↔ w.extractLsb' (start + n) m = a ∧ w.extractLsb' start n = b := by
  rw [← BitVec.extractLsb'_append_extractLsb'_eq_extractLsb' (x := w) rfl]
  constructor
  · intro h
    have hhi := congrArg (BitVec.extractLsb' n m) h
    have hlo := congrArg (BitVec.extractLsb' 0 n) h
    rw [BitVec.extractLsb'_append_eq_left, BitVec.extractLsb'_append_eq_left] at hhi
    rw [BitVec.extractLsb'_append_eq_right, BitVec.extractLsb'_append_eq_right] at hlo
    exact ⟨hhi, hlo⟩
  · rintro ⟨rfl, rfl⟩
    rfl

theorem bitField_inj {a b : Bool} : bitField a = bitField b ↔ a = b := by
  cases a <;> cases b <;> decide

theorem extractLsb'_one_eq_bitField {k : Nat} (w : BitVec k) (i : Nat) :
    w.extractLsb' i 1 = bitField (w.getLsbD i) := by
  apply BitVec.eq_of_getLsbD_eq
  intro j hj
  obtain rfl : j = 0 := by omega
  simp [bitField]

theorem operandField_eq_W_iff (w : Word) (reg : BitVec 8) (val : BitVec 16) :
    operandField w = reg ++ val ↔ w.extractLsb' 16 8 = reg ∧ w.extractLsb' 0 16 = val :=
  extractLsb'_eq_append_iff w 0 reg val

theorem operandField_eq_R_iff (w : Word) (idx : BitVec 8) :
    operandField w = (0 : BitVec 16) ++ idx ↔ w.extractLsb' 8 16 = 0 ∧ w.extractLsb' 0 8 = idx :=
  extractLsb'_eq_append_iff w 0 0 idx

theorem operandField_eq_V_iff (w : Word) (hx x y : Bool) :
    operandField w = (0 : BitVec 21) ++ bitField hx ++ bitField x ++ bitField y ↔
      w.extractLsb' 3 21 = 0 ∧ w.getLsbD 2 = hx ∧ w.getLsbD 1 = x ∧ w.getLsbD 0 = y := by
  have hy := extractLsb'_eq_append_iff w 0 ((0 : BitVec 21) ++ bitField hx ++ bitField x) (bitField y)
  have hX := extractLsb'_eq_append_iff w 1 ((0 : BitVec 21) ++ bitField hx) (bitField x)
  have hHX := extractLsb'_eq_append_iff w 2 (0 : BitVec 21) (bitField hx)
  rw [extractLsb'_one_eq_bitField, bitField_inj] at hy hX hHX
  exact hy.trans <| (and_congr_left' <| hX.trans <| and_congr_left' hHX).trans <| by
    simp only [and_assoc]

/-- A word is packed from its opcode and its operand field. -/
theorem packWord_eq_of_fields {w : Word} {op : BitVec 8} {x : BitVec 24}
    (hop : (opcodeField w).toNat = op.toNat) (hx : operandField w = x) : packWord op x = w := by
  rw [← BitVec.eq_of_toNat_eq hop, ← hx, packWord_fields]

/-! An index fits its field: REG and IDX are 8 bits wide. -/

theorem CfgReg.toNat_ofNat_index (reg : CfgReg) : (BitVec.ofNat 8 reg.index).toNat = reg.index := by
  cases reg <;> rfl

theorem StatReg.toNat_ofNat_index (idx : StatReg) : (BitVec.ofNat 8 idx.index).toNat = idx.index := by
  cases idx with
  | cfg reg => cases reg <;> rfl
  | counter c => cases c <;> rfl
  | _ => rfl

/-! What each format accepts (R92 to R95). -/

theorem decodeZ_eq_ok_iff {w : Word} {i j : Instr} : decodeZ w i = .ok j ↔ operandField w = 0 ∧ i = j := by
  unfold decodeZ
  split
  next hzero => exact ⟨fun h => ⟨hzero, Except.ok.inj h⟩, fun h => congrArg Except.ok h.2⟩
  next hzero => exact ⟨nofun, fun h => absurd h.1 hzero⟩

theorem decodeW_eq_ok_iff {w : Word} {i : Instr} :
    decodeW w = .ok i ↔ ∃ reg val, operandField w = BitVec.ofNat 8 reg.index ++ val ∧
      WellFormed (.wrcfg reg val) ∧ i = .wrcfg reg val := by
  constructor
  · intro h
    unfold decodeW at h
    split at h
    next => cases h
    next reg hreg =>
      split at h
      next hval =>
        cases h
        refine ⟨reg, _, (operandField_eq_W_iff w _ _).mpr ⟨?_, rfl⟩, decide_eq_true hval, rfl⟩
        rw [CfgReg.index_of_ofIndex hreg, BitVec.ofNat_toNat, BitVec.setWidth_eq]
      next => cases h
  · rintro ⟨reg, val, hfield, hwf, rfl⟩
    obtain ⟨hreg, hval⟩ := (operandField_eq_W_iff w _ _).mp hfield
    simp only [decodeW, hreg, hval, CfgReg.toNat_ofNat_index, CfgReg.ofIndex_index]
    exact if_pos (of_decide_eq_true hwf)

theorem decodeR_eq_ok_iff {w : Word} {i : Instr} :
    decodeR w = .ok i ↔
      ∃ idx, operandField w = (0 : BitVec 16) ++ BitVec.ofNat 8 idx.index ∧ i = .rdstat idx := by
  constructor
  · intro h
    unfold decodeR at h
    split at h
    next hzero =>
      split at h
      next => cases h
      next idx hidx =>
        cases h
        refine ⟨idx, (operandField_eq_R_iff w _).mpr ⟨hzero, ?_⟩, rfl⟩
        rw [StatReg.index_of_ofIndex hidx, BitVec.ofNat_toNat, BitVec.setWidth_eq]
    next => cases h
  · rintro ⟨idx, hfield, rfl⟩
    obtain ⟨hzero, hidx⟩ := (operandField_eq_R_iff w _).mp hfield
    simp only [decodeR, hzero, hidx, StatReg.toNat_ofNat_index, StatReg.ofIndex_index, if_true]

theorem decodeV_eq_ok_iff {w : Word} {i : Instr} :
    decodeV w = .ok i ↔
      (∃ x y, operandField w = (0 : BitVec 21) ++ bitField true ++ bitField x ++ bitField y ∧ i = .vcons x y) ∨
      ∃ y, operandField w = (0 : BitVec 21) ++ bitField false ++ bitField false ++ bitField y ∧ i = .vconsP y := by
  simp only [operandField_eq_V_iff]
  constructor
  · intro h
    unfold decodeV at h
    split at h
    next hzero =>
      split at h
      next hhx =>
        cases h
        exact .inl ⟨_, _, ⟨hzero, hhx, rfl, rfl⟩, rfl⟩
      next hhx =>
        split at h
        next => cases h
        next hx =>
          cases h
          exact .inr ⟨_, ⟨hzero, eq_false_of_ne_true hhx, eq_false_of_ne_true hx, rfl⟩, rfl⟩
    next => cases h
  · rintro (⟨x, y, ⟨hzero, hhx, rfl, rfl⟩, rfl⟩ | ⟨y, ⟨hzero, hhx, hx, rfl⟩, rfl⟩)
    · simp only [decodeV, hzero, hhx, if_true]
    · simp only [decodeV, hzero, hhx, hx, if_true, Bool.false_eq_true, if_false]

/-! What the opcode map accepts (R91). -/

/-- A command of format Z is the only one that its opcode decodes to. -/
theorem encode_of_decodeZ {w : Word} {op : BitVec 8} {i j : Instr} (hwf : WellFormed i)
    (henc : encode i = packWord op 0) (hop : (opcodeField w).toNat = op.toNat) (h : decodeZ w i = .ok j) :
    WellFormed j ∧ encode j = w := by
  obtain ⟨hzero, rfl⟩ := decodeZ_eq_ok_iff.mp h
  exact ⟨hwf, henc.trans (packWord_eq_of_fields hop hzero)⟩

/-- A legal word is the word of the command it decodes to, and that command is well-formed. -/
theorem encode_of_decode {w : Word} {i : Instr} (h : decode w = .ok i) : WellFormed i ∧ encode i = w := by
  unfold decode at h
  split at h
  next hop => exact encode_of_decodeZ (op := 0x00) rfl rfl hop h
  next hop => exact encode_of_decodeZ (op := 0x01) rfl rfl hop h
  next hop =>
    obtain ⟨reg, val, hfield, hwf, rfl⟩ := decodeW_eq_ok_iff.mp h
    exact ⟨hwf, packWord_eq_of_fields hop hfield⟩
  next hop =>
    obtain ⟨idx, hfield, rfl⟩ := decodeR_eq_ok_iff.mp h
    exact ⟨rfl, packWord_eq_of_fields hop hfield⟩
  next hop => exact encode_of_decodeZ (op := 0x10) rfl rfl hop h
  next hop => exact encode_of_decodeZ (op := 0x11) rfl rfl hop h
  next hop => exact encode_of_decodeZ (op := 0x12) rfl rfl hop h
  next hop => exact encode_of_decodeZ (op := 0x13) rfl rfl hop h
  next hop => exact encode_of_decodeZ (op := 0x14) rfl rfl hop h
  next hop => exact encode_of_decodeZ (op := 0x18) rfl rfl hop h
  next hop =>
    obtain ⟨x, y, hfield, rfl⟩ | ⟨y, hfield, rfl⟩ := decodeV_eq_ok_iff.mp h
    · exact ⟨rfl, packWord_eq_of_fields hop hfield⟩
    · exact ⟨rfl, packWord_eq_of_fields hop hfield⟩
  next hop => exact encode_of_decodeZ (op := 0x21) rfl rfl hop h
  next => cases h

theorem decode_packWord_W (x : BitVec 24) : decode (packWord 0x02 x) = decodeW (packWord 0x02 x) := by
  simp [decode]

theorem decode_packWord_R (x : BitVec 24) : decode (packWord 0x03 x) = decodeR (packWord 0x03 x) := by
  simp [decode]

theorem decode_packWord_V (x : BitVec 24) : decode (packWord 0x20 x) = decodeV (packWord 0x20 x) := by
  simp [decode]

/-- Settles O1, format by format: the operand field of the word is the one that the format accepts. -/
theorem decodeOfEncode : Obligations.DecodeOfEncode := by
  intro i hwf
  cases i with
  | wrcfg reg val =>
    exact (decode_packWord_W _).trans
      (decodeW_eq_ok_iff.mpr ⟨reg, val, operandField_packWord _ _, hwf, rfl⟩)
  | rdstat idx =>
    exact (decode_packWord_R _).trans (decodeR_eq_ok_iff.mpr ⟨idx, operandField_packWord _ _, rfl⟩)
  | vcons x y =>
    exact (decode_packWord_V _).trans
      (decodeV_eq_ok_iff.mpr (.inl ⟨x, y, operandField_packWord _ _, rfl⟩))
  | vconsP y =>
    exact (decode_packWord_V _).trans
      (decodeV_eq_ok_iff.mpr (.inr ⟨y, operandField_packWord _ _, rfl⟩))
  | _ => rfl

/-- The legal words are the words of the well-formed commands, each decoding to its own command. -/
theorem decode_eq_ok_iff {w : Word} {i : Instr} : decode w = .ok i ↔ WellFormed i ∧ encode i = w := by
  refine ⟨encode_of_decode, ?_⟩
  rintro ⟨hwf, rfl⟩
  exact decodeOfEncode i hwf

/-- Settles O2: a word decodes to at most one command, and it is the word of exactly the commands it decodes to. -/
theorem everyWordIsOneCommandOrIllegal : Obligations.EveryWordIsOneCommandOrIllegal := by
  intro w
  cases hdec : decode w with
  | ok i =>
    obtain ⟨hwf, henc⟩ := decode_eq_ok_iff.mp hdec
    refine .inl ⟨i, rfl, hwf, henc, fun j hj hjw => ?_⟩
    have hdecj := decode_eq_ok_iff.mpr ⟨hj, hjw⟩
    exact Except.ok.inj (hdecj.symm.trans hdec)
  | error e =>
    refine .inr ⟨⟨e, rfl⟩, fun j hj hjw => ?_⟩
    have hdecj := decode_eq_ok_iff.mpr ⟨hj, hjw⟩
    cases hdecj.symm.trans hdec

/-- Settles O3: the decoder is evaluated on the listed words. -/
theorem workedEncodingsDecode : Obligations.WorkedEncodingsDecode := by
  unfold Obligations.WorkedEncodingsDecode
  decide

end Sys2Proof
end

section
/-! The estimator's formulas (40_estimator R132 to R140): what tracking makes of a deviation, and over the reals the
confidence, the window sums with their slide, the score, the offset and the weight rho. -/

namespace Sys2Proof.Machine

/-! ## Tracking and confidence -/

/-- `TrackAdjust` with TRACK_W = 15 and QUANT_W = 2. -/
theorem trackAdjust_eq (d : Int) : trackAdjust theParams d =
    if -2 ≤ d ∧ d ≤ 2 then 0 else if d < -15 then -15 else if 15 < d then 15 else d := by
  have hquant := theParams_quantW
  have htrack := theParams_trackW
  unfold trackAdjust
  split
  · rw [if_pos (by omega)]
  · rw [if_neg (by omega)]
    split
    · omega
    · split <;> omega

/-- `Inst` with TRACK_W = 15. -/
theorem instConfidence_eq (d : Int) :
    instConfidence theParams d = if -15 ≤ d ∧ d ≤ 15 then 1 else 0 := by
  have hwidth : d.natAbs ≤ theParams.trackW ↔ -15 ≤ d ∧ d ≤ 15 := by
    rw [theParams_trackW]
    omega
  simp only [instConfidence, hwidth]

theorem instConfidence_range (P : Params) (d : Int) : 0 ≤ instConfidence P d ∧ instConfidence P d ≤ 1 := by
  unfold instConfidence
  split
  · exact ⟨zero_le_one, le_rfl⟩
  · exact ⟨le_rfl, zero_le_one⟩

/-- The smoothed confidence is a weighted mean of the old one and the instantaneous one, so it stays between them. -/
theorem confidence_mean_range {w conf inst : Scalar} (hw : 0 ≤ w ∧ w ≤ 1) (hconf : 0 ≤ conf ∧ conf ≤ 1)
    (hinst : 0 ≤ inst ∧ inst ≤ 1) : 0 ≤ conf + w * (inst - conf) ∧ conf + w * (inst - conf) ≤ 1 := by
  have hlow : 0 ≤ (1 - w) * conf + w * inst :=
    add_nonneg (mul_nonneg (sub_nonneg.mpr hw.2) hconf.1) (mul_nonneg hw.1 hinst.1)
  have hhigh : 0 ≤ (1 - w) * (1 - conf) + w * (1 - inst) :=
    add_nonneg (mul_nonneg (sub_nonneg.mpr hw.2) (sub_nonneg.mpr hconf.2))
      (mul_nonneg hw.1 (sub_nonneg.mpr hinst.2))
  constructor <;> linarith

/-- Settles O25: the smoothed confidence is a weighted mean of two numbers of [0, 1]. -/
theorem trackingAndConfidence : Obligations.TrackingAndConfidence := by
  refine ⟨trackAdjust_eq, instConfidence_eq, fun P conf d hexact => ?_⟩
  have heq : smoothConfidence P conf d = conf + P.confAlpha * (instConfidence P d - conf) := hexact _ _
  refine ⟨heq, fun hpos hle hlow hhigh => ?_⟩
  rw [heq]
  exact confidence_mean_range ⟨hpos.le, hle⟩ ⟨hlow, hhigh⟩ (instConfidence_range P d)

/-! ## Window sums over the reals -/

/-- The sample pair at position `k` (40_estimator R133). -/
def samplePair (P : Params) (ebuf : List Cplx) (b k : Nat) : Cplx × Cplx :=
  (readEntry ebuf (k % b), readEntry ebuf ((k + P.n) % b))

theorem samplePairs_eq_map (P : Params) (ebuf : List Cplx) (b len : Nat) :
    samplePairs P ebuf b len = (List.range (P.n + 2 * len - 1)).map (samplePair P ebuf b) := rfl

/-- The window from a position below N + L on holds L pairs. -/
theorem samplePairs_window (P : Params) (ebuf : List Cplx) (b : Nat) {len m : Nat} (hm : m < P.n + len) :
    ((samplePairs P ebuf b len).drop m).take len =
      (List.range len).map fun k => samplePair P ebuf b (m + k) := by
  have hlast : len ≤ P.n + 2 * len - 1 - m := by omega
  exact List.ext_getElem (by simpa [samplePairs_eq_map] using hlast) fun k _ _ => by simp [samplePairs_eq_map]

section OverTheReals

variable {P : Params} (hexact : ∀ φ x, P.num.rnd φ x = x) (ebuf : List Cplx) (b : Nat)
include hexact

/-- A window sum over the reals (40_estimator R133). -/
theorem nwindow_eq_sum (φ : Formula) (term : Cplx × Cplx → Scalar) {len m : Nat} (hm : m < P.n + len) :
    nwindow P.num φ term (samplePairs P ebuf b len) len m =
      ((List.range len).map fun k => term (samplePair P ebuf b (m + k))).sum := by
  rw [nwindow_exact P.num hexact, samplePairs_window P ebuf b hm, List.map_map]
  rfl

/-- The next position's window sum, by the slide of R135. -/
theorem nwindow_succ (φ φ' : Formula) (term : Cplx × Cplx → Scalar) {len m : Nat} (hm : m + 1 < P.n + len) :
    nwindow P.num φ' term (samplePairs P ebuf b len) len (m + 1) =
      nwindow P.num φ term (samplePairs P ebuf b len) len m + term (samplePair P ebuf b (m + len)) -
        term (samplePair P ebuf b m) := by
  have hslide := window_slide ((samplePairs P ebuf b len).map term) len m
  have hget : ∀ k, k < P.n + 2 * len - 1 →
      ((samplePairs P ebuf b len).map term).getD k 0 = term (samplePair P ebuf b k) := by
    intro k hk
    simp [samplePairs_eq_map, List.getD_eq_getElem?_getD, hk]
  rw [hget _ (by omega), hget _ (by omega)] at hslide
  rw [nwindow_exact P.num hexact, nwindow_exact P.num hexact, List.map_take, List.map_drop, List.map_take,
    List.map_drop]
  exact hslide.symm

end OverTheReals

theorem correlationTerm_re (p : Cplx × Cplx) :
    (correlationTerm p).re = p.1.re * p.2.re + p.1.im * p.2.im := by
  simp only [correlationTerm, cmul, conj]
  ring

theorem correlationTerm_im (p : Cplx × Cplx) :
    (correlationTerm p).im = p.1.im * p.2.re - p.1.re * p.2.im := by
  simp only [correlationTerm, cmul, conj]
  ring

/-- Settles O60: each of the three sums is a window sum, and slides as one. -/
theorem windowSumsAreExactOverTheReals : Obligations.WindowSumsAreExactOverTheReals := by
  intro P ebuf b len m hexact hm near far re im en pairs g f
  have hre : ∀ k, (correlationTerm (samplePair P ebuf b k)).re = re k := fun _ => correlationTerm_re _
  have him : ∀ k, (correlationTerm (samplePair P ebuf b k)).im = im k := fun _ => correlationTerm_im _
  have hen : ∀ k, energyTerm (samplePair P ebuf b k) = 1 / 2 * en k := fun _ => rfl
  refine ⟨?_, ?_, ?_, fun hnext => ⟨?_, ?_, ?_⟩⟩
  · simp only [← hre]
    exact nwindow_eq_sum hexact ebuf b _ _ hm
  · simp only [← him]
    exact nwindow_eq_sum hexact ebuf b _ _ hm
  · rw [← List.sum_map_mul_left]
    simp only [← hen]
    exact nwindow_eq_sum hexact ebuf b _ _ hm
  · rw [← hre, ← hre]
    exact nwindow_succ hexact ebuf b _ _ _ hnext
  · rw [← him, ← him]
    exact nwindow_succ hexact ebuf b _ _ _ hnext
  · rw [mul_sub, ← hen, ← hen, ← add_sub_assoc]
    exact nwindow_succ hexact ebuf b _ _ _ hnext

end Sys2Proof.Machine
end

section
/-! The estimate (40_estimator R130, R132, R134 to R140): the metric of a buffer and what is decided from it, and over
the reals the score, the offset and the weight rho. -/

namespace Sys2Proof.Machine

/-! ## Over the reals -/

theorem posRat_val_pos (p : PosRat) : 0 < p.val := by
  unfold PosRat.val
  positivity

theorem score_exact {P : Params} (hexact : ∀ φ x, P.num.rnd φ x = x) (ebuf : List Cplx)
    (pairs : List (Cplx × Cplx)) (len m : Nat) :
    score P ebuf pairs len m =
      cabs P.num (gamma P ebuf pairs len m) - rho P * phi P ebuf pairs len m :=
  deliver_exact P.num hexact _ _ _

theorem frequencyOffset_exact {P : Params} (hexact : ∀ φ x, P.num.rnd φ x = x) (g : Cplx) :
    frequencyOffset P g = -angle P.num g / twoPi P.num + P.epsBias :=
  deliver_exact P.num hexact _ _ _

/-- The angle is in (-pi, pi], so the offset without bias is in [-1/2, 1/2) (40_estimator R140). -/
theorem neg_angle_div_range (A : NumParam) (z : Cplx) :
    -(1 / 2) ≤ -angle A z / twoPi A ∧ -angle A z / twoPi A < 1 / 2 := by
  obtain ⟨hlow, hhigh⟩ := angle_range A z
  have htwo : twoPi A = 2 * A.pi.val := rfl
  rw [le_div_iff₀ (twoPi_pos A), div_lt_iff₀ (twoPi_pos A)]
  constructor <;> linarith

/-- The weight of a positive SNR is between 0 and 1 (40_estimator R132). -/
theorem rho_range (P : Params) : 0 < rho P ∧ rho P < 1 := by
  have hpos := posRat_val_pos (P.num.ofReal P.snr)
  have hden : 0 < (P.num.ofReal P.snr).val + 1 := by linarith
  exact ⟨div_pos hpos hden, (div_lt_one hden).mpr (lt_add_one _)⟩

/-! ## The maximum of the score -/

theorem scores_getElem? (P : Params) (ebuf : List Cplx) (b : Nat) {len m : Nat} (hm : m < P.n + len) :
    (scores P ebuf b len)[m]? = some (score P ebuf (samplePairs P ebuf b len) len m) := by
  simp [scores, hm]

/-- The position chosen is the least one of maximal score (40_estimator R134). -/
theorem argmaxLeast_scores {P : Params} (ebuf : List Cplx) (b : Nat) {len : Nat} (hpos : 0 < P.n + len) :
    argmaxLeast (scores P ebuf b len) < P.n + len ∧
    (∀ m, m < P.n + len → score P ebuf (samplePairs P ebuf b len) len m ≤
      score P ebuf (samplePairs P ebuf b len) len (argmaxLeast (scores P ebuf b len))) ∧
    ∀ m, m < argmaxLeast (scores P ebuf b len) → score P ebuf (samplePairs P ebuf b len) len m <
      score P ebuf (samplePairs P ebuf b len) len (argmaxLeast (scores P ebuf b len)) := by
  have hlen := scores_length P ebuf b len
  have hne : scores P ebuf b len ≠ [] := List.ne_nil_of_length_pos (hlen ▸ hpos)
  have hlt := (argmaxLeast_lt hne).trans_eq hlen
  obtain ⟨top, htop, hmax, hleast⟩ := argmaxLeast_spec _ hne
  rw [scores_getElem? P ebuf b hlt, Option.some.injEq] at htop
  rw [htop]
  exact ⟨hlt, fun m hm => hmax m _ (scores_getElem? P ebuf b hm),
    fun m hm => hleast m _ hm (scores_getElem? P ebuf b (hm.trans hlt))⟩

/-! ## The deviation and the window -/

theorem normalise_cases (P : Params) (len : Nat) (d : Int) :
    normalise P len d = d ∨ normalise P len d = d - P.n := by
  unfold normalise
  split
  · exact .inr rfl
  · exact .inl rfl

theorem normalise_ge (P : Params) {len : Nat} {d : Int} (hd : -(len : Int) ≤ d) :
    -(len : Int) ≤ normalise P len d := by
  unfold normalise
  split <;> omega

theorem trackAdjust_ge (d : Int) : -15 ≤ trackAdjust theParams d := by
  rw [trackAdjust_eq]
  split_ifs <;> omega

/-- The window starts at L plus the deviation as the mode adjusts it, no earlier than sample 0 (40_estimator R139). -/
theorem windowStart_eq {len : Nat} {d : Int} (hlen : 15 ≤ len) (hd : -(len : Int) ≤ d) (tracking : Bool) :
    (windowStart theParams len tracking d : Int) =
      len + (if tracking then trackAdjust theParams d else d) := by
  have htrack := trackAdjust_ge d
  refine Int.toNat_of_nonneg ?_
  split <;> omega

/-! ## An all-zero buffer (40_estimator R130) -/

theorem samplePairs_zeros (P : Params) {b : Nat} (hb : 0 < b) (len : Nat) :
    ∀ p ∈ samplePairs P (List.replicate b Cplx.zero) b len, p = (Cplx.zero, Cplx.zero) := by
  have hread : ∀ k, readEntry (List.replicate b Cplx.zero) (k % b) = Cplx.zero := by
    intro k
    simp [readEntry, List.getD_eq_getElem?_getD, Nat.mod_lt k hb]
  intro p hp
  obtain ⟨k, -, rfl⟩ := List.mem_map.mp hp
  rw [hread, hread]

section Zeros

variable {P : Params} {pairs : List (Cplx × Cplx)} (hzero : ∀ p ∈ pairs, p = (Cplx.zero, Cplx.zero))
  (ebuf : List Cplx) (len m : Nat)
include hzero

theorem gamma_zeros : gamma P ebuf pairs len m = Cplx.zero := by
  have htake : ∀ p ∈ pairs.take (m + len), p = (Cplx.zero, Cplx.zero) :=
    fun p hp => hzero p (List.mem_of_mem_take hp)
  unfold gamma
  rw [nwindow_zeros _ _ htake (by simp [correlationTerm_re, Cplx.zero]),
    nwindow_zeros _ _ htake (by simp [correlationTerm_im, Cplx.zero])]
  rfl

theorem phi_zeros : phi P ebuf pairs len m = 0 :=
  nwindow_zeros _ _ (fun p hp => hzero p (List.mem_of_mem_take hp)) (by simp [energyTerm])

theorem score_zeros : score P ebuf pairs len m = 0 := by
  have hgamma := gamma_zeros (P := P) hzero ebuf len m
  have hphi := phi_zeros (P := P) hzero ebuf len m
  unfold score
  dsimp only
  rw [hgamma, hphi, deliver_known _ _ (by simp), cabs_zero, mul_zero, sub_zero]

end Zeros

theorem frequencyOffset_zero (P : Params) : frequencyOffset P Cplx.zero = P.epsBias := by
  rw [frequencyOffset, deliver_known _ _ (by simp), angle_zero, neg_zero, zero_div, zero_add]

/-! ## The estimate of a state -/

theorem estimate_deviation (P : Params) (s : State) : (estimate P s).deviation =
    normalise P (P.guardLen s.cfg.guard) (((estimate P s).argmax : Int) - P.guardLen s.cfg.guard) := rfl

theorem estimate_eps (P : Params) (s : State) : (estimate P s).eps =
    frequencyOffset P (gamma P s.est.ebuf (samplePairs P s.est.ebuf (s.bufSize P) (P.guardLen s.cfg.guard))
      (P.guardLen s.cfg.guard) (estimate P s).argmax) := rfl

/-- No score beats the first one of an all-zero buffer. -/
theorem estimate_zeros {s : State} (hs : s.est.ebuf = List.replicate (s.bufSize theParams) Cplx.zero) :
    (estimate theParams s).argmax = 0 ∧
    (estimate theParams s).deviation = -(theParams.guardLen s.cfg.guard : Int) ∧
    (estimate theParams s).eps = 0 := by
  have hn := theParams_n
  obtain ⟨hlow, hhigh⟩ := theParams_guardLen_range s.cfg.guard
  have hb : 0 < s.bufSize theParams := by
    rw [State.bufSize, theParams_bufSize]
    omega
  have hzero : ∀ p ∈ samplePairs theParams s.est.ebuf (s.bufSize theParams) (theParams.guardLen s.cfg.guard),
      p = (Cplx.zero, Cplx.zero) := by
    rw [hs]
    exact samplePairs_zeros theParams hb _
  obtain ⟨-, -, hleast⟩ := argmaxLeast_scores (P := theParams) (len := theParams.guardLen s.cfg.guard) s.est.ebuf
    (s.bufSize theParams) (by omega)
  have hargmax : (estimate theParams s).argmax = 0 := by
    by_contra hne
    have hlt := hleast 0 (Nat.pos_of_ne_zero hne)
    rw [score_zeros hzero, score_zeros hzero] at hlt
    exact lt_irrefl _ hlt
  refine ⟨hargmax, ?_, ?_⟩
  · rw [estimate_deviation, hargmax, normalise, if_neg (by omega)]
    omega
  · rw [estimate_eps, gamma_zeros hzero, frequencyOffset_zero, theParams_epsBias]

/-- Settles O24: the position by `argmaxLeast_scores`, the window by the ranges of the deviation and of the
adjustment, the rest by what NUM delivers exactly. -/
theorem estimateFollowsTheMetric : Obligations.EstimateFollowsTheMetric := by
  refine ⟨fun s => ?_, fun P ebuf pairs len m hexact => ?_, fun P => ?_⟩
  · intro P len b pairs sc e
    have hn : P.n = 2048 := theParams_n
    obtain ⟨hlow, hhigh⟩ : 64 ≤ len ∧ len ≤ 512 := theParams_guardLen_range s.cfg.guard
    obtain ⟨hargmax, hmax, hleast⟩ := argmaxLeast_scores (P := P) (len := len) s.est.ebuf b (by omega)
    have hdevLow : -(len : Int) ≤ e.deviation := normalise_ge P (by omega)
    have hdevHigh : e.deviation < (P.n : Int) - len := hn ▸ normalise_lt hhigh (hn ▸ hargmax)
    have hstart : (e.start : Int) = len + (if e.tracking then trackAdjust P e.deviation else e.deviation) :=
      windowStart_eq (by omega) hdevLow e.tracking
    have hstartLt : e.start < P.n := estimate_start_lt s
    have hb : b = 2 * P.n + len := rfl
    refine ⟨hargmax, hmax, hleast, ⟨hdevLow, hdevHigh⟩, normalise_cases P len _, rfl, hstart, fun htrack => ?_,
      hstartLt, by omega, rfl, estimate_zeros⟩
    rw [if_pos htrack] at hstart
    have hadjLow : -15 ≤ trackAdjust P e.deviation := trackAdjust_ge _
    have hadjHigh : trackAdjust P e.deviation ≤ 15 := trackAdjust_le _
    omega
  · refine ⟨score_exact hexact ebuf pairs len m, frequencyOffset_exact hexact _, fun hbias => ?_⟩
    rw [frequencyOffset_exact hexact, hbias, add_zero]
    exact neg_angle_div_range P.num _
  · obtain ⟨hpos, hlt⟩ := rho_range P
    refine ⟨hpos, hlt, fun hsnr => ?_⟩
    rw [← hsnr, rho]
    push_cast
    rfl

end Sys2Proof.Machine
end

section
/-! EST with a full buffer (40_estimator R142 to R147): the block it outputs and the registers it updates. -/

namespace Sys2Proof.Machine

/-! ## Over the reals -/

/-- An entry of the derotated part over the reals (40_estimator R142). -/
theorem derotate_getElem?_exact {P : Params} (hexact : ∀ φ x, P.num.rnd φ x = x) (ebuf : List Cplx) (start : Nat)
    (nco eps : Scalar) {j : Nat} (hj : j < P.n) :
    (derotate P ebuf start nco eps)[j]? = some (cmul (readEntry ebuf (start + j))
      (expI P.num (-(nco + twoPi P.num * eps * j / P.n)))) := by
  simp [derotate, hexact, hj]

theorem advanceNco_exact {P : Params} (hexact : ∀ φ x, P.num.rnd φ x = x) (nco eps : Scalar) :
    advanceNco P nco eps = modTwoPi P.num (nco + twoPi P.num * eps) := by
  rw [advanceNco, hexact]

/-! ## The command -/

/-- A response after a body that emits nothing on DMX_OUT, VIT_OUT and TPS_EVT. -/
theorem answersOnly_respond {s t : State} (hframe : BodyFrame s t)
    (hsame : ∀ p, p = .tps ∨ p = .demux ∨ p = .decoder → Same p s t) (code : Status) :
    AnswersOnly s (t.respond code 0) code 0 := by
  obtain ⟨-, -, htps⟩ := (hsame .tps (by simp)).fields
  obtain ⟨-, -, hdmx⟩ := (hsame .demux (by simp)).fields
  obtain ⟨-, hvit⟩ := (hsame .decoder (by simp)).fields
  refine ⟨?_, ?_, ?_, ?_⟩
  · rw [State.respond_respPort, hframe.respPort]
  · rw [State.respond_dmxPort, hdmx]
  · rw [State.respond_vitPort, hvit]
  · rw [State.respond_tpsPort, htps]

/-- The body of EST with its fill's samples on the port outputs the block of the filled buffer. -/
theorem estBody_full {P : Params} {s : State} {zs : List Cplx} {rest : List SampleItem}
    (hhalted : s.est.halted = false) (heos : s.est.eosSeen = false ∨ zs = [])
    (hs : s.sample = zs.map .sample ++ rest) (hl : s.est.efill + zs.length = s.bufSize P) :
    estBody P s = .done .ok (outputBlock P (estimate P (s.filled zs rest)) (s.filled zs rest)) := by
  have hfill : fill P 0 s = .full (s.filled zs rest) :=
    fillLoop_full heos hs (show zs.length = s.bufSize P - s.est.efill by omega)
  rw [estBody_of_not_halted P hhalted]
  simp only [estFrom, hfill]

/-- EST writes no output port but the response's. -/
theorem est_answersOnly {s t : State} {code : Status} (hbody : estBody theParams s = .done code t) :
    AnswersOnly s (t.respond code 0) code 0 := by
  have hframe := estBody_frame theParams s
  have hsame : ∀ p, p = .tps ∨ p = .demux ∨ p = .decoder → Same p s (estBody theParams s).state := fun p hp =>
    estBody_same (by rcases hp with rfl | rfl | rfl <;> simp [Part.WrittenBy]) theParams s
  rw [hbody] at hframe hsame
  exact answersOnly_respond hframe hsame code

/-- Settles O23: the fill ends full, and `outputBlock_eq` says what the block's output changes. -/
theorem estOutputsOneBlock : Obligations.EstOutputsOneBlock := by
  refine ⟨fun s zs rest hhalted heos hs hl => ?_, fun P ebuf start nco eps hexact => ?_⟩
  · intro full e P
    have hbody := estBody_full (P := P) hhalted heos hs hl
    have htrack : e.tracking = decide (1 / 2 < s.est.conf) := rfl
    obtain ⟨items, -, hblock⟩ := outputBlock_eq P e (s.filled zs rest)
    simp only [htrack, decide_eq_true_eq] at hblock
    refine ⟨(outputBlock P e (s.filled zs rest)).respond .ok 0, ?_, est_answersOnly hbody, ?_⟩
    · rw [exec, execEst, hbody, finishEst]
      rfl
    · rw [hblock]
      exact ⟨rfl, rfl, rfl, rfl⟩
  · exact ⟨derotate_length P ebuf start nco eps, advanceNco_exact hexact nco eps,
      fun j hj => derotate_getElem?_exact hexact ebuf start nco eps hj⟩

end Sys2Proof.Machine
end

section
/-! FFT (41_fft R170 to R172): the block's transform, over the reals the scaled forward sum, and the carrier grid. -/

namespace Sys2Proof.Machine

/-! ## The bins of a block -/

/-- The term `TD[n] exp(-i 2 pi n k / N)` of bin `k`. -/
def blockTerm (P : Params) (td : List Cplx) (k n : Nat) : Cplx := dftTerm P k (readEntry td n) n

theorem dftTerms_eq_map (P : Params) (td : List Cplx) (k : Nat) :
    ((List.range P.n).map (readEntry td)).mapIdx (fun n z => dftTerm P k z n) =
      (List.range P.n).map (blockTerm P td k) :=
  List.ext_getElem (by simp) fun n _ _ => by simp [blockTerm]

/-- A bin over the reals (41_fft R171). -/
theorem dftBin_exact {P : Params} (hexact : ∀ φ x, P.num.rnd φ x = x) (td : List Cplx) (k : Nat) :
    dftBin P td k =
      ⟨(P.num.ofReal P.fftScale).val * ((List.range P.n).map fun n => (blockTerm P td k n).re).sum,
        (P.num.ofReal P.fftScale).val * ((List.range P.n).map fun n => (blockTerm P td k n).im).sum⟩ := by
  simp only [dftBin, deliver_exact P.num hexact, dftTerms_eq_map, List.map_map]
  rfl

/-- Every bin of an all-zero block is 0: NUM rounds neither part of it (41_fft R170). -/
theorem dftBin_zeros {P : Params} {td : List Cplx} (hzero : ∀ n < P.n, readEntry td n = Cplx.zero) (k : Nat) :
    dftBin P td k = Cplx.zero := by
  have hterm : ∀ n ∈ List.range P.n, blockTerm P td k n = Cplx.zero := fun n hn => by
    rw [blockTerm, hzero n (List.mem_range.mp hn), dftTerm, cmul_zero_left]
  have hterms : (List.range P.n).map (blockTerm P td k) = List.replicate P.n Cplx.zero := by
    rw [List.map_congr_left hterm]
    simp
  have hknown : ((List.range P.n).map (readEntry td)).all (fun z => decide (z = Cplx.zero)) = true := by
    simpa using hzero
  simp only [dftBin, deliver_known P.num _ hknown, dftTerms_eq_map, hterms]
  simp [Cplx.zero]

theorem readEntry_zeros {n i : Nat} (hi : i < n) : readEntry (List.replicate n Cplx.zero) i = Cplx.zero := by
  simp [readEntry, List.getD_eq_getElem?_getD, hi]

/-- Settles O28: every bin reads zeros alone. -/
theorem zeroBlockHasZeroSpectrum : Obligations.ZeroBlockHasZeroSpectrum := by
  intro P
  have hbins : ∀ k ∈ List.range P.n, dftBin P (List.replicate P.n Cplx.zero) k = Cplx.zero :=
    fun k _ => dftBin_zeros (fun _ hn => readEntry_zeros hn) k
  rw [forwardTransform, List.map_congr_left hbins]
  simp

/-! ## The command -/

theorem forwardTransform_getElem? (P : Params) (td : List Cplx) {k : Nat} (hk : k < P.n) :
    (forwardTransform P td)[k]? = some (dftBin P td k) := by
  simp [forwardTransform, hk]

/-- FFT with a block extracted (41_fft R170). -/
theorem exec_fft_of_extracted {s : State} {b : Nat} (hhalted : s.est.halted = false) (htd : s.blk.tdId = some b) :
    exec .fft s = .next (State.respond
      { s with blk := { s.blk with fd := forwardTransform theParams s.blk.td, fdId := some b } } .ok 0) := by
  rcases fftBody_cases theParams s with ⟨h, -⟩ | ⟨-, h, -⟩ | ⟨-, -, hbody⟩
  · simp [hhalted] at h
  · simp [htd] at h
  · rw [exec, execFft, hbody, htd]
    rfl

/-- Settles O27: the body's one completing case, and over the reals the bins by `dftBin_exact`. -/
theorem fftTransformsTheBlock : Obligations.FftTransformsTheBlock := by
  refine ⟨fun s b hhalted htd => ?_, fun P td k hexact => ?_⟩
  · have hexec := exec_fft_of_extracted hhalted htd
    have hlen := forwardTransform_length theParams s.blk.td
    have hbins := fun k (hk : k < theParams.n) => forwardTransform_getElem? theParams s.blk.td hk
    -- the frame's `rfl` would otherwise evaluate the transform
    generalize forwardTransform theParams s.blk.td = fd at hexec hlen hbins
    exact ⟨_, hexec, hlen, hbins, rfl⟩
  · intro t z re im held scale
    have hre : (dftBin P td k).re = held * re := congrArg Cplx.re (dftBin_exact hexact td k)
    have him : (dftBin P td k).im = held * im := congrArg Cplx.im (dftBin_exact hexact td k)
    refine ⟨hre, him, fun hheld => ?_⟩
    rw [hre, him, Rat.cast_mul, Rat.cast_mul, hheld]
    exact ⟨rfl, rfl⟩

/-! ## The carrier grid -/

theorem carrierBin_theParams (c : Nat) : carrierBin theParams c = (c + 1196) % 2048 := rfl

/-- Settles O29: the K_MAX + 1 = 1705 carriers are fewer than the 2048 residues the offset shifts them over. -/
theorem carrierGridIsInjective : Obligations.CarrierGridIsInjective := by
  refine ⟨fun c _ => ⟨carrierBin_theParams c, Nat.mod_lt _ (by norm_num)⟩, fun c d hc hd heq => ?_,
    carrierBin_theParams 852⟩
  rw [carrierBin_theParams, carrierBin_theParams] at heq
  omega

end Sys2Proof.Machine
end

section
/-! Correction of a carrier (42_equalizer R183 to R185, R188): which pilots a carrier takes its phase and amplitude
from, and what two neighbouring pilots give between them. -/

namespace Sys2Proof.Machine

/-! ## The pilots around a carrier -/

theorem correction_of_lt (A : NumParam) {p : Pilot} (rest : List Pilot) {c : Nat} (hc : c < p.c) :
    correction A (p :: rest) c = (p.th, p.amp) := by
  cases rest with
  | nil => rfl
  | cons q rest => exact if_pos hc

theorem correction_first_pair (A : NumParam) {p q : Pilot} (rest : List Pilot) {c : Nat} (hp : p.c ≤ c)
    (hq : c < q.c ∨ (c = q.c ∧ rest = [])) : correction A (p :: q :: rest) c = interpolate A p q c :=
  (if_neg (by omega)).trans (if_pos hq)

theorem correction_skip_pair (A : NumParam) {p q : Pilot} {rest : List Pilot} {c : Nat} (hpq : p.c < q.c)
    (hq : q.c ≤ c) (hlater : rest ≠ [] ∨ c ≠ q.c) :
    correction A (p :: q :: rest) c = correction A (q :: rest) c := by
  refine (if_neg (by omega)).trans (if_neg ?_)
  rintro (hlt | ⟨heq, hlast⟩)
  · omega
  · exact hlater.elim (· hlast) (· heq)

/-- The pilots below a carrier but for the nearest do not count, as long as a later pair remains or the carrier is
above the nearest. -/
theorem correction_append (A : NumParam) {p : Pilot} {rest : List Pilot} {c : Nat} (hp : p.c ≤ c)
    (hlater : rest ≠ [] ∨ c ≠ p.c) : ∀ {front : List Pilot},
    List.Pairwise (fun p q : Pilot => p.c < q.c) (front ++ p :: rest) →
    correction A (front ++ p :: rest) c = correction A (p :: rest) c
  | [], _ => rfl
  | [r], hasc => correction_skip_pair A (List.rel_of_pairwise_cons hasc (by simp)) hp hlater
  | r :: u :: front, hasc => by
    have hru : r.c < u.c := List.rel_of_pairwise_cons hasc (by simp)
    have hup : u.c < p.c := List.rel_of_pairwise_cons hasc.of_cons (by simp)
    exact (correction_skip_pair A hru (by omega) (.inl (by simp))).trans (correction_append A hp hlater hasc.of_cons)

/-- Between two neighbours the pair interpolates; its later end belongs to it only where it is the last. -/
theorem correction_between (A : NumParam) {front rest : List Pilot} {p q : Pilot} {c : Nat}
    (hasc : List.Pairwise (fun p q : Pilot => p.c < q.c) (front ++ p :: q :: rest)) (hp : p.c ≤ c)
    (hq : c < q.c ∨ (c = q.c ∧ rest = [])) : correction A (front ++ p :: q :: rest) c = interpolate A p q c :=
  (correction_append A hp (.inl (List.cons_ne_nil q rest)) hasc).trans (correction_first_pair A rest hp hq)

theorem eq_append_of_neighbours {ps : List Pilot} {j : Nat} {p q : Pilot} (hp : ps[j]? = some p)
    (hq : ps[j + 1]? = some q) : ps = ps.take j ++ p :: q :: ps.drop (j + 2) := by
  obtain ⟨hj, rfl⟩ := List.getElem?_eq_some_iff.mp hp
  obtain ⟨hj', rfl⟩ := List.getElem?_eq_some_iff.mp hq
  rw [← List.drop_eq_getElem_cons hj', ← List.drop_eq_getElem_cons hj, List.take_append_drop]

/-! ## Two neighbours -/

theorem gap_self (A : NumParam) (t : Scalar) : gap A t t = 0 := by
  rw [gap, deliver_known _ _ (by simp), sub_self]

theorem gap_exact {A : NumParam} (hexact : ∀ φ x, A.rnd φ x = x) (t0 t1 : Scalar) : gap A t0 t1 = t1 - t0 :=
  deliver_exact A hexact _ _ _

/-- A gap of pi itself is not unwrapped (42_equalizer R183). -/
theorem unwrap_of_gap_le {A : NumParam} {t0 t1 : Scalar} (hup : gap A t0 t1 ≤ A.pi.val)
    (hdown : gap A t1 t0 ≤ A.pi.val) : unwrap A t0 t1 = t1 :=
  (if_neg hup.not_gt).trans (if_neg hdown.not_gt)

theorem unwrap_self (A : NumParam) (t : Scalar) : unwrap A t t = t := by
  have hgap : gap A t t ≤ A.pi.val := (gap_self A t).trans_le (pi_pos A).le
  exact unwrap_of_gap_le hgap hgap

theorem unwrap_of_lt_exact {A : NumParam} (hexact : ∀ φ x, A.rnd φ x = x) {t0 t1 : Scalar}
    (hup : A.pi.val < t1 - t0) : unwrap A t0 t1 = t1 - twoPi A := by
  rw [unwrap, gap_exact hexact, if_pos hup, hexact]

theorem unwrap_of_gt_exact {A : NumParam} (hexact : ∀ φ x, A.rnd φ x = x) {t0 t1 : Scalar}
    (hdown : A.pi.val < t0 - t1) : unwrap A t0 t1 = t1 + twoPi A := by
  have hpi := pi_pos A
  have hup : ¬ A.pi.val < t1 - t0 := by linarith
  rw [unwrap, gap_exact hexact, gap_exact hexact, if_neg hup, if_pos hdown, hexact]

/-- A phase in (-pi, pi] is its own reduction. -/
theorem wrap_of_mem {A : NumParam} {t : Scalar} (hlow : -A.pi.val < t) (hhigh : t ≤ A.pi.val) : wrap A t = t := by
  have htwo : twoPi A = 2 * A.pi.val := rfl
  have hgt : -1 < (t - A.pi.val) / twoPi A := by
    rw [lt_div_iff₀ (twoPi_pos A)]
    linarith
  have hle : (t - A.pi.val) / twoPi A ≤ 0 :=
    div_nonpos_of_nonpos_of_nonneg (by linarith) (twoPi_pos A).le
  have hceil : ((t - A.pi.val) / twoPi A).ceil = 0 := by
    have hlt : -1 < ((t - A.pi.val) / twoPi A).ceil := by exact_mod_cast hgt.trans_le Rat.le_ceil
    have hub : ((t - A.pi.val) / twoPi A).ceil ≤ 0 := Rat.ceil_le_iff.mpr (by exact_mod_cast hle)
    omega
  rw [wrap, hceil, Int.cast_zero, mul_zero, sub_zero]

theorem interpolate_exact {A : NumParam} (hexact : ∀ φ x, A.rnd φ x = x) {p q : Pilot} {c : Nat} (hpc : p.c ≤ c)
    (hpq : p.c < q.c) : interpolate A p q c =
      (wrap A (p.th + ((c : Rat) - p.c) / ((q.c : Rat) - p.c) * (unwrap A p.th q.th - p.th)),
        p.amp + ((c : Rat) - p.c) / ((q.c : Rat) - p.c) * (q.amp - p.amp)) := by
  rw [interpolate, deliver_exact A hexact, deliver_exact A hexact, Nat.cast_sub hpc, Nat.cast_sub hpq.le]

/-- Settles O31: the pairs by `correction_between`, the ends of the list by their own cases. -/
theorem carriersInterpolateTheirNeighbours : Obligations.CarriersInterpolateTheirNeighbours := by
  refine ⟨fun A ps hasc => ⟨fun j p q c hp hq hpc hcq => ?between, ?lastPair, ?below, ?above⟩,
    fun A p q c t0 t1 hexact => ⟨interpolate_exact hexact, unwrap_of_lt_exact hexact, unwrap_of_gt_exact hexact,
      fun hup hdown => ?unshifted⟩⟩
  case between =>
    rw [eq_append_of_neighbours hp hq] at hasc ⊢
    exact correction_between A hasc hpc (.inl hcq)
  case lastPair =>
    rintro p q front rfl
    have hpq : p.c < q.c := by simpa using hasc.sublist (List.sublist_append_right front [p, q])
    exact correction_between A hasc hpq.le (.inr ⟨rfl, rfl⟩)
  case below =>
    intro p c hhead hc
    obtain ⟨rest, rfl⟩ := List.head?_eq_some_iff.mp hhead
    exact correction_of_lt A rest hc
  case above =>
    intro p c hlast hc
    obtain ⟨front, rfl⟩ := List.getLast?_eq_some_iff.mp hlast
    exact correction_append A hc.le (.inr hc.ne') hasc
  case unshifted =>
    rw [← gap_exact hexact] at hup hdown
    exact unwrap_of_gap_le hup hdown

/-- Settles O32: there is no gap, so no part of the interpolation is rounded, and the phase is in its range. -/
theorem equalPilotsGiveTheirOwnValues : Obligations.EqualPilotsGiveTheirOwnValues := by
  intro A p q c hth hamp hlow hhigh _ _
  rw [interpolate, ← hth, ← hamp, unwrap_self, deliver_known _ _ (by simp), deliver_known _ _ (by simp), sub_self,
    sub_self, mul_zero, add_zero, add_zero, wrap_of_mem hlow hhigh]

end Sys2Proof.Machine
end

section
/-! EQ (42_equalizer R180 to R182, R186, R187): the measured pilots, the table of the corrections, and the block they
equalize. -/

namespace Sys2Proof.Machine

/-! ## Over the reals -/

theorem signed_eq_mul (negative : Bool) (z : Cplx) :
    signed negative z = ⟨(1 - 2 * (negative.toNat : Rat)) * z.re, (1 - 2 * (negative.toNat : Rat)) * z.im⟩ := by
  cases negative <;> norm_num [signed]

theorem measurePilot_exact {P : Params} (hexact : ∀ φ x, P.num.rnd φ x = x) (fd : List Cplx) (c : Nat) :
    measurePilot P fd c =
      ⟨c, angle P.num (signed (refNegative P c) (carrier P fd c)),
        cabs P.num (signed (refNegative P c) (carrier P fd c)) * (3 / 4)⟩ := by
  rw [measurePilot, deliver_exact P.num hexact]

theorem applyCorrection_exact {A : NumParam} (hexact : ∀ φ x, A.rnd φ x = x) (x : Cplx) (ph amp : Scalar) :
    applyCorrection A x ph amp = ⟨(cmul x (expI A (-ph))).re / amp, (cmul x (expI A (-ph))).im / amp⟩ := by
  rw [applyCorrection, hexact, hexact]

/-! ## The table and the equalized block -/

theorem equalizerTable_getElem? (P : Params) (fd : List Cplx) {c : Nat} (hc : c < P.kMax + 1) :
    (equalizerTable P fd)[c]? = some (correction P.num (measurePilots P fd) c) := by
  simp [equalizerTable, hc]

theorem equalize_eqPh (P : Params) (s : State) :
    (equalize P s).blk.eqPh = (equalizerTable P s.blk.fd).map Prod.fst := rfl

theorem equalize_eqAmp (P : Params) (s : State) :
    (equalize P s).blk.eqAmp = (equalizerTable P s.blk.fd).map Prod.snd := rfl

theorem equalize_eqb (P : Params) (s : State) : (equalize P s).blk.eqb =
    (equalizerTable P s.blk.fd).mapIdx fun c t => equalizedCarrier P s.blk.fd s.draws c t := rfl

/-- PRE_ZERO_AMP is recorded where some carrier's amplitude is 0 (42_equalizer R186). -/
theorem equalize_preZeroAmp (P : Params) (s : State) : (equalize P s).mfault.preZeroAmp = true ↔
    s.mfault.preZeroAmp = true ∨
      ∃ c, c < P.kMax + 1 ∧ (correction P.num (measurePilots P s.blk.fd) c).2 = 0 := by
  have hzero : (equalizerTable P s.blk.fd).any (fun t => decide (t.2 = 0)) = true ↔
      ∃ c, c < P.kMax + 1 ∧ (correction P.num (measurePilots P s.blk.fd) c).2 = 0 := by
    simp [equalizerTable]
  simp only [equalize, ← hzero]
  split
  · simp [*, ModelFaults.addPreZeroAmp]
  · simp [*]

/-- All that EQ changes before its response (42_equalizer R180). -/
theorem equalize_frame (P : Params) (s : State) : equalize P s = { s with
    blk := { s.blk with
      eqPh := (equalize P s).blk.eqPh, eqAmp := (equalize P s).blk.eqAmp, eqb := (equalize P s).blk.eqb
      eqId := s.blk.fdId }
    mfault := { s.mfault with preZeroAmp := (equalize P s).mfault.preZeroAmp }
    draws := (equalize P s).draws } := by
  simp only [equalize]
  split <;> rfl

/-! ## The command -/

/-- EQ with a transform present (42_equalizer R180). -/
theorem exec_eq_of_transformed {s : State} (hhalted : s.est.halted = false) (hfd : s.blk.fdId ≠ none) :
    exec .eq s = .next ((equalize theParams s).respond .ok 0) := by
  rcases eqBody_cases theParams s with ⟨h, -⟩ | ⟨-, h, -⟩ | ⟨-, -, hbody⟩
  · simp [hhalted] at h
  · exact absurd h hfd
  · rw [exec, execEq, hbody, respondStage]

/-- Settles O30: the body's one completing case, entry by entry, and over the reals the parts of the formulas. -/
theorem eqEqualizesTheBlock : Obligations.EqEqualizesTheBlock := by
  refine ⟨fun s b hhalted hfd => ?_, fun P fd c x ph amp hexact => ?_⟩
  · intro P corr
    have hframe := equalize_frame P s
    rw [hfd] at hframe
    refine ⟨(equalize P s).respond .ok 0, exec_eq_of_transformed hhalted (by simp [hfd]), ?_, ?_, ?_,
      fun c hc => ⟨?_, ?_, ?_⟩, equalize_preZeroAmp P s, ?_⟩
    · simp [equalize_eqPh, P]
    · simp [equalize_eqAmp, P]
    · simp [equalize_eqb, P]
    · simp [equalize_eqPh, equalizerTable_getElem? P s.blk.fd hc, corr, measurePilots]
    · simp [equalize_eqAmp, equalizerTable_getElem? P s.blk.fd hc, corr, measurePilots]
    · simp [equalize_eqb, equalizerTable_getElem? P s.blk.fd hc, corr, measurePilots, equalizedCarrier]
    · exact congrArg (·.respond .ok 0) hframe
  · intro sign p
    have hp : signed (refNegative P c) (carrier P fd c) = p := signed_eq_mul _ _
    refine ⟨?_, rfl, fun _ => applyCorrection_exact hexact x ph amp⟩
    rw [measurePilot_exact hexact, hp]
    rfl

/-- EQ's table and its block are functions of FD but for the draws, which stand where the amplitude is 0. -/
theorem equalize_congr (P : Params) {s s' : State} (hfd : s.blk.fd = s'.blk.fd) :
    (equalize P s).blk.eqPh = (equalize P s').blk.eqPh ∧ (equalize P s).blk.eqAmp = (equalize P s').blk.eqAmp ∧
    ∀ c : Nat, (equalize P s).blk.eqb[c]? = (equalize P s').blk.eqb[c]? ∨
      (equalize P s).blk.eqAmp[c]? = some 0 := by
  refine ⟨by rw [equalize_eqPh, equalize_eqPh, hfd], by rw [equalize_eqAmp, equalize_eqAmp, hfd], fun c => ?_⟩
  rw [equalize_eqb, equalize_eqb, equalize_eqAmp, hfd, List.getElem?_mapIdx, List.getElem?_mapIdx, List.getElem?_map]
  cases (equalizerTable P s'.blk.fd)[c]? with
  | none => exact .inl rfl
  | some corr =>
    by_cases hzero : corr.2 = 0
    · exact .inr (by simp [hzero])
    · exact .inl (by simp [equalizedCarrier, hzero])

/-- Settles O33: both runs complete, with the equalized blocks that `equalize_congr` compares. -/
theorem eqHasNoMemory : Obligations.EqHasNoMemory := by
  intro s s' t t' hhalted hhalted' hfdId hfdId' hfd hexec hexec'
  rw [exec_eq_of_transformed hhalted hfdId] at hexec
  rw [exec_eq_of_transformed hhalted' hfdId'] at hexec'
  obtain rfl := Host.Outcome.next.inj hexec
  obtain rfl := Host.Outcome.next.inj hexec'
  simpa only [State.respond_blk] using equalize_congr theParams hfd

end Sys2Proof.Machine
end

section
/-! The event word (43_tps R210, 30_encoding R100): the bits of a payload field, and the fields the word is made of. -/

namespace Sys2Proof.Machine

/-- Bit `i` of a payload field: its lowest-numbered payload bit is the most significant (43_tps R210). -/
theorem payloadField_testBit (payload : BitVec 68) (first width i : Nat) :
    (payloadField payload ⟨first, width⟩).testBit i =
      (decide (i < width) && payload.getLsbD (first + (width - 1 - i))) := by
  induction width generalizing i with
  | zero => simp [payloadField]
  | succ width ih =>
    have hsucc : payloadField payload ⟨first, width + 1⟩ =
        Nat.bit (payload.getLsbD (first + width)) (payloadField payload ⟨first, width⟩) := by
      simp [payloadField, List.range_succ, Nat.bit_val]
    rw [hsucc]
    cases i with
    | zero => simp
    | succ i => rw [Nat.testBit_bit_succ, ih]; simp [Nat.sub_sub, Nat.add_comm]

/-- The seven fields of the event word, each with the place of its least significant bit (30_encoding R100). -/
def eventLayout (f : TpsFields) : List (PayloadField × Nat) :=
  [(f.frame, 0), (f.constellation, 2), (f.hierarchy, 4), (f.rateHp, 7), (f.rateLp, 10), (f.guard, 13),
    (f.fftMode, 15)]

/-- The fields of a layout that hold bit `k` of the event word. -/
def fieldsAt (layout : List (PayloadField × Nat)) (k : Nat) : List (PayloadField × Nat) :=
  layout.filter fun e => decide (e.2 ≤ k ∧ k < e.2 + e.1.width)

/-- A field of the event word, `shift` places up. -/
theorem payloadField_shiftLeft_getLsbD (payload : BitVec 68) (f : PayloadField) (shift k : Nat) (hk : k < 64) :
    (BitVec.ofNat 64 (payloadField payload f) <<< shift).getLsbD k = (decide (shift ≤ k ∧ k < shift + f.width) &&
      payload.getLsbD (f.first + (f.width - 1 - (k - shift)))) := by
  rw [BitVec.getLsbD_shiftLeft, BitVec.getLsbD_ofNat, payloadField_testBit, ← Bool.and_assoc, ← Bool.and_assoc]
  congr 1
  rw [← decide_not, ← Bool.decide_and, ← Bool.decide_and, ← Bool.decide_and, decide_eq_decide]
  omega

/-- A bit of the event word is set where some field that holds it sets it. -/
theorem decodeEvent_getLsbD (P : Params) (payload : BitVec 68) {k : Nat} (hk : k < 64) :
    (decodeEvent P payload).getLsbD k = (fieldsAt (eventLayout P.tpsFields) k).any fun e =>
      payload.getLsbD (e.1.first + (e.1.width - 1 - (k - e.2))) := by
  have hword : (decodeEvent P payload).getLsbD k = (eventLayout P.tpsFields).any fun e =>
      (BitVec.ofNat 64 (payloadField payload e.1) <<< e.2).getLsbD k := by
    simp only [decodeEvent, eventLayout, List.any_cons, List.any_nil, BitVec.shiftLeft_zero, BitVec.getLsbD_or,
      Bool.or_false, Bool.or_assoc]
  rw [hword, fieldsAt, List.any_filter]
  simp only [payloadField_shiftLeft_getLsbD _ _ _ _ hk]

/-- The fields of 2K end below bit 17 of the event word. -/
theorem eventLayout_below_17 : ∀ e ∈ eventLayout tpsFields2K, e.2 + e.1.width ≤ 17 := by decide

/-- Settles O36: each bit below 17 is held by exactly one field, and no field reaches bit 17. -/
theorem eventWordTakesItsPayloadBits : Obligations.EventWordTakesItsPayloadBits := by
  intro payload
  refine ⟨?_, fun k hk => ?_⟩
  · simp only [List.forall_mem_cons, List.not_mem_nil, false_implies, implies_true, and_true]
    and_intros
    all_goals
      rw [decodeEvent_getLsbD _ _ (by decide)]
      exact Bool.or_false _
  · rcases Nat.lt_or_ge k 64 with hlt | hge
    · have hnone : fieldsAt (eventLayout theParams.tpsFields) k = [] := by
        rw [fieldsAt, List.filter_eq_nil_iff, theParams_tpsFields]
        intro e he
        have hend := eventLayout_below_17 e he
        simp only [decide_eq_true_eq]
        omega
      rw [decodeEvent_getLsbD _ _ hlt, hnone, List.any_nil]
    · exact BitVec.getLsbD_of_ge _ _ hge

end Sys2Proof.Machine
end

section
/-! TPS on a block it has not processed (43_tps R200 to R209, R211): the vote of its 17 carriers, and what the step of
its bit writes. -/

namespace Sys2Proof.Machine

/-! ## The vote -/

/-- The bit of the current block: the majority of its carriers' votes (43_tps R202). -/
def tpsBit (P : Params) (s : State) : Bool :=
  majority P.tpsList.length (countOnes P.num (tpsPhasors P s.blk.fd) s.tps.prev)

/-- The dot product over the reals (43_tps R201). -/
theorem dot_exact {A : NumParam} (hexact : ∀ φ x, A.rnd φ x = x) (z w : Cplx) :
    dot A z w = z.re * w.re + z.im * w.im := by
  rw [dot, deliver_exact A hexact]
  simp [cmul, conj]

/-- The vote carrier by carrier (43_tps R201). -/
theorem countOnes_tpsPhasors (fd prev : List Cplx) : countOnes theParams.num (tpsPhasors theParams fd) prev =
    ((List.range 17).filter fun t =>
      decide (dot theParams.num (carrier theParams fd (tpsList2K.getD t 0)) (prev.getD t Cplx.zero) < 0)).length :=
  countOnes_map theParams.num (carrier theParams fd) tpsList2K prev

/-- No carrier votes 1 against zero phasors (43_tps R200). -/
theorem countOnes_zeros (A : NumParam) (now : List Cplx) (n : Nat) :
    countOnes A now (List.replicate n Cplx.zero) = 0 := by
  rw [countOnes, List.length_eq_zero_iff, List.filter_eq_nil_iff]
  intro p hp
  have hzero : p.2 = Cplx.zero := List.eq_of_mem_replicate (List.of_mem_zip hp).2
  simp [votesOne, hzero]

theorem tpsBit_of_zeros {P : Params} {s : State} {n : Nat} (hprev : s.tps.prev = List.replicate n Cplx.zero) :
    tpsBit P s = false := by
  simp [tpsBit, hprev, countOnes_zeros, majority]

/-- The vote of 17 carriers is split where 7 to 10 of them vote 1 (43_tps R203). -/
theorem splitVote_eq (ones : Nat) : splitVote theParams 17 ones = decide (ones ∈ [7, 8, 9, 10]) := by
  rw [splitVote, theParams_splitMargin, decide_eq_decide]
  simp only [List.mem_cons, List.not_mem_nil, or_false]
  omega

/-- The sync word and its complement (43_tps R204). -/
theorem syncMatch_eq (shift : BitVec 16) : syncMatch theParams shift = decide (shift = 0x35EE ∨ shift = 0xCA11) := by
  rw [syncMatch, theParams_syncWord]
  rfl

theorem decide_toNat (p : Prop) [Decidable p] : (decide p).toNat = if p then 1 else 0 := Bool.cond_decide p 1 0

theorem shiftIn_false (shift : BitVec 16) : shiftIn shift false = shift <<< 1 := by
  simp [shiftIn]

/-! ## What the step writes -/

/-- The decoder's state after the current block's bit, before the position advances (43_tps R204 to R207, R209). -/
def tpsReceived (P : Params) (s : State) : TpsState := tpsReceive P (tpsPhasors P s.blk.fd) (tpsBit P s) s.tps

theorem tpsStep_tps (P : Params) (s : State) :
    (tpsStep P s).tps = tpsAdvance P (tpsReceived P s).idxSym (tpsReceived P s) := rfl

section DecoderFields

variable (P : Params) (s : State)

theorem tpsStep_prev : (tpsStep P s).tps.prev = tpsPhasors P s.blk.fd := by
  rw [tpsStep_tps, tpsAdvance_prev, tpsReceived, tpsReceive_prev]

theorem tpsStep_shift : (tpsStep P s).tps.shift = shiftIn s.tps.shift (tpsBit P s) := by
  rw [tpsStep_tps, tpsAdvance_shift, tpsReceived, tpsReceive_shift]

theorem tpsStep_idxSym : (tpsStep P s).tps.idxSym = currentPos P s.tps (tpsBit P s) := by
  rw [tpsStep_tps, tpsAdvance_idxSym, tpsReceived, tpsReceive_idxSym]

theorem tpsStep_idxFrame : (tpsStep P s).tps.idxFrame = s.tps.frame := by
  rw [tpsStep_tps, tpsAdvance_idxFrame, tpsReceived, tpsReceive_idxFrame]

/-- The bit is stored at the block's position and nowhere else (43_tps R207). -/
theorem tpsStep_payload_getLsbD {k : Nat} (hk : k < 68) : (tpsStep P s).tps.payload.getLsbD k =
    if k = (tpsStep P s).tps.idxSym.val then tpsBit P s else s.tps.payload.getLsbD k := by
  rw [tpsStep_idxSym, tpsStep_tps, tpsAdvance_payload, tpsReceived, tpsReceive_payload,
    setPayloadBit_getLsbD _ _ _ _ hk]

theorem tpsStep_sync : (tpsStep P s).tps.sync = (s.tps.sync || syncMatch P (tpsStep P s).tps.shift) := by
  rw [tpsStep_shift, tpsStep_tps, tpsAdvance_sync, tpsReceived, tpsReceive_sync]

/-- OUT_VALID is set by a synchronised decoder's first symbol of frame 0 (43_tps R209). -/
theorem tpsStep_outValid : (tpsStep P s).tps.outValid = (s.tps.outValid ||
    ((tpsStep P s).tps.sync && decide ((tpsStep P s).tps.idxSym = 0 ∧ s.tps.frame = 0))) := by
  rw [tpsStep_sync, tpsStep_shift, tpsStep_idxSym, tpsStep_tps, tpsAdvance_outValid, tpsReceived, tpsReceive_outValid,
    Bool.decide_and, Bool.and_assoc]

theorem tpsStep_pos : (tpsStep P s).tps.pos.val = ((tpsStep P s).tps.idxSym.val + 1) % 68 := by
  rw [tpsStep_tps, tpsAdvance_pos, tpsAdvance_idxSym]

end DecoderFields

theorem tpsStep_cnt (P : Params) (s : State) : (tpsStep P s).cnt = { s.cnt with
    splitVote := satAdd s.cnt.splitVote (splitVote P P.tpsList.length
      (countOnes P.num (tpsPhasors P s.blk.fd) s.tps.prev)).toNat
    resync := satAdd s.cnt.resync
      (syncMatch P (shiftIn s.tps.shift (tpsBit P s)) && decide (s.tps.pos ≠ 16)).toNat
    tpsEvents := satAdd s.cnt.tpsEvents (emitsEvent (tpsReceived P s).idxSym (tpsReceived P s)).toNat } :=
  congrArg State.cnt (tpsStep_eq P s)

/-- The step changes the decoder's state, its tag, its three counters and the outputs alone (43_tps R200). -/
theorem tpsStep_unchanged (P : Params) (s : State) : tpsStep P s = { s with
    tps := (tpsStep P s).tps
    blk := { s.blk with tpsId := s.blk.fdId }
    cnt := { s.cnt with
      splitVote := (tpsStep P s).cnt.splitVote, resync := (tpsStep P s).cnt.resync
      tpsEvents := (tpsStep P s).cnt.tpsEvents }
    out := (tpsStep P s).out } := by
  rw [tpsStep_eq]

/-- After the diagnostics of the vote and of the match the event goes out where one is due (43_tps R211). -/
theorem tpsStep_out (P : Params) (s : State) : ∃ diags, (∀ w, OutItem.tpsEvt w ∉ diags) ∧
    (tpsStep P s).out = s.out ++ diags ++ if emitsEvent (tpsReceived P s).idxSym (tpsReceived P s) then
      [.tpsEvt (decodeEvent P (tpsReceived P s).payload),
        .diag 0x08 (BitVec.ofNat 32 (decodeEvent P (tpsReceived P s).payload).toNat)] else [] := by
  have hout := congrArg State.out (tpsStep_eq P s)
  dsimp only at hout
  rw [List.append_assoc s.out] at hout
  refine ⟨_, fun w hw => ?_, hout⟩
  rcases List.mem_append.mp hw with hw | hw <;> split at hw <;> simp at hw

theorem tpsStep_tpsPort (P : Params) (s : State) : (tpsStep P s).tpsPort = s.tpsPort ++
    if emitsEvent (tpsReceived P s).idxSym (tpsReceived P s) then [decodeEvent P (tpsReceived P s).payload]
    else [] := by
  obtain ⟨diags, hdiags, hout⟩ := tpsStep_out P s
  have hkept : State.tpsPort { s with out := s.out ++ diags } = s.tpsPort := State.tpsPort_of_append rfl hdiags
  rw [State.tpsPort_append (s := { s with out := s.out ++ diags }) hout, hkept]
  congr 1
  split <;> rfl

/-- TPS writes neither DMX_OUT nor VIT_OUT. -/
theorem tpsStep_dmxPort_vitPort (P : Params) (s : State) :
    (tpsStep P s).dmxPort = s.dmxPort ∧ (tpsStep P s).vitPort = s.vitPort := by
  obtain ⟨tps, split, resync, events, items, hitems, hstep⟩ := tpsStep_updates P s
  rw [hstep]
  obtain ⟨-, -, hdmx⟩ := (Same.emitAll (hitems .demux (by simp)) _).fields
  obtain ⟨-, hvit⟩ := (Same.emitAll (hitems .decoder (by simp)) _).fields
  exact ⟨hdmx, hvit⟩

/-! ## The command -/

/-- TPS on a block it has not processed (43_tps R200). -/
theorem exec_tps_of_transformed {s : State} {b : Nat} (hhalted : s.est.halted = false) (hfd : s.blk.fdId = some b)
    (htag : s.blk.tpsId ≠ some b) :
    exec .tps s = .next ((tpsStep theParams s).respond .ok 0) := by
  have hbody : tpsBody theParams s = (.ok, tpsStep theParams s) := by
    simp [tpsBody, hhalted, hfd, htag]
  rw [exec, execTps, hbody, respondStage]

/-- Settles O34: the vote of `countOnes_tpsPhasors` makes the bit, and the fields of `tpsStep` say where it goes. -/
theorem tpsProcessesOneBit : Obligations.TpsProcessesOneBit := by
  refine ⟨fun s b hhalted hfd htag => ?_, fun A z w hexact => dot_exact hexact z w⟩
  intro P now product ones bit shift hit cur sync
  have hones : countOnes P.num (tpsPhasors P s.blk.fd) s.tps.prev = ones := countOnes_tpsPhasors s.blk.fd s.tps.prev
  have hbit : tpsBit P s = bit := congrArg (majority 17) hones
  have hmatch : syncMatch P shift = decide hit := syncMatch_eq shift
  have hcur : currentPos P s.tps bit = cur := by
    rw [currentPos, hmatch]
    simp [cur]
  have hexec := exec_tps_of_transformed hhalted hfd htag
  have hprev : (tpsStep P s).tps.prev = now := tpsStep_prev P s
  have hshift : (tpsStep P s).tps.shift = shift := by rw [tpsStep_shift, hbit]
  have hidx : (tpsStep P s).tps.idxSym = cur := by rw [tpsStep_idxSym, hbit, hcur]
  have hidxFrame := tpsStep_idxFrame P s
  have hpayload := fun k (hk : k < 68) => tpsStep_payload_getLsbD P s hk
  have hsync : (tpsStep P s).tps.sync = sync := by rw [tpsStep_sync, hshift, hmatch]
  have hvalid := tpsStep_outValid P s
  have hpos := tpsStep_pos P s
  rw [hidx] at hvalid hpos
  rw [hsync] at hvalid
  simp only [hidx, hbit] at hpayload
  have hsplit : (tpsStep P s).cnt.splitVote = satAdd s.cnt.splitVote (if ones ∈ [7, 8, 9, 10] then 1 else 0) := by
    rw [tpsStep_cnt, hones, ← decide_toNat, ← splitVote_eq]
    rfl
  have hresync : (tpsStep P s).cnt.resync = satAdd s.cnt.resync (if hit ∧ s.tps.pos ≠ 16 then 1 else 0) := by
    rw [tpsStep_cnt, hbit, hmatch, ← decide_toNat, Bool.decide_and]
  have hresp := (tpsStep_frame P s).respPort
  obtain ⟨hdmx, hvit⟩ := tpsStep_dmxPort_vitPort P s
  have hkept := tpsStep_unchanged P s
  rw [hfd] at hkept
  -- the frame's `rfl` would otherwise evaluate the step
  generalize tpsStep P s = r at *
  refine ⟨r.respond .ok 0, hexec, ?_, ?_, ?_, hprev, hshift, ?_, hpayload, hsync, hidx, hidxFrame, hvalid, hpos,
    hsplit, hresync, congrArg (·.respond .ok 0) hkept⟩
  · rw [State.respond_respPort, hresp]
  · rw [State.respond_dmxPort, hdmx]
  · rw [State.respond_vitPort, hvit]
  · rw [State.respond_tps, hshift, shiftIn_toNat]

/-- Settles O35: whether an event is due decides the port, the frame counter and the event fields alike. -/
theorem tpsWrapEmitsOneEvent : Obligations.TpsWrapEmitsOneEvent := by
  intro s t b hhalted hfd htag hexec
  have hrun := exec_tps_of_transformed hhalted hfd htag
  rw [hrun] at hexec
  obtain rfl := Host.Outcome.next.inj hexec
  simp only [State.respond_tps, State.respond_cfg, State.respond_tpsPort, State.respond_cnt, tpsStep_tps,
    tpsStep_tpsPort, tpsStep_cnt, tpsAdvance_payload, tpsAdvance_idxSym, tpsAdvance_sync, tpsAdvance_pos,
    tpsAdvance_lastEvent, tpsAdvance_eventSeen, tpsAdvance_frame, true_and]
  have hframe : (tpsReceived theParams s).frame = s.tps.frame := rfl
  have hlast : (tpsReceived theParams s).lastEvent = s.tps.lastEvent := rfl
  have hseen : (tpsReceived theParams s).eventSeen = s.tps.eventSeen := rfl
  have hcfg : (tpsStep theParams s).cfg = s.cfg := (tpsStep_frame theParams s).cfg
  refine ⟨hcfg, ?_⟩
  rw [hframe, hlast, hseen]
  generalize tpsReceived theParams s = r
  refine ⟨fun hpos hsync => ?_, fun hpos hsync => ?_, fun hpos => ?_⟩
  · have hemit : emitsEvent r.idxSym r = true := by simp [emitsEvent, hpos, hsync]
    simp [hemit, BitVec.toNat_add]
  · have hemit : emitsEvent r.idxSym r = false := by simp [emitsEvent, hsync]
    simp [hemit, hpos, BitVec.toNat_add]
  · have hemit : emitsEvent r.idxSym r = false := by simp [emitsEvent, hpos]
    simp [hemit, hpos]

/-- Settles O37: no carrier votes 1, so a 0 is shifted in. -/
theorem firstBitAfterResetIsZero : Obligations.FirstBitAfterResetIsZero := by
  intro s b hhalted hfd htag hprev
  refine ⟨_, exec_tps_of_transformed hhalted hfd htag, ?_⟩
  rw [State.respond_tps, tpsStep_shift, tpsBit_of_zeros hprev, shiftIn_false]

end Sys2Proof.Machine
end

section
/-! The deinterleaver as a permutation of bits (20_memory R78, R79, R81, 44_demux R242 to R247): the symbol
interleaver permutes the cells, one parity's permutation being the other's inverse, and each bit plane is rotated
within its blocks of 126. -/

namespace Sys2Proof.Machine

/-! ## HQ (20_memory R78) -/

/-- Or-ing in the bits of a list one by one. -/
theorem foldl_or_shiftLeft_testBit (hs : List Nat) (k : Nat) : ∀ m : Nat,
    (hs.foldl (fun m h => m ||| (1 <<< h)) m).testBit k = (m.testBit k || decide (k ∈ hs)) := by
  induction hs with
  | nil => simp
  | cons h hs ih =>
    intro m
    rw [List.foldl_cons, ih, Nat.testBit_or, Nat.one_shiftLeft, Nat.testBit_two_pow, Bool.or_assoc]
    simp only [List.mem_cons, Bool.decide_or, eq_comm]

/-- The bits set in a mask are the entries of its list. -/
theorem valueMask_testBit (hs : List Nat) (k : Nat) : (valueMask hs).testBit k = decide (k ∈ hs) := by
  rw [valueMask, foldl_or_shiftLeft_testBit, Nat.zero_testBit, Bool.false_or]

/-- A list whose mask is full below `n` holds every value below `n`. -/
theorem mem_of_valueMask_eq {hs : List Nat} {n w : Nat} (hmask : valueMask hs = 2 ^ n - 1) (hw : w < n) : w ∈ hs := by
  have hbit := valueMask_testBit hs w
  rw [hmask, Nat.testBit_two_pow_sub_one, decide_eq_true hw] at hbit
  exact of_decide_eq_true hbit.symm

theorem mem_hq2K {w : Nat} (hw : w < 1512) : w ∈ hq2K := mem_of_valueMask_eq hq2K_mask hw

/-- HQ is a permutation of 0..1511: it has 1512 entries and holds each of these values. -/
theorem hq2K_perm_range : hq2K.Perm (List.range 1512) := by
  have hsub : List.range 1512 ⊆ hq2K := fun w hw => mem_hq2K (List.mem_range.mp hw)
  refine (List.Subperm.perm_of_length_le (List.nodup_range.subperm hsub) ?_).symm
  rw [hq2K_length, List.length_range]

theorem hq2K_nodup : hq2K.Nodup := hq2K_perm_range.nodup_iff.mpr List.nodup_range

/-! ## The symbol deinterleaver (44_demux R242) -/

/-- The physical position of the cell with logical position `w`: HQ[w] in even symbols, the q with HQ[q] = w in odd
ones (44_demux R246). -/
def physicalPosition (sym w : Nat) : Nat := if sym % 2 = 0 then hq2K.getD w 0 else hq2K.idxOf w

theorem hq2K_getElem?_idxOf {w : Nat} (hw : w < 1512) : hq2K[hq2K.idxOf w]? = some w :=
  List.getElem?_idxOf (mem_hq2K hw)

theorem hq2K_getElem? {w : Nat} (hw : w < 1512) : hq2K[w]? = some (hq2K.getD w 0) := by
  rw [List.getD_eq_getElem?_getD, List.getElem?_eq_getElem (hq2K_length ▸ hw), Option.getD_some]

theorem hq2K_idxOf_eq {q w : Nat} (hq : hq2K[q]? = some w) : hq2K.idxOf w = q := by
  obtain ⟨hlt, rfl⟩ := List.getElem?_eq_some_iff.mp hq
  exact hq2K_nodup.idxOf_getElem q hlt

theorem physicalPosition_lt (sym : Nat) {w : Nat} (hw : w < 1512) : physicalPosition sym w < 1512 := by
  unfold physicalPosition
  split
  · exact hq2K_lt _ (List.mem_of_getElem? (hq2K_getElem? hw))
  · exact hq2K_length ▸ List.idxOf_lt_length_of_mem (mem_hq2K hw)

/-- The permutation of the other parity is the inverse. -/
theorem physicalPosition_succ_physicalPosition (sym : Nat) {w : Nat} (hw : w < 1512) :
    physicalPosition (sym + 1) (physicalPosition sym w) = w := by
  rcases Nat.mod_two_eq_zero_or_one sym with heven | hodd
  · rw [physicalPosition, physicalPosition, if_neg (by omega), if_pos heven]
    exact hq2K_idxOf_eq (hq2K_getElem? hw)
  · rw [physicalPosition, physicalPosition, if_pos (by omega), if_neg (by omega), List.getD_eq_getElem?_getD,
      hq2K_getElem?_idxOf hw, Option.getD_some]

theorem physicalPosition_add_two (sym w : Nat) : physicalPosition (sym + 2) w = physicalPosition sym w := by
  rw [physicalPosition, physicalPosition, Nat.add_mod_right]

theorem physicalPosition_physicalPosition_succ (sym : Nat) {p : Nat} (hp : p < 1512) :
    physicalPosition sym (physicalPosition (sym + 1) p) = p := by
  rw [← physicalPosition_add_two]
  exact physicalPosition_succ_physicalPosition (sym + 1) hp

/-- Gathering and scattering alike: the cell at logical position `w` comes from its physical position. -/
theorem symbolDeinterleave_getElem? {cells : List Cell} (hcells : cells.length = 1512) (sym : Nat) {w : Nat}
    (hw : w < 1512) :
    (symbolDeinterleave theParams cells sym)[w]? = cells[physicalPosition sym w]? := by
  have hp : physicalPosition sym w < cells.length := hcells ▸ physicalPosition_lt sym hw
  rw [List.getElem?_eq_getElem hp, symbolDeinterleave, theParams_hq]
  by_cases heven : sym % 2 = 0
  · have hpos : physicalPosition sym w = hq2K.getD w 0 := if_pos heven
    rw [if_pos heven, List.getElem?_map, hq2K_getElem? hw, ← hpos, Option.map_some, List.getD_eq_getElem _ _ hp]
  · have hpos : hq2K[physicalPosition sym w]? = some w := by
      rw [physicalPosition, if_neg heven, hq2K_getElem?_idxOf hw]
    rw [if_neg heven]
    refine scatter_getElem? _ _ _ _ _ _ hq2K_nodup (fun h hh => ?_) hpos (List.getElem?_eq_getElem hp)
    rw [List.length_replicate, theParams_nMax]
    exact hq2K_lt h hh

/-! ## The bit deinterleaver (44_demux R243 to R245) -/

/-- The rotation in closed form, for the four planes of 16-QAM (44_demux R244). -/
theorem rotatedIndex_eq {e : Nat} (he : e < 4) (w : Nat) : rotatedIndex theParams e w =
    126 * (w / 126) + (w % 126 + [0, 63, 105, 42].getD e 0) % 126 := by
  have hoffset : ∀ e < 4, [0, 63, 105, 42, 21, 84].getD e 0 = [0, 63, 105, 42].getD e 0 := by decide
  rw [rotatedIndex, theParams_biBlock, theParams_biOffsets, hoffset e he]

/-- Every place of a plane is rotated to. -/
theorem exists_rotatedIndex_eq (e : Nat) {i : Nat} (hi : i < 1512) :
    ∃ w < 1512, rotatedIndex theParams e w = i := by
  have hmaps : Set.MapsTo (rotatedIndex theParams e) (Finset.range 1512) (Finset.range 1512) := fun w hw => by
    rw [Finset.mem_coe, Finset.mem_range] at hw ⊢
    exact rotatedIndex_lt e w hw
  have hinj : Set.InjOn (rotatedIndex theParams e) (Finset.range 1512) := fun w _ w' _ =>
    rotatedIndex_injective e w w'
  obtain ⟨w, hw, heq⟩ := Finset.surjOn_of_injOn_of_card_le _ hmaps hinj le_rfl
    (Finset.mem_coe.mpr (Finset.mem_range.mpr hi))
  exact ⟨w, Finset.mem_range.mp hw, heq⟩

theorem rotatePlane_getElem? (e : Nat) {a : List Bool} {w : Nat} {v : Bool} (hw : w < 1512) (ha : a[w]? = some v) :
    (rotatePlane theParams e a)[rotatedIndex theParams e w]? = some v := by
  have hidx : ((List.range 1512).map (rotatedIndex theParams e)).Nodup :=
    List.nodup_range.map fun w w' => rotatedIndex_injective e w w'
  refine scatter_getElem? _ _ _ w _ v hidx ?_ ?_ ha
  · simp only [List.mem_map, List.mem_range, List.length_replicate, theParams_nMax]
    rintro _ ⟨k, hk, rfl⟩
    exact rotatedIndex_lt e k hk
  · rw [List.getElem?_map, theParams_nMax, List.getElem?_range hw, Option.map_some]

theorem flatMap_range_length {α : Type} {m : Nat} {f : Nat → List α} (hf : ∀ i, (f i).length = m) (n : Nat) :
    ((List.range n).flatMap f).length = m * n := by
  simp [List.length_flatMap, hf, Nat.mul_comm]

/-- Entry `j` of block `i`, every block having `m` entries. -/
theorem flatMap_range_getElem? {α : Type} {m : Nat} {f : Nat → List α} (hf : ∀ i, (f i).length = m) {i j : Nat}
    (hj : j < m) (n : Nat) : i < n → ((List.range n).flatMap f)[m * i + j]? = (f i)[j]? := by
  induction n with
  | zero => exact fun hi => absurd hi (Nat.not_lt_zero i)
  | succ n ih =>
    intro hi
    have hlen := flatMap_range_length hf n
    rw [List.range_succ, List.flatMap_append, List.flatMap_singleton]
    rcases Nat.lt_succ_iff_lt_or_eq.mp hi with hlt | rfl
    · have hblock : m * i + m ≤ m * n := Nat.mul_succ m i ▸ Nat.mul_le_mul_left m hlt
      rw [List.getElem?_append_left (by omega), ih hlt]
    · rw [List.getElem?_append_right (by omega), hlen, Nat.add_sub_cancel_left]

/-- The place of bit plane `e` in a group of four output bits: the j with DEMUX16[j] = e. DEMUX16 is its own inverse
(20_memory R81). -/
def demuxSlot (e : Nat) : Nat := [0, 2, 1, 3].getD e 0

theorem demuxSlot_lt : ∀ e < 4, demuxSlot e < 4 := by decide

theorem demuxSlot_demuxSlot : ∀ e < 4, demuxSlot (demuxSlot e) = e := by decide

theorem demux16_getElem?_demuxSlot : ∀ e < 4, [0, 2, 1, 3][demuxSlot e]? = some e := by decide

/-- The output index of bit `e` of the cell with logical position `w` (44_demux R246). -/
def bitIndex (e w : Nat) : Nat := 4 * rotatedIndex theParams e w + demuxSlot e

/-- Every output index is that of a bit. -/
theorem exists_bitIndex_eq {k : Nat} (hk : k < 6048) : ∃ w < 1512, ∃ e < 4, bitIndex e w = k := by
  have hslot : k % 4 < 4 := Nat.mod_lt k (by omega)
  obtain ⟨w, hw, heq⟩ := exists_rotatedIndex_eq (demuxSlot (k % 4)) (by omega : k / 4 < 1512)
  refine ⟨w, hw, demuxSlot (k % 4), demuxSlot_lt _ hslot, ?_⟩
  rw [bitIndex, heq, demuxSlot_demuxSlot _ hslot]
  omega

theorem bitDeinterleave_length (lg : List Cell) : (bitDeinterleave theParams lg).length = 6048 := by
  rw [bitDeinterleave, theParams_demux16, flatMap_range_length (m := 4) (fun i => by simp), theParams_nMax]

theorem bitDeinterleave_getElem? {lg : List Cell} {w e : Nat} {c : Cell} (hw : w < 1512) (he : e < 4)
    (hc : lg[w]? = some c) : (bitDeinterleave theParams lg)[bitIndex e w]? = some (c.bit e) := by
  have hplane : (bitPlane lg e)[w]? = some (c.bit e) := by rw [bitPlane, List.getElem?_map, hc, Option.map_some]
  rw [bitDeinterleave, bitIndex, theParams_nMax, theParams_demux16,
    flatMap_range_getElem? (fun i => by simp) (demuxSlot_lt e he) _ (rotatedIndex_lt e w hw), List.getElem?_map,
    List.getElem?_map, demux16_getElem?_demuxSlot e he, Option.map_some, Option.map_some,
    List.getD_eq_getElem?_getD, rotatePlane_getElem? e hw hplane, Option.getD_some]

/-! ## The symbol's output bits (44_demux R246, R247) -/

theorem symbolBits_length (cells : List Cell) (sym : Nat) : (symbolBits theParams cells sym).length = 6048 :=
  bitDeinterleave_length _

/-- Where bit `e` of the cell at the physical position of `w` goes. -/
theorem symbolBits_getElem? {cells : List Cell} (hcells : cells.length = 1512) {sym w e : Nat} {c : Cell}
    (hw : w < 1512) (he : e < 4) (hc : cells[physicalPosition sym w]? = some c) :
    (symbolBits theParams cells sym)[bitIndex e w]? = some (c.bit e) :=
  bitDeinterleave_getElem? hw he (by rw [symbolDeinterleave_getElem? hcells sym hw, hc])

/-- Settles O42: `symbolBits_getElem?` with the positions written out. -/
theorem deinterleaverClosedForm : Obligations.DeinterleaverClosedForm := by
  intro cells sym w j hcells hw hj e i
  have he : e < 4 := demuxSlot_lt j hj
  have hindex : bitIndex e w = 4 * i + j := by
    rw [bitIndex, rotatedIndex_eq he]
    exact congrArg (4 * i + ·) (demuxSlot_demuxSlot j hj)
  refine ⟨symbolBits_length cells sym, fun heven c hc => ?_, fun hodd q c hq hc => ?_⟩
  · have hpos : physicalPosition sym w = hq2K.getD w 0 := if_pos heven
    rw [← hindex, symbolBits_getElem? hcells hw he (hpos ▸ hc)]
  · have hpos : physicalPosition sym w = q := by rw [physicalPosition, if_neg (by omega), hq2K_idxOf_eq hq]
    rw [← hindex, symbolBits_getElem? hcells hw he (hpos ▸ hc)]

/-- The cell with given bits. -/
def Cell.ofBits (f : Nat → Bool) : Cell := ⟨f 0, f 1, f 2, f 3⟩

theorem Cell.ofBits_bit (f : Nat → Bool) : ∀ e < 4, (Cell.ofBits f).bit e = f e := by
  intro e he
  interval_cases e <;> rfl

theorem Cell.eq_ofBits {c : Cell} {f : Nat → Bool} (h : ∀ e < 4, c.bit e = f e) : c = .ofBits f := by
  obtain ⟨y0, y1, y2, y3⟩ := c
  exact congr (congr (congr (congrArg Cell.mk (h 0 (by omega))) (h 1 (by omega))) (h 2 (by omega))) (h 3 (by omega))

/-- The cells that a symbol's output bits come from: the cell at physical position `p`, whose logical position the
permutation of the other parity gives, from its four output bits. -/
def cellsOfBits (sym : Nat) (x : List Bool) : List Cell :=
  (List.range 1512).map fun p => .ofBits fun e => x.getD (bitIndex e (physicalPosition (sym + 1) p)) false

theorem cellsOfBits_length (sym : Nat) (x : List Bool) : (cellsOfBits sym x).length = 1512 := by
  rw [cellsOfBits, List.length_map, List.length_range]

theorem cellsOfBits_getElem? (sym : Nat) (x : List Bool) {p : Nat} (hp : p < 1512) : (cellsOfBits sym x)[p]? =
    some (.ofBits fun e => x.getD (bitIndex e (physicalPosition (sym + 1) p)) false) := by
  rw [cellsOfBits, List.getElem?_map, List.getElem?_range hp, Option.map_some]

theorem symbolBits_cellsOfBits (sym : Nat) {x : List Bool} (hx : x.length = 6048) :
    symbolBits theParams (cellsOfBits sym x) sym = x := by
  refine List.ext_getElem? fun k => ?_
  by_cases hk : k < 6048
  · obtain ⟨w, hw, e, he, rfl⟩ := exists_bitIndex_eq hk
    rw [symbolBits_getElem? (cellsOfBits_length sym x) hw he
        (cellsOfBits_getElem? sym x (physicalPosition_lt sym hw)),
      Cell.ofBits_bit _ e he, physicalPosition_succ_physicalPosition sym hw, List.getD_eq_getElem _ _ (hx ▸ hk),
      List.getElem?_eq_getElem]
  · rw [List.getElem?_eq_none (by rw [symbolBits_length]; omega), List.getElem?_eq_none (by omega)]

theorem cellsOfBits_symbolBits (sym : Nat) {cells : List Cell} (hcells : cells.length = 1512) :
    cellsOfBits sym (symbolBits theParams cells sym) = cells := by
  refine List.ext_getElem (by rw [cellsOfBits_length, hcells]) fun p hp hp' => ?_
  have hp : p < 1512 := hcells ▸ hp'
  have hcell : cells[physicalPosition sym (physicalPosition (sym + 1) p)]? = some cells[p] := by
    rw [physicalPosition_physicalPosition_succ sym hp, List.getElem?_eq_getElem]
  refine Option.some.inj ?_
  rw [← List.getElem?_eq_getElem, cellsOfBits_getElem? sym _ hp]
  refine congrArg some (Cell.eq_ofBits fun e he => ?_).symm
  rw [List.getD_eq_getElem?_getD, symbolBits_getElem? hcells (physicalPosition_lt (sym + 1) hp) he hcell,
    Option.getD_some]

/-- Settles O43: `cellsOfBits` is the inverse map. -/
theorem deinterleaverIsBijective : Obligations.DeinterleaverIsBijective := fun sym x hx =>
  ⟨cellsOfBits sym x, ⟨cellsOfBits_length sym x, symbolBits_cellsOfBits sym hx⟩, fun _ hcells hbits =>
    hbits ▸ (cellsOfBits_symbolBits sym hcells).symm⟩

end Sys2Proof.Machine
end
section
/-! The demapper's regions (20_memory R80, 44_demux R240) and the magnitude test over the reals (44_demux R237). -/

namespace Sys2Proof.Machine

/-- The two bits of an axis value by the thresholds, where NUM's 0.66 is positive (44_demux R240). -/
theorem demap16Bits_axisRegion {A : NumParam} (hpos : 0 < nlit A (66 / 100)) (v : Scalar) :
    demap16Bits (axisRegion A v) =
      (decide (v ≤ 0), decide (-nlit A (66 / 100) < v ∧ v ≤ nlit A (66 / 100))) := by
  generalize hT : nlit A (66 / 100) = T at hpos
  rw [axisRegion, hT]
  split_ifs with houter hinner hnegative
  · have hsign : ¬ v ≤ 0 := by linarith
    simp [demap16Bits, hsign, houter]
  · have hlow : -T < v := by linarith
    simp [demap16Bits, hinner, hlow, not_lt.mp houter]
  · simp [demap16Bits, hnegative, not_lt.mp houter, not_lt.mp hinner]
  · simp [demap16Bits, hnegative, not_lt.mp hinner]

/-- Settles O44: the regions axis by axis. -/
theorem demapperRegions : Obligations.DemapperRegions := by
  refine ⟨fun A e hpos => ?_, fun A hexact => hexact _ _⟩
  intro T c
  have hre := demap16Bits_axisRegion hpos e.re
  have him := demap16Bits_axisRegion hpos e.im
  exact ⟨congrArg Prod.fst hre, congrArg Prod.snd hre, congrArg Prod.fst him, congrArg Prod.snd him⟩

/-- The deviation over the reals (44_demux R237, R238). -/
theorem deviation_exact {P : Params} (hexact : ∀ φ x, P.num.rnd φ x = x) (e : Cplx) (nominal : Rat) :
    deviation P e nominal = nsqrt P.num (e.re ^ 2 + e.im ^ 2) - nominal := by
  rw [deviation, hexact, cabs, normSq]

end Sys2Proof.Machine
end

section
/-! DEMUX in order (44_demux R230 to R250, 45_viterbi R295): the configuration check, the quality account, and with
OUT_VALID the bytes out and the decoder's run. -/

namespace Sys2Proof.Machine

/-! ## The depuncture feeder's cut (45_viterbi R295) -/

theorem cutHalf_whole (n : Nat) : ∀ z : List Bool, z.length = 2 * n →
    (cutHalf z).1.length = n ∧ (cutHalf z).2 = [] := by
  induction n with
  | zero =>
    intro z hz
    rw [List.eq_nil_of_length_eq_zero hz]
    exact ⟨rfl, rfl⟩
  | succ n ih =>
    intro z hz
    match z, hz with
    | x1 :: y1 :: rest, hz =>
      obtain ⟨hsteps, hleft⟩ := ih rest (by simp only [List.length_cons] at hz; omega)
      exact ⟨congrArg (· + 1) hsteps, hleft⟩

theorem cutTwoThirds_whole (n : Nat) : ∀ z : List Bool, z.length = 3 * n →
    (cutTwoThirds z).1.length = 2 * n ∧ (cutTwoThirds z).2 = [] := by
  induction n with
  | zero =>
    intro z hz
    rw [List.eq_nil_of_length_eq_zero hz]
    exact ⟨rfl, rfl⟩
  | succ n ih =>
    intro z hz
    match z, hz with
    | x1 :: y1 :: y2 :: rest, hz =>
      obtain ⟨hsteps, hleft⟩ := ih rest (by simp only [List.length_cons] at hz; omega)
      exact ⟨congrArg (· + 2) hsteps, hleft⟩

/-- A symbol's bits are whole periods at both rates: 3024 of 2 bits, 2016 of 3. -/
theorem cutBits_symbol (rate : BitVec 3) {x : List Bool} (hx : x.length = 6048) :
    (cutBits rate x).1.length = (if rate = 0 then 3024 else 4032) ∧ (cutBits rate x).2 = [] := by
  unfold cutBits
  split
  · exact cutHalf_whole 3024 x hx
  · exact cutTwoThirds_whole 2016 x hx

/-! ## Ports -/

/-- Diagnostics are on no other port. -/
theorem ports_of_diags {s t : State} {items : List OutItem} (hout : t.out = s.out ++ items)
    (hdiags : ∀ it ∈ items, ∃ c a, it = .diag c a) :
    t.respPort = s.respPort ∧ t.dmxPort = s.dmxPort ∧ t.vitPort = s.vitPort ∧ t.tpsPort = s.tpsPort := by
  refine ⟨?_, State.dmxPort_of_append hout fun b hb => (nomatch hdiags _ hb),
    State.vitPort_of_append hout fun v hv => (nomatch hdiags _ hv),
    State.tpsPort_of_append hout fun w hw => (nomatch hdiags _ hw)⟩
  rw [State.respPort_append hout, List.append_right_eq_self, State.respPort, List.filterMap_eq_nil_iff]
  intro it hit
  obtain ⟨c, a, rfl⟩ := hdiags it hit
  rfl

/-- A response after diagnostics alone. -/
theorem answersOnly_respond_of_diags {s t : State} {items : List OutItem} (hout : t.out = s.out ++ items)
    (hdiags : ∀ it ∈ items, ∃ c a, it = .diag c a) (code : Status) : AnswersOnly s (t.respond code 0) code 0 := by
  obtain ⟨hresp, hdmx, hvit, htps⟩ := ports_of_diags hout hdiags
  rw [AnswersOnly, State.respond_respPort, State.respond_dmxPort, State.respond_vitPort, State.respond_tpsPort]
  exact ⟨congrArg (· ++ [(code, 0)]) hresp, hdmx, hvit, htps⟩

/-- The symbol's bytes go out on DMX_OUT, the items of the decoder's run on VIT_OUT (44_demux R250). -/
theorem emitAndFeed_ports (P : Params) (x : List Bool) (s : State) :
    (s.emitAndFeed P x).dmxPort = s.dmxPort ++ packBits x ∧
      (s.emitAndFeed P x).vitPort = s.vitPort ++ (feedRun P (cutBits s.cfg.rate (s.dmx.feedBuf ++ x)).1 s.vit).items ∧
      (s.emitAndFeed P x).tpsPort = s.tpsPort := by
  rw [State.emitAndFeed_eq]
  simp [State.dmxPort, State.vitPort, State.tpsPort, List.filterMap_map]

/-! ## The command -/

/-- The supported configurations (44_demux R232). -/
theorem configCheck_eq_none_iff (c : CfgRegs) :
    configCheck c = none ↔ c.const = 1 ∧ c.hier = 0 ∧ (c.rate = 0 ∨ c.rate = 1) := by
  unfold configCheck
  split_ifs with hconst hhier hrate
  · exact ⟨nofun, fun h => absurd h.1 hconst⟩
  · exact ⟨nofun, fun ⟨_, h, _⟩ => absurd h hhier⟩
  · exact ⟨nofun, fun ⟨_, _, h⟩ => (not_or.mpr hrate h).elim⟩
  · exact iff_of_true rfl ⟨not_not.mp hconst, not_not.mp hhier, by tauto⟩

/-- The state once DEMUX has consumed block `b` (44_demux R231). -/
def State.consumed (s : State) (b : Nat) : State := { s with blk := { s.blk with dmxId := some b } }

@[simp] theorem State.consumed_tps (s : State) (b : Nat) : (s.consumed b).tps = s.tps := rfl

/-- The state once DEMUX has consumed block `b` and accounted for its `k` anomalies, with the diagnostics `diags`
(44_demux R231, R248). -/
def State.accounted (s : State) (b k : Nat) (diags : List OutItem) : State := { s with
  blk := { s.blk with dmxId := some b }
  dmx := { s.dmx with anomalyLast := k }
  cnt := { s.cnt with
    anomalyTotal := satAdd s.cnt.anomalyTotal k
    qualityWarn := satAdd s.cnt.qualityWarn (if 10 < k then 1 else 0) }
  out := s.out ++ diags }

theorem qualityAccount_consumed (s : State) (b k : Nat) : ∃ diags, (∀ it ∈ diags, ∃ c a, it = OutItem.diag c a) ∧
    (s.consumed b).qualityAccount theParams k = s.accounted b k diags :=
  State.qualityAccount_eq theParams (s.consumed b) k

/-- What the output of the bits `x` adds to the account (44_demux R250, 45_viterbi R295). -/
theorem emitAndFeed_accounted (s : State) (b k : Nat) (diags : List OutItem) (x : List Bool) :
    let cut := cutBits s.cfg.rate (s.dmx.feedBuf ++ x)
    let run := feedRun theParams cut.1 s.vit
    (s.accounted b k diags).emitAndFeed theParams x = { s with
      blk := { s.blk with dmxId := some b }
      dmx := { anomalyLast := k, feedBuf := cut.2 }
      vit := run.vit
      cnt := { s.cnt with
        anomalyTotal := satAdd s.cnt.anomalyTotal k
        qualityWarn := satAdd s.cnt.qualityWarn (if 10 < k then 1 else 0)
        dmxOut := satAdd s.cnt.dmxOut 1
        vitBits := satAdd s.cnt.vitBits run.bits }
      out := s.out ++ diags ++ (packBits x).map .dmx ++ run.items.map .vit } :=
  State.emitAndFeed_eq theParams x (s.accounted b k diags)

section InOrder

variable {s : State} {b : Nat} (hhalted : s.est.halted = false) (hfd : s.blk.fdId = some b)
  (heq : s.blk.eqId = some b) (htps : s.blk.tpsId = some b) (hdmx : s.blk.dmxId ≠ some b)
include hhalted hfd heq htps hdmx

/-- DEMUX in order ends as its run does (46_control R330). -/
theorem exec_demux_of_ready : exec .demux s = .next (respondStage (demuxRun theParams s)) := by
  have hready : demuxReady s.blk = true := by simp [demuxReady, hfd, heq, htps, hdmx]
  rw [exec, execDemux, demuxBody, hhalted, hready]
  rfl

theorem exec_demux_of_configError {arg : Nat} (hcfg : configCheck s.cfg = some arg) : exec .demux s =
    .next ((((s.consumed b).count .configErr 1).diag 0x06 arg).respond .configError 0) := by
  rw [exec_demux_of_ready hhalted hfd heq htps hdmx, demuxRun, hcfg, hfd]
  rfl

/-- With a supported configuration the walk misses no pilot and has the right number of cells (44_demux R230). -/
theorem exec_demux_of_supported (hcfg : configCheck s.cfg = none) :
    let an := anomalyCount theParams s.blk.eqb s.tps.idxSym.val
    let x := symbolBits theParams (dataCells theParams s.blk.eqb s.tps.idxSym.val) s.tps.idxSym.val
    ∃ diags, (∀ it ∈ diags, ∃ c a, it = OutItem.diag c a) ∧ exec .demux s = .next (State.respond
      (if s.tps.outValid then (s.accounted b an diags).emitAndFeed theParams x else s.accounted b an diags) .ok 0) := by
  intro an x
  obtain ⟨diags, hdiags, haccount⟩ := qualityAccount_consumed s b an
  have hrun : demuxRun theParams s =
      demuxWalked theParams (walk theParams s.blk.eqb s.tps.idxSym.val) (s.consumed b) := by
    rw [demuxRun, hcfg, hfd]
    rfl
  refine ⟨diags, hdiags, ?_⟩
  rw [exec_demux_of_ready hhalted hfd heq htps hdmx, hrun,
    demuxWalked_eq theParams _ _ (walk_missed _ _) (walk_cells_length _ _), walk_eq, State.consumed_tps, haccount,
    respondStage]

end InOrder

/-- Settles O40: the failed check ends the command after the block is consumed. -/
theorem unsupportedConfigurationConsumesTheBlock : Obligations.UnsupportedConfigurationConsumesTheBlock := by
  intro s b hhalted hfd heq htps hdmx hbad
  have hfails : configCheck s.cfg ≠ none := by
    rw [Ne, configCheck_eq_none_iff]
    rintro ⟨hconst, hhier, hrate⟩
    rcases hbad with h | h | h
    · exact h hconst
    · exact h hhier
    · exact not_or.mpr h hrate
  obtain ⟨arg, harg⟩ := Option.ne_none_iff_exists'.mp hfails
  exact ⟨_, exec_demux_of_configError hhalted hfd heq htps hdmx harg,
    answersOnly_respond_of_diags rfl (by simp) _, rfl⟩

/-- Settles O38: without OUT_VALID the command ends after the quality account. -/
theorem demuxBeforeOutputValidEmitsNothing : Obligations.DemuxBeforeOutputValidEmitsNothing := by
  refine ⟨fun s b hhalted hfd heq htps hdmx hconst hhier hrate hvalid => ?_, fun P e nominal hexact =>
    deviation_exact hexact e nominal⟩
  obtain ⟨diags, hdiags, hexec⟩ := exec_demux_of_supported hhalted hfd heq htps hdmx
    ((configCheck_eq_none_iff _).mpr ⟨hconst, hhier, hrate⟩)
  rw [hvalid, if_neg Bool.false_ne_true] at hexec
  exact ⟨_, hexec, answersOnly_respond_of_diags rfl hdiags _, rfl⟩

/-- Settles O39: with OUT_VALID the account is followed by the symbol's bytes and the decoder's run. -/
theorem demuxEmitsAndFeedsTheDecoder : Obligations.DemuxEmitsAndFeedsTheDecoder := by
  refine ⟨fun s b hhalted hfd heq htps hdmx hconst hhier hrate hvalid => ?_, fun P e nominal hexact =>
    deviation_exact hexact e nominal⟩
  intro an x cut run
  obtain ⟨diags, hdiags, hrun⟩ := exec_demux_of_supported hhalted hfd heq htps hdmx
    ((configCheck_eq_none_iff _).mpr ⟨hconst, hhier, hrate⟩)
  have hexec : exec .demux s = .next (((s.accounted b an diags).emitAndFeed theParams x).respond .ok 0) := by
    rw [hrun, hvalid, if_pos rfl]
  have hx : x.length = 6048 :=
    symbolBits_length (dataCells theParams s.blk.eqb s.tps.idxSym.val) s.tps.idxSym.val
  -- what follows holds of any bits and any number of anomalies
  clear_value x an
  have hbytes : (packBits x).length = 756 := packBits_length 756 x hx
  have hcut : s.dmx.feedBuf = [] → cut.1.length = (if s.cfg.rate = 0 then 3024 else 4032) ∧ cut.2 = [] :=
    fun hempty => cutBits_symbol s.cfg.rate (by rw [hempty]; exact hx)
  obtain ⟨hresp, hdmxPort, hvitPort, htpsPort⟩ := ports_of_diags (t := s.accounted b an diags) rfl hdiags
  obtain ⟨hdmxFed, hvitFed, htpsFed⟩ := emitAndFeed_ports theParams x (s.accounted b an diags)
  have hrespFed := (emitAndFeed_frame theParams x (s.accounted b an diags)).respPort
  have hfed := emitAndFeed_accounted s b an diags x
  rw [hdmxPort] at hdmxFed
  rw [hvitPort] at hvitFed
  generalize (s.accounted b an diags).emitAndFeed theParams x = fed at hexec hdmxFed hvitFed htpsFed hrespFed hfed
  refine ⟨fed.respond .ok 0, hexec, ?_, hx, ?_, hbytes, ?_, ?_, ?_, ?_, hcut, ?_⟩
  · rw [State.respond_respPort, hrespFed, hresp]
  · rw [State.respond_dmxPort, hdmxFed]
  · rw [State.respond_tpsPort, htpsFed, htpsPort]
  · rw [State.respond_vitPort]
    exact hvitFed
  · exact congrArg State.vit hfed
  · exact congrArg State.dmx hfed
  · rw [hfed]
    rfl

end Sys2Proof.Machine
end

section
/-! The depuncture feeder (45_viterbi R295): a bit sequence is cut into whole periods, two bits at rate 1/2, three at
rate 2/3. -/

namespace Sys2Proof.Machine

/-- Rate 1/2: every step is a full one and takes two bits. -/
theorem cutHalf_spec (z : List Bool) :
    ((cutHalf z).1.map FeedStep.codeBits).flatten ++ (cutHalf z).2 = z ∧ (cutHalf z).2.length = z.length % 2 ∧
    (∀ f ∈ (cutHalf z).1, f.hasX = true) ∧ (cutHalf z).1.length = z.length / 2 := by
  fun_induction cutHalf z with
  | case1 x1 y1 rest ih =>
    obtain ⟨hbits, hleft, hfull, hsteps⟩ := ih
    refine ⟨?_, ?_, ?_, ?_⟩
    · simp [FeedStep.codeBits, hbits]
    · simp only [List.length_cons, hleft]; omega
    · simpa using hfull
    · simp only [List.length_cons, hsteps]; omega
  | case2 rest hshort =>
    have hlen : rest.length < 2 := by
      have hleft := cutHalf_leftover rest
      rw [cutHalf.eq_2 rest hshort] at hleft
      exact Nat.lt_succ_of_le hleft
    exact ⟨rfl, (Nat.mod_eq_of_lt hlen).symm, nofun, (Nat.div_eq_of_lt hlen).symm⟩

/-- Rate 2/3: full and punctured steps alternate, the two of a period take three bits. -/
theorem cutTwoThirds_spec (z : List Bool) :
    ((cutTwoThirds z).1.map FeedStep.codeBits).flatten ++ (cutTwoThirds z).2 = z ∧
    (cutTwoThirds z).2.length = z.length % 3 ∧
    (∀ k f, (cutTwoThirds z).1[k]? = some f → f.hasX = (k % 2 == 0)) ∧
    (cutTwoThirds z).1.length = 2 * (z.length / 3) := by
  fun_induction cutTwoThirds z with
  | case1 x1 y1 y2 rest ih =>
    obtain ⟨hbits, hleft, halternate, hsteps⟩ := ih
    refine ⟨?_, ?_, ?_, ?_⟩
    · simp [FeedStep.codeBits, hbits]
    · simp only [List.length_cons, hleft]; omega
    · intro k f hf
      match k with
      | 0 | 1 => obtain rfl := Option.some.inj hf; rfl
      | k + 2 => rw [Nat.add_mod_right]; exact halternate k f hf
    · simp only [List.length_cons, hsteps]; omega
  | case2 rest hshort =>
    have hlen : rest.length < 3 := by
      have hleft := cutTwoThirds_leftover rest
      rw [cutTwoThirds.eq_2 rest hshort] at hleft
      exact Nat.lt_succ_of_le hleft
    refine ⟨rfl, (Nat.mod_eq_of_lt hlen).symm, nofun, ?_⟩
    rw [Nat.div_eq_of_lt hlen]
    rfl

/-- Settles O46, by the periods of each rate. -/
theorem feederCutsWholePeriods : Obligations.FeederCutsWholePeriods := by
  rintro z rate (rfl | rfl)
  · obtain ⟨hbits, hleft, hfull, hsteps⟩ := cutHalf_spec z
    exact ⟨hbits, hleft, fun k f hf => hfull f (List.mem_of_getElem? hf), hsteps⟩
  · obtain ⟨hbits, hleft, halternate, hsteps⟩ := cutTwoThirds_spec z
    exact ⟨hbits, hleft, halternate, hsteps⟩

end Sys2Proof.Machine
end

section
/-! The best state (45_viterbi R281): the search keeps the least number of a minimal metric among those seen. -/

namespace Sys2Proof.Machine

/-- Among the first `n` metrics, that of state `best` is the least, and every state before it has a greater one. -/
def LeastAmong (vpm : List Nat) (n best : Nat) : Prop :=
  ∃ m, vpm[best]? = some m ∧ (∀ k x, k < n → vpm[k]? = some x → m ≤ x) ∧
    ∀ k x, k < best → vpm[k]? = some x → m < x

/-- The search from place `i` on ends in the best of all states. -/
theorem argminFrom_leastAmong (vpm : List Nat) : ∀ (xs : List Nat) (best low i : Nat), vpm.drop i = xs →
    vpm[best]? = some low → best < i → LeastAmong vpm i best →
    LeastAmong vpm vpm.length (argminFrom best low i xs) := by
  intro xs
  induction xs with
  | nil =>
    intro best low i hdrop _ _ ⟨m, hm, hleast, hbefore⟩
    exact ⟨m, hm, fun k x hk => hleast k x (hk.trans_le (List.drop_eq_nil_iff.mp hdrop)), hbefore⟩
  | cons x xs ih =>
    intro best low i hdrop hlow hi ⟨m, hm, hleast, hbefore⟩
    obtain rfl : low = m := Option.some.inj (hlow.symm.trans hm)
    have hx : vpm[i]? = some x := by rw [← List.head?_drop, hdrop, List.head?_cons]
    have hnext : vpm.drop (i + 1) = xs := by rw [← List.tail_drop, hdrop, List.tail_cons]
    simp only [argminFrom]
    split
    · rename_i hlt
      have hnew : ∀ k y, k < i → vpm[k]? = some y → x < y := fun k y hk hy => hlt.trans_le (hleast k y hk hy)
      refine ih i x (i + 1) hnext hx (Nat.lt_succ_self i) ⟨x, hx, fun k y hk hy => ?_, hnew⟩
      rcases Nat.lt_succ_iff_lt_or_eq.mp hk with hki | rfl
      · exact (hnew k y hki hy).le
      · exact (Option.some.inj (hx.symm.trans hy)).le
    · rename_i hge
      refine ih best low (i + 1) hnext hlow (by omega) ⟨low, hlow, fun k y hk hy => ?_, hbefore⟩
      rcases Nat.lt_succ_iff_lt_or_eq.mp hk with hki | rfl
      · exact hleast k y hki hy
      · exact (Nat.not_lt.mp hge).trans (Option.some.inj (hx.symm.trans hy)).le

theorem bestState_leastAmong {vpm : List Nat} (h : vpm ≠ []) : LeastAmong vpm vpm.length (bestState vpm) := by
  match vpm, h with
  | x :: xs, _ =>
    refine argminFrom_leastAmong _ xs 0 x 1 rfl rfl Nat.one_pos ⟨x, rfl, fun k y hk hy => ?_, nofun⟩
    obtain rfl : k = 0 := by omega
    exact (Option.some.inj hy).le

/-- Settles O49, by the search's invariant. -/
theorem bestStateIsLeast : Obligations.BestStateIsLeast := by
  intro vpm h
  obtain ⟨m, hm, hleast, hbefore⟩ := bestState_leastAmong h
  exact ⟨m, hm, fun k x hx => hleast k x (List.getElem?_eq_some_iff.mp hx).1 hx, hbefore⟩

/-- The best state is one of the 64. -/
theorem bestState_toNat {vpm : List Nat} (h : vpm.length = 64) :
    (BitVec.ofNat 6 (bestState vpm)).toNat = bestState vpm := by
  obtain ⟨m, hm, -, -⟩ := bestState_leastAmong (vpm := vpm) (by rintro rfl; cases h)
  have hlt := (List.getElem?_eq_some_iff.mp hm).1
  exact Nat.mod_eq_of_lt (hlt.trans_eq h)

end Sys2Proof.Machine
end

section
/-! VCONS, VCONS.P and VFLUSH (45_viterbi R270 to R274, R277, R290): the step's survivors, the window that a step
fills, and what a flush decides and emits. -/

namespace Sys2Proof.Machine

/-! ## Trellis tables (20_memory R83) -/

theorem predState_toNat (sp : BitVec 6) (b : Bool) : (predState sp b).toNat = 2 * sp.toNat % 64 + b.toNat := by
  revert sp b
  decide

/-- The parity of a word is that of the number of its ones (00_scope R8). -/
theorem parity7_eq_odd_ones (v : BitVec 7) :
    parity7 v = decide (((List.range 7).filter fun k => v.getLsbD k).length % 2 = 1) := by
  revert v
  decide

/-- The word {u, p} as a number. -/
theorem ofBool_append_eq (u : Bool) (p : BitVec 6) :
    (BitVec.ofBool u ++ p : BitVec 7) = BitVec.ofNat 7 (64 * u.toNat + p.toNat) := by
  revert u p
  decide

theorem codeBit_eq_odd_ones (g : BitVec 7) (u : Bool) (p : BitVec 6) : codeBit g u p = decide
    (((List.range 7).filter fun k => (BitVec.ofNat 7 (64 * u.toNat + p.toNat) &&& g).getLsbD k).length % 2 = 1) := by
  rw [codeBit, parity7_eq_odd_ones, ofBool_append_eq]

/-! ## The trellis step (45_viterbi R272 to R274) -/

theorem candidate_eq (P : Params) (hasX x y : Bool) (vpm : List Nat) (sp : BitVec 6) (b : Bool) :
    candidate P hasX x y vpm sp b = vpm.getD (predState sp b).toNat 0 +
      ((if hasX && (expectedX P sp b != x) then 1 else 0) + (if expectedY P sp b != y then 1 else 0)) := by
  have hbit (e r : Bool) : (e ^^ r).toNat = if e != r then 1 else 0 := by cases e <;> cases r <;> rfl
  rw [candidate, branchMetric, hbit, hbit]
  cases hasX <;> rfl

/-- The predecessor with b = 0 survives unless the other is strictly better (45_viterbi R274). -/
theorem survivor_eq (P : Params) (hasX x y : Bool) (vpm : List Nat) (sp : BitVec 6) :
    let m := candidate P hasX x y vpm sp
    survivor P hasX x y vpm sp =
      ⟨min (m false) (m true), predState sp (decide (m true < m false)), sp.getLsbD 5⟩ := by
  intro m
  rw [← survivor_pm P hasX x y vpm sp]
  simp only [survivor, inputBit, m, ← decide_not, not_le]

/-- VCONS and VCONS.P are a trellis step and a response (45_viterbi R270, R271). -/
theorem exec_step (hasX x y : Bool) (s : State) : exec (if hasX then .vcons x y else .vconsP y) s =
    .next ((s.trellisStep theParams hasX x y).respond .ok 0) := by
  cases hasX <;> rfl

theorem vitStep_of_room {P : Params} {hasX x y : Bool} {v : VitState}
    (h : v.vcount + 1 ≠ P.decisionLen + P.outputBits) : vitStep P hasX x y v = ⟨acsStep P hasX x y v, [], 0⟩ :=
  if_neg h

theorem vitStep_of_full {P : Params} {hasX x y : Bool} {v : VitState}
    (h : v.vcount + 1 = P.decisionLen + P.outputBits) :
    vitStep P hasX x y v = traceback P P.outputBits (acsStep P hasX x y v) :=
  if_pos h

/-- A traceback inside a step leaves what the add-compare-select wrote (45_viterbi R272). -/
theorem vitStep_acs (P : Params) (hasX x y : Bool) (v : VitState) :
    (vitStep P hasX x y v).vit.vpm = (acsStep P hasX x y v).vpm ∧
    (vitStep P hasX x y v).vit.vring = (acsStep P hasX x y v).vring ∧
    (vitStep P hasX x y v).vit.vw = (acsStep P hasX x y v).vw := by
  by_cases h : v.vcount + 1 = P.decisionLen + P.outputBits
  · rw [vitStep_of_full h]; exact ⟨rfl, rfl, rfl⟩
  · rw [vitStep_of_room h]; exact ⟨rfl, rfl, rfl⟩

/-- Settles O47, by the survivors' equation and the two cases of the window. -/
theorem trellisStepSelectsTheBetterBranch : Obligations.TrellisStepSelectsTheBetterBranch := by
  refine ⟨fun s hasX x y => ?_, fun sp b => ?_⟩
  · intro i P m
    have hm (sp : BitVec 6) (b : Bool) : candidate P hasX x y s.vit.vpm sp b = m sp b := candidate_eq ..
    obtain ⟨hvpm, hvring, hvw⟩ := vitStep_acs P hasX x y s.vit
    refine ⟨_, survivors P hasX x y s.vit.vpm, exec_step hasX x y s, ?_⟩
    simp only [State.respond_respPort, State.respond_dmxPort, State.respond_tpsPort, State.respond_vitPort,
      State.respond_vit, State.respond_cnt, State.trellisStep, State.withVit_respPort, State.withVit_dmxPort,
      State.withVit_tpsPort, State.withVit_vitPort, State.withVit_vit, State.withVit_cnt]
    refine ⟨trivial, trivial, trivial, fun k hk => ?_, ?_, survivors_length .., ?_, fun sp => ⟨?_, ?_⟩, hvw,
      fun hroom => ?_, fun hfull => ?_, rfl⟩
    · rw [hvring, acsStep_vring, ringSlot_ringWrite_ne _ _ hk]
    · rw [hvring, acsStep_vring, ringSlot_ringWrite_self]
    · rw [hvpm, acsStep_vpm, List.length_map, survivors_length]
    · rw [hvpm, acsStep_vpm_getElem?, hm, hm]
    · rw [survivors_getElem?, survivor_eq, hm, hm]
    · rw [vitStep_of_room hroom]
      exact ⟨rfl, rfl, rfl, List.append_nil _, by simp [Counters.add]⟩
    · rw [vitStep_of_full hfull]
      obtain ⟨-, hbits, hwhole, -, -⟩ := traceback_spec P P.outputBits (acsStep P hasX x y s.vit)
      refine ⟨?_, rfl, rfl, _, rfl, hwhole, hbits⟩
      show s.vit.vcount + 1 - P.outputBits = P.decisionLen
      omega
  · exact ⟨predState_toNat sp b, codeBit_eq_odd_ones .., codeBit_eq_odd_ones ..⟩

/-! ## VFLUSH (45_viterbi R290) -/

/-- The places of a partial byte below its bits are 0 (30_encoding R113). -/
theorem byteOfBits_below {bits : List Bool} (h : bits.length ≤ 8) {k : Nat} (hk : k < 8 - bits.length) :
    (byteOfBits bits).getLsbD k = false := by
  have hplace := byteOfBits_getLsbD bits (7 - k) h (by omega)
  rwa [show 7 - (7 - k) = k by omega, List.getD_eq_getElem?_getD, List.getElem?_eq_none (by omega)] at hplace

/-- The item of a partial byte, if there is one. -/
def partialItem (vob : List Bool) : List VitItem :=
  if vob.length = 0 then [] else [⟨byteOfBits vob, vob.length⟩]

theorem partialItem_bits {vob : List Bool} (h : vob.length < 8) :
    ((partialItem vob).map VitItem.bits).flatten = vob := by
  unfold partialItem
  split
  · rename_i hempty
    exact (List.eq_nil_of_length_eq_zero hempty).symm
  · simp [bits_of_packed vob h.le]

/-- An item of VIT_OUT carries 1 to 8 bits, with zeros below them (30_encoding R113). -/
def VitItem.Padded (it : VitItem) : Prop :=
  (1 ≤ it.nbits ∧ it.nbits ≤ 8) ∧ ∀ k, k < 8 - it.nbits → it.byte.getLsbD k = false

theorem VitItem.Padded.of_whole {it : VitItem} (h : it.nbits = 8) : it.Padded := by
  refine ⟨by omega, fun k hk => ?_⟩
  rw [h] at hk
  exact absurd hk (Nat.not_lt_zero k)

/-- There is at most one partial byte. -/
theorem partialItem_cases {vob : List Bool} (h : vob.length < 8) :
    partialItem vob = [] ∨ ∃ it, partialItem vob = [it] ∧ it.Padded := by
  unfold partialItem
  split
  · exact .inl rfl
  · rename_i hne
    exact .inr ⟨_, rfl, ⟨Nat.pos_of_ne_zero hne, h.le⟩, fun k hk => byteOfBits_below h.le hk⟩

/-- Every pending step decided: the whole bytes of the bits go out, the others stay. -/
theorem pendingDecided_spec (P : Params) (v : VitState) :
    (pendingDecided P v).vit = { v with
      vbest := if v.vcount = 0 then v.vbest else v.vpm.getD (bestState v.vpm) 0
      vcount := 0
      vob := (pendingDecided P v).vit.vob } ∧
    ((pendingDecided P v).items.map VitItem.bits).flatten ++ (pendingDecided P v).vit.vob =
      v.vob ++ decidedBits P v ∧
    (∀ it ∈ (pendingDecided P v).items, it.nbits = 8) ∧
    (v.vob.length < 8 → (pendingDecided P v).vit.vob.length < 8) ∧ (pendingDecided P v).bits = v.vcount := by
  unfold pendingDecided
  split
  · rename_i hpending
    obtain ⟨hvit, hbits, hwhole, hpartial, hcount⟩ := traceback_spec P v.vcount v
    rw [List.take_of_length_le (decidedBits_length P v).le] at hbits
    rw [Nat.sub_self] at hvit
    rw [if_neg hpending.ne']
    exact ⟨hvit, hbits, hwhole, hpartial, hcount⟩
  · rename_i hnone
    have hzero : v.vcount = 0 := Nat.eq_zero_of_not_pos hnone
    have hnil : decidedBits P v = [] := List.eq_nil_of_length_eq_zero ((decidedBits_length P v).trans hzero)
    rw [if_pos hzero, hnil]
    refine ⟨?_, (List.append_nil _).symm, nofun, id, hzero.symm⟩
    rw [← hzero]

/-- VFLUSH decides every pending step, then emits the partial byte. -/
theorem vitFlush_eq (P : Params) (v : VitState) : vitFlush P v =
    ⟨{ (pendingDecided P v).vit with vob := [] },
      (pendingDecided P v).items ++ partialItem (pendingDecided P v).vit.vob, (pendingDecided P v).bits⟩ := by
  change (if (pendingDecided P v).vit.vob.length = 0 then pendingDecided P v else _) = _
  unfold partialItem
  split
  · rename_i hempty
    rw [List.append_nil, ← List.eq_nil_of_length_eq_zero hempty]
  · rfl

/-- The items of a flush carry the bits that were pending and the decided ones. -/
theorem vitFlush_bits (P : Params) {v : VitState} (h : v.vob.length < 8) :
    ((vitFlush P v).items.map VitItem.bits).flatten = v.vob ++ decidedBits P v := by
  obtain ⟨-, hbits, -, hpartial, -⟩ := pendingDecided_spec P v
  rw [vitFlush_eq, List.map_append, List.flatten_append, partialItem_bits (hpartial h), hbits]

/-- The items of a flush are whole bytes but for the last, which may be partial. -/
theorem vitFlush_items (P : Params) {v : VitState} (h : v.vob.length < 8) :
    (∀ it ∈ (vitFlush P v).items.dropLast, it.nbits = 8) ∧ ∀ it ∈ (vitFlush P v).items, it.Padded := by
  obtain ⟨-, -, hwhole, hpartial, -⟩ := pendingDecided_spec P v
  rw [vitFlush_eq]
  rcases partialItem_cases (hpartial h) with hnone | ⟨last, hlast, hpadded⟩
  · rw [hnone, List.append_nil]
    exact ⟨fun it hit => hwhole it (List.mem_of_mem_dropLast hit), fun it hit => .of_whole (hwhole it hit)⟩
  · rw [hlast, List.dropLast_concat]
    refine ⟨hwhole, fun it hit => ?_⟩
    rcases List.mem_append.mp hit with hit | hit
    · exact .of_whole (hwhole it hit)
    · rwa [List.mem_singleton.mp hit]

/-- Settles O48: whole bytes, then the partial one. -/
theorem vflushEmitsEverythingPending : Obligations.VflushEmitsEverythingPending := by
  intro s h
  obtain ⟨hvit, -, -, -, hcount⟩ := pendingDecided_spec theParams s.vit
  obtain ⟨hwhole, hpadded⟩ := vitFlush_items theParams h
  have hflushed : (vitFlush theParams s.vit).vit = { s.vit with
      vcount := 0, vob := []
      vbest := if s.vit.vcount = 0 then s.vit.vbest else s.vit.vpm.getD (bestState s.vit.vpm) 0 } := by
    rw [vitFlush_eq, hvit]
  have hdecided : (vitFlush theParams s.vit).bits = s.vit.vcount := by rw [vitFlush_eq, hcount]
  refine ⟨_, (vitFlush theParams s.vit).items, rfl, ?_, ?_, ?_, ?_, vitFlush_bits _ h, ?_, ?_, ?_, ?_, ?_⟩
  · rw [State.respond_respPort, State.withVit_respPort]
  · rw [State.respond_dmxPort, State.withVit_dmxPort]
  · rw [State.respond_tpsPort, State.withVit_tpsPort]
  · rw [State.respond_vitPort, State.withVit_vitPort]
  · exact hwhole
  · exact fun it hit => (hpadded it hit).1
  · exact fun it hit => (hpadded it hit).2
  · rw [State.respond_cnt, State.withVit_cnt, hdecided]
    rfl
  · rw [← hflushed]
    rfl

end Sys2Proof.Machine
end

section
/-! Trellis paths (45_viterbi R272 to R275, R280, R283, R292): a metric is the least distance over the paths into its
state, and a walk over the records gives the last inputs of a path of that distance. -/

namespace Sys2Proof.Machine

/-! ## Path metrics (45_viterbi R272, R273) -/

theorem afterSteps_concat (P : Params) (v : VitState) (fs : List FeedStep) (f : FeedStep) :
    afterSteps P v (fs ++ [f]) = acsStep P f.hasX f.x f.y (afterSteps P v fs) :=
  List.foldl_concat ..

/-- The path into `s` by `b` in the newest step adds that step's branch metric. -/
theorem pathCost_concat (P : Params) (fs : List FeedStep) (f : FeedStep) (s : BitVec 6) (b : Bool) (bs : List Bool) :
    pathCost P (fs ++ [f]).reverse s (b :: bs) =
      branchMetric P f.hasX f.x f.y s b + pathCost P fs.reverse (predState s b) bs := by
  rw [List.reverse_concat, pathCost]

@[simp] theorem pathInputs_length (choices : List Bool) : ∀ s : BitVec 6,
    (pathInputs s choices).length = choices.length := by
  induction choices with
  | nil => exact fun _ => rfl
  | cons b bs ih => intro s; rw [pathInputs, List.length_append, ih]; rfl

/-- A candidate adds the branch metric to the metric of the predecessor. -/
theorem candidate_of_getElem? {P : Params} {hasX x y : Bool} {vpm : List Nat} {s : BitVec 6} {b : Bool} {m : Nat}
    (h : vpm[(predState s b).toNat]? = some m) : candidate P hasX x y vpm s b = m + branchMetric P hasX x y s b := by
  rw [candidate, List.getD_eq_getElem?_getD, h, Option.getD_some]

/-- The metric of every state is the least distance over the paths of the steps `fs` into it. -/
def LeastDistances (P : Params) (vpm : List Nat) (fs : List FeedStep) : Prop :=
  ∀ s : BitVec 6, ∃ m, vpm[s.toNat]? = some m ∧ m ≤ 2 * fs.length ∧
    (∀ choices : List Bool, choices.length = fs.length → m ≤ pathCost P fs.reverse s choices) ∧
    ∃ choices : List Bool, choices.length = fs.length ∧ m = pathCost P fs.reverse s choices

theorem resetMetric_getElem? {vpm : List Nat} (h : vpm = List.replicate 64 0) (s : BitVec 6) :
    vpm[s.toNat]? = some 0 := by
  rw [h, List.getElem?_replicate, if_pos s.isLt]

theorem leastDistances_reset {P : Params} {vpm : List Nat} (h : vpm = List.replicate 64 0) :
    LeastDistances P vpm [] :=
  fun s => ⟨0, resetMetric_getElem? h s, Nat.zero_le _, fun _ _ => Nat.zero_le _, [], rfl, rfl⟩

/-- A step keeps them least: a path into `s` goes through one of its two predecessors. -/
theorem LeastDistances.acsStep {P : Params} {v : VitState} {fs : List FeedStep} (h : LeastDistances P v.vpm fs)
    (f : FeedStep) : LeastDistances P (acsStep P f.hasX f.x f.y v).vpm (fs ++ [f]) := by
  intro s
  choose m hm hbound hleast hpath using fun b => h (predState s b)
  have hcand (b : Bool) := candidate_of_getElem? (P := P) (hasX := f.hasX) (x := f.x) (y := f.y) (hm b)
  have hmin (b : Bool) : min (candidate P f.hasX f.x f.y v.vpm s false) (candidate P f.hasX f.x f.y v.vpm s true) ≤
      candidate P f.hasX f.x f.y v.vpm s b := by
    cases b
    · exact min_le_left _ _
    · exact min_le_right _ _
  refine ⟨_, acsStep_vpm_getElem? P f.hasX f.x f.y v s, ?_, fun choices hlen => ?_, ?_⟩
  · have hbranch := branchMetric_le P f.hasX f.x f.y s false
    have hpred := hbound false
    have hnew := (hmin false).trans_eq (hcand false)
    rw [List.length_append, List.length_singleton]
    omega
  · match choices, hlen with
    | [], hlen => simp at hlen
    | b :: bs, hlen =>
      have hrest := hleast b bs (by simpa using hlen)
      have hnew := (hmin b).trans_eq (hcand b)
      rw [pathCost_concat]
      omega
  · obtain ⟨b, -, -, hpm⟩ := survivor_branch P f.hasX f.x f.y v.vpm s
    obtain ⟨bs, hlen, hcost⟩ := hpath b
    refine ⟨b :: bs, by simp [hlen], ?_⟩
    rw [← survivor_pm, hpm, hcand b, pathCost_concat, ← hcost, Nat.add_comm]

/-- Settles O50, by induction on the steps, newest last. -/
theorem pathMetricIsTheLeastDistance : Obligations.PathMetricIsTheLeastDistance := by
  intro P fs v s hreset
  have hleast : LeastDistances P (afterSteps P v fs).vpm fs := by
    induction fs using List.reverseRecOn with
    | nil => exact leastDistances_reset hreset
    | append_singleton fs f ih => rw [afterSteps_concat]; exact ih.acsStep f
  exact hleast s

/-! ## The walk over the records (45_viterbi R280, R283) -/

theorem traceWalk_append (P : Params) (v : VitState) (n : Nat) : ∀ (s : BitVec 6) (newer : List Bool),
    traceWalk P v n s newer = traceWalk P v n s [] ++ newer := by
  induction n with
  | zero => exact fun _ _ => rfl
  | succ n ih =>
    intro s newer
    simp only [traceWalk]
    rw [ih, ih _ [_], List.append_assoc, List.singleton_append]

/-- Two walks read the same records, the second one `k` older ones at its end: the first gives the bits of the second
but the `k` oldest. -/
theorem traceWalk_shift {P : Params} {u v : VitState} (k n : Nat)
    (h : ∀ j < n, ∀ s, ringRead u.vring (undecidedSlot P u j) s = ringRead v.vring (undecidedSlot P v (k + j)) s) :
    ∀ (s : BitVec 6) (newer : List Bool), traceWalk P u n s newer = (traceWalk P v (k + n) s newer).drop k := by
  induction n with
  | zero =>
    intro s newer
    rw [Nat.add_zero, traceWalk_append P v, List.drop_left' (by simp), traceWalk]
  | succ n ih =>
    intro s newer
    rw [← Nat.add_assoc]
    simp only [traceWalk]
    rw [h n (Nat.lt_succ_self n), ih fun j hj => h j (hj.trans (Nat.lt_succ_self n))]

/-- No undecided step is in the slot to be written next, as long as the ring is not full (45_viterbi R283). -/
theorem undecidedSlot_ne_vw {P : Params} {v : VitState} (hvw : v.vw < P.depth) (hcount : v.vcount < P.depth)
    {k : Nat} (hk : k < v.vcount) : undecidedSlot P v k ≠ v.vw := by
  intro hslot
  have hmod : ((v.vw : Int) - v.vcount + k) % P.depth = v.vw := by
    have := Int.emod_nonneg ((v.vw : Int) - v.vcount + k) (b := P.depth) (by omega)
    unfold undecidedSlot at hslot
    omega
  have hdvd : (P.depth : Int) ∣ v.vcount - k := by
    have := (Int.dvd_self_sub_of_emod_eq hmod).neg_right
    rwa [show -((v.vw : Int) - v.vcount + k - v.vw) = v.vcount - k by ring] at this
  have := Int.le_of_dvd (by omega) hdvd
  omega

/-- Between commands the ring is not full (45_viterbi R276). -/
theorem VitInv.room {P : Params} {v : VitState} (h : VitInv P v) : v.vcount < P.depth :=
  h.pending.trans_le (Nat.le_add_right _ _)

/-- After the steps `fs` since reset, the metric of every state is the distance of a path into it, and the walk back
from that state gives the last VCOUNT inputs of that path. -/
structure FollowsPaths (P : Params) (v : VitState) (fs : List FeedStep) : Prop where
  pending : v.vcount ≤ fs.length
  path : ∀ s : BitVec 6, ∃ choices : List Bool, choices.length = fs.length ∧
    v.vpm[s.toNat]? = some (pathCost P fs.reverse s choices) ∧
    traceWalk P v v.vcount s [] = (pathInputs s choices).drop (fs.length - v.vcount)

namespace FollowsPaths

variable {P : Params} {v : VitState} {fs : List FeedStep}

theorem reset (hvpm : v.vpm = List.replicate 64 0) (hcount : v.vcount = 0) : FollowsPaths P v [] where
  pending := hcount.le
  path s := ⟨[], rfl, resetMetric_getElem? hvpm s, by rw [hcount]; rfl⟩

/-- The newest record leads to the survivor's predecessor; the older ones are where they were. -/
theorem acsStep (h : FollowsPaths P v fs) (hvw : v.vw < P.depth) (hcount : v.vcount < P.depth) (f : FeedStep) :
    FollowsPaths P (acsStep P f.hasX f.x f.y v) (fs ++ [f]) where
  pending := by
    rw [acsStep_vcount, List.length_append]
    exact Nat.succ_le_succ h.pending
  path s := by
    obtain ⟨b, hpred, hbit, hpm⟩ := survivor_branch P f.hasX f.x f.y v.vpm s
    obtain ⟨bs, hlen, hmetric, hwalk⟩ := h.path (predState s b)
    refine ⟨b :: bs, by simp [hlen], ?_, ?_⟩
    · rw [acsStep_vpm_getElem?, ← survivor_pm, hpm, candidate_of_getElem? hmetric, pathCost_concat, Nat.add_comm]
    · have hnewest : ringRead (Machine.acsStep P f.hasX f.x f.y v).vring
          (undecidedSlot P (Machine.acsStep P f.hasX f.x f.y v) v.vcount) s =
          survivor P f.hasX f.x f.y v.vpm s := by
        rw [undecidedSlot_acsStep, undecidedSlot_newest P v hvw, acsStep_vring, ringRead, ringSlot_ringWrite_self,
          Option.getD_some, List.getD_eq_getElem?_getD, survivors_getElem?, Option.getD_some]
      have holder : ∀ j < v.vcount, ∀ s, ringRead (Machine.acsStep P f.hasX f.x f.y v).vring
          (undecidedSlot P (Machine.acsStep P f.hasX f.x f.y v) j) s =
          ringRead v.vring (undecidedSlot P v (0 + j)) s := by
        intro j hj s
        rw [undecidedSlot_acsStep, acsStep_vring, Nat.zero_add, ringRead, ringRead,
          ringSlot_ringWrite_ne _ _ (undecidedSlot_ne_vw hvw hcount hj)]
      rw [acsStep_vcount]
      simp only [traceWalk]
      rw [hnewest, hpred, hbit, traceWalk_append, traceWalk_shift 0 _ holder, Nat.zero_add, List.drop_zero, hwalk,
        pathInputs, List.drop_append_of_le_length (by simp [hlen]), List.length_append, List.length_singleton,
        Nat.add_sub_add_right]

/-- A decoder with the same metrics and records, whose undecided steps lack the `k` oldest. -/
theorem dropOldest (h : FollowsPaths P v fs) {u : VitState} {k : Nat} (hk : k ≤ v.vcount) (hvpm : u.vpm = v.vpm)
    (hvring : u.vring = v.vring) (hcount : u.vcount = v.vcount - k)
    (hslot : ∀ j, undecidedSlot P u j = undecidedSlot P v (k + j)) : FollowsPaths P u fs where
  pending := by
    rw [hcount]
    exact (Nat.sub_le _ _).trans h.pending
  path s := by
    obtain ⟨choices, hlen, hmetric, hwalk⟩ := h.path s
    have hpending := h.pending
    have hrecords : ∀ j < v.vcount - k, ∀ s, ringRead u.vring (undecidedSlot P u j) s =
        ringRead v.vring (undecidedSlot P v (k + j)) s := fun j _ s => by rw [hvring, hslot]
    refine ⟨choices, hlen, hvpm ▸ hmetric, ?_⟩
    rw [hcount, traceWalk_shift k _ hrecords, Nat.add_sub_cancel' hk, hwalk, List.drop_drop]
    congr 1
    omega

theorem traceback (h : FollowsPaths P v fs) {k : Nat} (hk : k ≤ v.vcount) :
    FollowsPaths P (traceback P k v).vit fs :=
  h.dropOldest hk rfl rfl rfl (undecidedSlot_traceback P hk)

theorem clearPartialByte (h : FollowsPaths P v fs) : FollowsPaths P { v with vob := [] } fs :=
  h.dropOldest (Nat.zero_le _) rfl rfl rfl fun j => by rw [Nat.zero_add]; rfl

theorem vitStep (h : FollowsPaths P v fs) (hv : VitInv P v) (f : FeedStep) :
    FollowsPaths P (vitStep P f.hasX f.x f.y v).vit (fs ++ [f]) := by
  have hacs := h.acsStep hv.writePointer hv.room f
  by_cases hfull : v.vcount + 1 = P.decisionLen + P.outputBits
  · rw [vitStep_of_full hfull]
    exact hacs.traceback ((Nat.le_add_left _ _).trans_eq hfull.symm)
  · rw [vitStep_of_room hfull]
    exact hacs

theorem vitFlush (h : FollowsPaths P v fs) : FollowsPaths P (vitFlush P v).vit fs := by
  rw [vitFlush_vit, pendingDecided]
  split
  · exact (h.traceback le_rfl).clearPartialByte
  · exact h.clearPartialByte

/-- The decided bits are the last VCOUNT inputs of a path of the best metric. -/
theorem best (h : FollowsPaths P v fs) (hlen : v.vpm.length = 64) :
    ∃ choices : List Bool, choices.length = fs.length ∧ v.vcount ≤ fs.length ∧
      decidedBits P v = (pathInputs (BitVec.ofNat 6 (bestState v.vpm)) choices).drop (fs.length - v.vcount) ∧
      v.vpm[bestState v.vpm]? = some (pathCost P fs.reverse (BitVec.ofNat 6 (bestState v.vpm)) choices) := by
  obtain ⟨choices, hchoices, hmetric, hwalk⟩ := h.path (BitVec.ofNat 6 (bestState v.vpm))
  rw [bestState_toNat hlen] at hmetric
  exact ⟨choices, hchoices, h.pending, hwalk, hmetric⟩

end FollowsPaths

/-! ## Runs from reset -/

theorem vitInv_resetOf {P : Params} (ho : 1 ≤ P.outputBits) : VitInv P State.reset.vit where
  metrics := rfl
  ringForm := rfl
  writePointer := show 0 < P.decisionLen + P.outputBits + P.tbGuard by omega
  pending := show 0 < P.decisionLen + P.outputBits by omega
  partialByte := Nat.succ_pos 7
  window := fun k hk => absurd hk (Nat.not_lt_zero k)

/-- Any steps and flushes keep the walks on paths over all steps. -/
theorem decoderRun_followsPaths {P : Params} (ho : 1 ≤ P.outputBits) (es : List (Option FeedStep)) :
    ∀ {v : VitState} {fs : List FeedStep}, VitInv P v → FollowsPaths P v fs →
      VitInv P (decoderRun P es v) ∧ FollowsPaths P (decoderRun P es v) (fs ++ es.reduceOption) := by
  induction es with
  | nil => intro v fs hv h; rw [List.reduceOption_nil, List.append_nil]; exact ⟨hv, h⟩
  | cons e es ih =>
    intro v fs hv h
    cases e with
    | none => rw [List.reduceOption_cons_of_none]; exact ih hv.vitFlush h.vitFlush
    | some f =>
      rw [List.reduceOption_cons_of_some, List.append_cons]
      exact ih (hv.vitStep ho f.hasX f.x f.y) (h.vitStep hv f)

/-- Before the first traceback all steps since reset are undecided. -/
theorem afterSteps_followsPaths {P : Params} {v : VitState} (hvpm : v.vpm = List.replicate 64 0) (hvw : v.vw = 0)
    (hcount : v.vcount = 0) (hdepth : 0 < P.depth) (fs : List FeedStep)
    (hlen : fs.length ≤ P.decisionLen + P.outputBits) :
    (afterSteps P v fs).vw < P.depth ∧ (afterSteps P v fs).vcount = fs.length ∧
      (afterSteps P v fs).vpm.length = 64 ∧ FollowsPaths P (afterSteps P v fs) fs := by
  induction fs using List.reverseRecOn with
  | nil =>
    exact ⟨hvw.trans_lt hdepth, hcount, (congrArg List.length hvpm).trans List.length_replicate, .reset hvpm hcount⟩
  | append_singleton fs f ih =>
    rw [List.length_append, List.length_singleton] at hlen
    obtain ⟨hptr, hpending, -, hpaths⟩ := ih (by omega)
    have hroom : (afterSteps P v fs).vcount < P.depth := by
      have : P.depth = P.decisionLen + P.outputBits + P.tbGuard := rfl
      omega
    rw [afterSteps_concat, acsStep_vcount, hpending, List.length_append]
    exact ⟨Nat.mod_lt _ hdepth, rfl, by simp, hpaths.acsStep hptr hroom f⟩

/-! ## Tracebacks -/

/-- A written slot holds the record that a read gives. -/
theorem getElem?_of_ringSlot {r : List (Nat × List VitRecord)} {i : Nat} {slot : List VitRecord}
    (hslot : ringSlot r i = some slot) (hlen : slot.length = 64) (s : BitVec 6) :
    slot[s.toNat]? = some (ringRead r i s) := by
  have hlt : s.toNat < slot.length := hlen ▸ s.isLt
  rw [ringRead, hslot, Option.getD_some, List.getD_eq_getElem?_getD, List.getElem?_eq_getElem hlt, Option.getD_some]

/-- Wherever a traceback runs, every record it reads has been written. -/
theorem Traceable.walk {P : Params} {v : VitState} (h : Traceable P v) :
    ∃ after : Nat → BitVec 6, after v.vcount = BitVec.ofNat 6 (bestState v.vpm) ∧
      ∀ k, k < v.vcount → ∃ slot r, ringSlot v.vring (undecidedSlot P v k) = some slot ∧
        slot[(after (k + 1)).toNat]? = some r ∧ (decidedBits P v)[k]? = some r.bit ∧ after k = r.pred := by
  obtain ⟨after, hstart, hsteps, -⟩ := traceWalk_spec P v v.vcount (BitVec.ofNat 6 (bestState v.vpm)) []
  refine ⟨after, hstart, fun k hk => ?_⟩
  obtain ⟨slot, hslot, hlen⟩ := h.window k hk
  obtain ⟨hbit, hpred⟩ := hsteps k hk
  exact ⟨slot, _, hslot, getElem?_of_ringSlot hslot hlen _, hbit, hpred⟩

/-- Settles O51: the walk of a written window, the paths of a run, and those of steps without a traceback. -/
theorem tracebackFollowsABestPath : Obligations.TracebackFollowsABestPath := by
  refine ⟨?window, ?run, ?steps⟩
  case window =>
    intro P u v hu hv
    have ht : Traceable P v := by
      rcases hv with rfl | ⟨hasX, x, y, rfl⟩
      · exact hu.traceable
      · exact hu.acsStep hasX x y
    exact ⟨decidedBits_length P v, ht.walk⟩
  case run =>
    intro P es v fs ho u hv
    obtain ⟨hu, hpaths⟩ := decoderRun_followsPaths ho es (vitInv_resetOf ho) (.reset rfl rfl)
    rw [List.nil_append] at hpaths
    rcases hv with ⟨rfl, rfl⟩ | ⟨f, rfl, rfl⟩
    · exact hpaths.best hu.metrics
    · exact (hpaths.acsStep hu.writePointer hu.room f).best (hu.acsStep f.hasX f.x f.y).metrics
  case steps =>
    intro P fs v hvpm _ hvw hcount hlen hdepth
    obtain ⟨-, hall, hmetrics, hpaths⟩ := afterSteps_followsPaths hvpm hvw hcount hdepth fs hlen
    obtain ⟨choices, hchoices, -, hbits, hmetric⟩ := hpaths.best hmetrics
    rw [hall, Nat.sub_self, List.drop_zero] at hbits
    exact ⟨choices, hchoices, hbits, hmetric⟩

/-! ## A message of one bit (45_viterbi R292) -/

/-- After the pair (1, 1) from reset the best state has input 0. -/
theorem bestState_of_pair_one : inputBit (BitVec.ofNat 6
    (bestState (acsStep theParams true true true State.reset.vit).vpm)) = false := by
  decide

/-- After one step from reset the decided bit is the best state's input: the step is the whole path. -/
theorem decidedBits_of_one_step (f : FeedStep) :
    let v := acsStep theParams f.hasX f.x f.y State.reset.vit
    decidedBits theParams v = [inputBit (BitVec.ofNat 6 (bestState v.vpm))] := by
  intro v
  have hpaths : FollowsPaths theParams v [f] :=
    FollowsPaths.acsStep (.reset rfl rfl) vitInv_reset.writePointer vitInv_reset.room f
  obtain ⟨choices, hlen, -, hbits, -⟩ := hpaths.best (vitInv_reset.acsStep f.hasX f.x f.y).metrics
  obtain ⟨b, rfl⟩ := List.length_eq_one_iff.mp hlen
  exact hbits

/-- Refutes O52: of the message 1, whose code pair is (1, 1), the decoder makes 0. All metrics are 0 at reset, so paths
of either input explain the pair, and the best of the states with metric 0 is one whose input is 0. -/
theorem not_everyErrorFreeMessageIsReproduced : ¬ Obligations.EveryErrorFreeMessageIsReproduced := by
  intro h
  have hroom : State.reset.vit.vcount + 1 ≠ theParams.decisionLen + theParams.outputBits := by
    have hd := theParams_decisionLen_pos
    have ho := theParams_outputBits_pos
    show 0 + 1 ≠ _
    omega
  have hsent : convEncode theParams 0 [true] = [(true, true)] := by decide
  have hone := h [true]
  simp only [hsent, List.foldl_cons, List.foldl_nil, State.trellisStep, State.withVit_vitPort, State.withVit_vit,
    vitStep_of_room hroom, List.append_nil] at hone
  rw [show State.reset.vitPort = [] from rfl, List.nil_append,
    vitFlush_bits _ (by rw [acsStep_vob]; exact Nat.succ_pos 7), acsStep_vob,
    show State.reset.vit.vob = [] from rfl, List.nil_append,
    decidedBits_of_one_step ⟨true, true, true⟩, bestState_of_pair_one] at hone
  cases hone

end Sys2Proof.Machine
end

section
/-! NOP, WRCFG and RDSTAT (46_control R310, R312, R314): what the configuration registers read after a write, and the
value of each status register. -/

namespace Sys2Proof.Machine

/-- Settles O8. -/
theorem nopOnlyAnswers : Obligations.NopOnlyAnswers := fun _ => rfl

/-! ## WRCFG -/

/-- A value that fits its register is read back as it was written (10_state R22, R60). -/
theorem setWidth_setWidth_of_fits {val : BitVec 16} {w : Nat} (hw : w ≤ 64) (h : val.toNat < 2 ^ w) :
    (val.setWidth w).setWidth 64 = val.setWidth 64 := by
  apply BitVec.eq_of_toNat_eq
  rw [BitVec.toNat_setWidth_of_le hw, BitVec.toNat_setWidth, BitVec.toNat_setWidth_of_le (by norm_num),
    Nat.mod_eq_of_lt h]

theorem CfgRegs.read_write_self (c : CfgRegs) {reg : CfgReg} {val : BitVec 16} (h : val.toNat < 2 ^ reg.width) :
    (c.write reg val).read reg = val.setWidth 64 := by
  cases reg <;> exact setWidth_setWidth_of_fits (by norm_num) h

theorem CfgRegs.read_write_ne (c : CfgRegs) {reg r : CfgReg} (val : BitVec 16) (h : r ≠ reg) :
    (c.write reg val).read r = c.read r := by
  cases reg <;> cases r
  case guard.guard | const.const | hier.hier | rate.rate => exact absurd rfl h
  all_goals rfl

/-- A guard code that fits is changed iff it differs as a number (46_control R312). -/
theorem setWidth_ne_guard_iff {val : BitVec 16} (guard : BitVec 2) (h : val.toNat < 2 ^ CfgReg.guard.width) :
    val.setWidth 2 ≠ guard ↔ val.toNat ≠ guard.toNat := by
  have hval : val.toNat < 2 ^ 2 := h
  rw [Ne, BitVec.toNat_eq, BitVec.toNat_setWidth, Nat.mod_eq_of_lt hval]

/-- All that WRCFG writes when its value fits (46_control R312). -/
theorem writeConfig_of_fits {reg : CfgReg} {val : BitVec 16} (h : val.toNat < 2 ^ reg.width) (s : State) :
    writeConfig reg val s = { s with
      cfg := s.cfg.write reg val
      est := if reg = .guard ∧ val.toNat ≠ s.cfg.guard.toNat then { s.est with ebuf := [], conf := 0 }
        else s.est } := by
  have hchanges : (reg = .guard ∧ val.setWidth 2 ≠ s.cfg.guard) ↔ (reg = .guard ∧ val.toNat ≠ s.cfg.guard.toNat) :=
    and_congr_right fun hreg => setWidth_ne_guard_iff s.cfg.guard (hreg ▸ h)
  simp only [writeConfig, hchanges]

/-- An illegal command counts and answers (60_exceptions R352). -/
theorem respondCondition_illegalCmd (s : State) : respondCondition .illegalCmd s = { s with
    cnt := { s.cnt with illegal := if s.cnt.illegal = 0xFFFFFFFF then 0xFFFFFFFF else s.cnt.illegal + 1 }
    out := s.out ++ [.resp .illegalCmd 0] } := by
  rw [← satAdd_one]
  rfl

/-- Settles O11: the value's width decides between the write and the illegal command. -/
theorem wrcfgWritesItsRegister : Obligations.WrcfgWritesItsRegister := by
  refine ⟨fun s reg val hfits => ?_, fun s reg val hwide => ?_⟩
  · refine ⟨(writeConfig reg val s).respond .ok 0, ?_, ?_⟩
    · rw [exec, execWrcfg, if_pos hfits]
    · rw [writeConfig_of_fits hfits]
      exact ⟨s.cfg.read_write_self hfits, fun r hr => s.cfg.read_write_ne val hr, rfl, rfl⟩
  · rw [exec, execWrcfg, if_neg hwide.not_gt, respondCondition_illegalCmd]

/-! ## RDSTAT -/

theorem State.flags_eq_concat (s : State) : s.flags =
    ((((((0#58).concat s.tps.eventSeen).concat s.est.eosSeen).concat s.est.halted).concat s.est.tracking).concat
      s.tps.outValid).concat s.tps.sync := rfl

/-- The bits of FLAGS from bit 0 on copy the named state, and every bit above them is 0 (10_state R33). -/
theorem State.flags_getLsbD (s : State) (k : Nat) : s.flags.getLsbD k =
    [s.tps.sync, s.tps.outValid, s.est.tracking, s.est.halted, s.est.eosSeen, s.tps.eventSeen].getD k false := by
  rw [State.flags_eq_concat]
  match k with
  | 0 | 1 | 2 | 3 | 4 | 5 => simp only [BitVec.getLsbD_concat_zero, BitVec.getLsbD_concat_succ]; rfl
  | k + 6 => simp only [BitVec.getLsbD_concat_succ, BitVec.getLsbD_zero]; rfl

/-- A number below 2^64 is read as it is (10_state R60). -/
theorem toNat_ofNat64 {k : Nat} (h : k < 2 ^ 64) : (BitVec.ofNat 64 k).toNat = k :=
  (BitVec.toNat_ofNat k 64).trans (Nat.mod_eq_of_lt h)

/-- Settles O12: FLAGS bit by bit, words and Num patterns as they stand, numbers in 64 bits, narrow registers
zero-extended. -/
theorem rdstatAnswersTheRegister : Obligations.RdstatAnswersTheRegister := by
  intro s idx
  refine ⟨readStatus s idx, rfl, ?flags, ?tpsPos, ?tpsFrame, ?tpsShift, ?idxSym, ?idxFrame, ?lastTpsEvent, ?conf,
    ?lastEps, ?nco, ?lastA, ?lastArgmax, ?efill, ?anomalyLast, ?vbest, ?vcount, ?blkId, ?cfg, ?counter⟩
  case flags =>
    rintro rfl
    refine ⟨s.flags_getLsbD 0, s.flags_getLsbD 1, s.flags_getLsbD 2, s.flags_getLsbD 3, s.flags_getLsbD 4,
      s.flags_getLsbD 5, fun k hk => ?_⟩
    rw [readStatus, s.flags_getLsbD, List.getD_eq_default _ _ hk]
  case lastTpsEvent | conf | lastEps | nco => rintro rfl; rfl
  case cfg => rintro r rfl; rfl
  case tpsPos => rintro rfl; exact toNat_ofNat64 (s.tps.pos.isLt.trans (by norm_num))
  case idxSym => rintro rfl; exact toNat_ofNat64 (s.tps.idxSym.isLt.trans (by norm_num))
  case lastA | lastArgmax | efill | anomalyLast | vcount => rintro rfl; exact toNat_ofNat64
  case vbest => rintro rfl; exact toNat_ofNat64 (by omega)
  case blkId => rintro rfl; exact BitVec.toNat_ofNat _ 64
  case tpsFrame | tpsShift | idxFrame => rintro rfl; exact BitVec.toNat_setWidth_of_le (by norm_num)
  case counter => rintro c rfl; exact BitVec.toNat_setWidth_of_le (by norm_num)

end Sys2Proof.Machine
end

section
/-! SYMBOL (46_control R320, R330): the block its EST extracts is the newest, so no stage after EST is out of order;
the five bodies run one after the other and end as DEMUX ends. -/

namespace Sys2Proof.Machine

/-! ## Running a list of stages -/

theorem runStages_cons_ok {body : State → Status × State} {s t : State} (h : body s = (.ok, t))
    (bodies : List (State → Status × State)) : runStages (body :: bodies) s = runStages bodies t := by
  rw [runStages, h]

theorem runStages_singleton (body : State → Status × State) (s : State) : runStages [body] s = body s := by
  rw [runStages]
  rcases body s with ⟨code, t⟩
  cases code <;> rfl

/-! ## The stage order (46_control R330) -/

/-- Block `b` is the current block and neither TPS nor DEMUX has run on it. -/
structure Extracted (b : Nat) (s : State) : Prop where
  notHalted : s.est.halted = false
  blkId : s.blk.blkId = b
  tdId : s.blk.tdId = some b
  tpsId : s.blk.tpsId ≠ some b
  dmxId : s.blk.dmxId ≠ some b

/-- FFT, EQ and TPS have run on block `b`, DEMUX has not. -/
structure ReadyForDemux (b : Nat) (s : State) : Prop where
  notHalted : s.est.halted = false
  blkId : s.blk.blkId = b
  tdId : s.blk.tdId = some b
  fdId : s.blk.fdId = some b
  eqId : s.blk.eqId = some b
  tpsId : s.blk.tpsId = some b
  dmxId : s.blk.dmxId ≠ some b

/-- A tag within the blocks extracted is not the next block's. -/
theorem TagWithin.ne_next {tag : Option Nat} {k : Nat} (h : TagWithin tag k) : tag ≠ some (k + 1) :=
  fun ht => Nat.not_succ_le_self k (h _ ht)

/-- An EST that ends with OK extracts the next block (40_estimator R147). -/
theorem extracted_of_estBody_ok {P : Params} {s s1 : State} (htags : TagInv s.blk)
    (hest : estBody P s = .done .ok s1) : Extracted (s.blk.blkId + 1) s1 := by
  obtain ⟨-, -, -, htps, hdmx⟩ := (tagInv_iff _).mp htags
  rcases estBody_cases P s with ⟨-, hbody⟩ | ⟨hhalted, hbody⟩
  · rw [hbody] at hest
    exact nomatch hest
  · rcases estFrom_cases P 0 s with
      ⟨zs, rest, -, -, -, hfrom⟩ | ⟨zs, -, -, -, hfrom⟩ | ⟨zs, rest, c, -, hc, hfrom⟩ <;> rw [hbody, hfrom] at hest
    · obtain ⟨-, rfl⟩ := EstEnd.done.inj hest
      obtain ⟨items, -, hblock⟩ := outputBlock_eq P (estimate P (s.filled zs rest)) (s.filled zs rest)
      rw [hblock]
      exact ⟨hhalted, rfl, rfl, htps.ne_next, hdmx.ne_next⟩
    · exact nomatch hest
    · obtain ⟨hcode, -⟩ := EstEnd.done.inj hest
      rcases hc with ⟨rfl, -⟩ | ⟨rfl, -⟩ <;> exact nomatch hcode

/-- FFT, EQ and TPS on a block just extracted all end with OK (41_fft R170, 42_equalizer R180, 43_tps R200). -/
theorem Extracted.runs_to_demux {b : Nat} {s1 : State} (h : Extracted b s1) (P : Params) :
    ∃ s2 s3 s4, fftBody P s1 = (.ok, s2) ∧ eqBody P s2 = (.ok, s3) ∧ tpsBody P s3 = (.ok, s4) ∧
      ReadyForDemux b s4 ∧ s4.cnt.seqErr = s1.cnt.seqErr ∧ s4.tps.pos.val = (s4.tps.idxSym.val + 1) % 68 := by
  obtain ⟨hhalted, hblk, htd, htps, hdmx⟩ := h
  obtain ⟨s2, hfft, hs2⟩ : ∃ s2, fftBody P s1 = (.ok, s2) ∧
      s2 = { s1 with blk := { s1.blk with fd := s2.blk.fd, fdId := some b } } :=
    ⟨{ s1 with blk := { s1.blk with fd := forwardTransform P s1.blk.td, fdId := some b } },
      by simp [fftBody, hhalted, htd], rfl⟩
  have heq : eqBody P s2 = (.ok, equalize P s2) := by
    rw [hs2]
    simp [eqBody, hhalted]
  have hs3 := equalize_frame P s2
  generalize equalize P s2 = s3 at heq hs3
  have htpsRun : tpsBody P s3 = (.ok, tpsStep P s3) := by
    rw [hs3, hs2]
    simp [tpsBody, hhalted, htps]
  have hs4 := tpsStep_unchanged P s3
  have hpos := tpsStep_pos P s3
  generalize tpsStep P s3 = s4 at htpsRun hs4 hpos
  refine ⟨s2, s3, s4, hfft, heq, htpsRun, ?_, ?_, hpos⟩
  · rw [hs4, hs3, hs2]
    exact ⟨hhalted, hblk, htd, rfl, rfl, rfl, hdmx⟩
  · rw [hs4, hs3, hs2]

/-- DEMUX on a block that is ready runs (46_control R330). -/
theorem ReadyForDemux.demuxBody_eq {b : Nat} {s : State} (h : ReadyForDemux b s) (P : Params) :
    demuxBody P s = demuxRun P s := by
  simp [demuxBody, demuxReady, h.notHalted, h.fdId, h.eqId, h.tpsId, h.dmxId]

theorem demuxRun_of_supported {s : State} (h : configCheck s.cfg = none) : (demuxRun theParams s).1 = .ok := by
  simp only [demuxRun, h]
  rw [demuxWalked_eq theParams _ _ (walk_missed _ _) (walk_cells_length _ _)]

/-- With an unsupported configuration DEMUX consumes the block and counts, no more (44_demux R231, R232). -/
theorem ReadyForDemux.demuxBody_of_unsupported {b : Nat} {s : State} (h : ReadyForDemux b s) {P : Params} {arg : Nat}
    (hcfg : configCheck s.cfg = some arg) :
    demuxBody P s = (.configError, ((s.consumed b).count .configErr 1).diag 0x06 arg) := by
  rw [h.demuxBody_eq, demuxRun, hcfg, h.fdId]
  rfl

/-! ## The bodies of SYMBOL -/

/-- The bodies of EST, FFT, EQ and TPS end with OK one after the other (46_control R320). -/
structure RunsToDemux (P : Params) (s s1 s2 s3 s4 : State) : Prop where
  est : estBody P s = .done .ok s1
  fft : fftBody P s1 = (.ok, s2)
  eq : eqBody P s2 = (.ok, s3)
  tps : tpsBody P s3 = (.ok, s4)

namespace RunsToDemux

variable {P : Params} {s s1 s2 s3 s4 : State}

/-- The four bodies keep what each of them keeps. -/
theorem lift {R : State → State → Prop} (htrans : ∀ s t u, R s t → R t u → R s u)
    (hest : ∀ s, R s (estBody P s).state) (hfft : ∀ s, R s (fftBody P s).2) (heq : ∀ s, R s (eqBody P s).2)
    (htps : ∀ s, R s (tpsBody P s).2) (h : RunsToDemux P s s1 s2 s3 s4) : R s s4 := by
  have hs1 := hest s
  have hs2 := hfft s1
  have hs3 := heq s2
  have hs4 := htps s3
  rw [h.est] at hs1
  rw [h.fft] at hs2
  rw [h.eq] at hs3
  rw [h.tps] at hs4
  exact htrans _ _ _ (htrans _ _ _ (htrans _ _ _ hs1 hs2) hs3) hs4

theorem frame (h : RunsToDemux P s s1 s2 s3 s4) : BodyFrame s s4 :=
  h.lift (fun _ _ _ => .trans) (estBody_frame P) (fftBody_frame P) (eqBody_frame P) (tpsBody_frame P)

theorem same {p : Part} (hp : p = .demux ∨ p = .decoder) (h : RunsToDemux P s s1 s2 s3 s4) : Same p s s4 := by
  have hnot {i : Instr} (hi : i ∈ [.est, .fft, .eq, .tps]) : ¬ p.WrittenBy i := by
    simp only [List.mem_cons, List.not_mem_nil, or_false] at hi
    rcases hp with rfl | rfl <;> rcases hi with rfl | rfl | rfl | rfl <;> simp [Part.WrittenBy]
  exact h.lift (fun _ _ _ => .trans) (estBody_same (hnot (by simp)) P) (fftBody_same (hnot (by simp)) P)
    (eqBody_same (hnot (by simp)) P) (tpsBody_same (hnot (by simp)) P)

/-- SYMBOL then ends as DEMUX does. -/
theorem exec_symbol (h : RunsToDemux theParams s s1 s2 s3 s4) :
    exec .symbol s = .next (respondStage (demuxBody theParams s4)) := by
  rw [exec, execSymbol, symbolBody, h.est, finishSymbol, laterStages, runStages_cons_ok h.fft, runStages_cons_ok h.eq,
    runStages_cons_ok h.tps, runStages_singleton]

end RunsToDemux

/-- After a successful EST the stages up to TPS end with OK and leave the new block to DEMUX, none of them out of
order (46_control R330). -/
theorem exists_runsToDemux {P : Params} {s s1 : State} (htags : TagInv s.blk) (hest : estBody P s = .done .ok s1) :
    ∃ s2 s3 s4, RunsToDemux P s s1 s2 s3 s4 ∧ ReadyForDemux (s.blk.blkId + 1) s4 ∧ s4.cnt.seqErr = s.cnt.seqErr ∧
      s4.tps.pos.val = (s4.tps.idxSym.val + 1) % 68 := by
  obtain ⟨s2, s3, s4, hfft, heq, htps, hready, hseq, hpos⟩ := (extracted_of_estBody_ok htags hest).runs_to_demux P
  have hest_seq := (estBody_same (p := .sequence) (by simp [Part.WrittenBy]) P s).counters .seqErr rfl
  rw [hest] at hest_seq
  exact ⟨s2, s3, s4, ⟨hest, hfft, heq, htps⟩, hready, hseq.trans hest_seq, hpos⟩

/-- Settles O53: EST is full, FFT, EQ and TPS run on the new block, and DEMUX's configuration check passes. -/
theorem symbolRunsTheFiveStages : Obligations.SymbolRunsTheFiveStages := by
  intro s zs rest htags hhalted heos hsample hl hconst hhier hrate
  obtain ⟨s1, hest⟩ : ∃ s1, estBody theParams s = .done .ok s1 := ⟨_, estBody_full hhalted heos hsample hl⟩
  obtain ⟨s2, s3, s4, hrun, hready, -, -⟩ := exists_runsToDemux htags hest
  have hcfg : configCheck s4.cfg = none := by
    rw [hrun.frame.cfg]
    exact (configCheck_eq_none_iff _).mpr ⟨hconst, hhier, hrate⟩
  obtain ⟨s5, hs5⟩ : ∃ s5, demuxRun theParams s4 = (.ok, s5) := ⟨_, Prod.ext (demuxRun_of_supported hcfg) rfl⟩
  have hdemux : demuxBody theParams s4 = (.ok, s5) := (hready.demuxBody_eq _).trans hs5
  have hblk := demuxRun_blk theParams s4
  have hframe := demuxBody_frame theParams s4
  have hexec := hrun.exec_symbol
  rw [hs5] at hblk
  rw [hdemux] at hframe hexec
  dsimp only at hblk
  refine ⟨s1, s2, s3, s4, s5, hrun.est, hrun.fft, hrun.eq, hrun.tps, hdemux, hexec,
    (hrun.frame.trans hframe).respPort, ?_⟩
  rw [hblk]
  exact ⟨hready.blkId, hready.tdId, hready.fdId, hready.eqId, hready.tpsId, hready.fdId⟩

/-- Settles O54: after a successful EST the block is ready for DEMUX, whose run ends with OK or CONFIG_ERROR. -/
theorem symbolStagesAreNeverOutOfOrder : Obligations.SymbolStagesAreNeverOutOfOrder := by
  refine ⟨fun s s1 t htags hest ht => ?inOrder, fun s s1 code hest hcode => ?estEnds,
    fun s s1 htags hest hbad => ?config⟩
  case inOrder =>
    obtain ⟨s2, s3, s4, hrun, hready, hseq, -⟩ := exists_runsToDemux htags hest
    have hresp := (hrun.frame.trans (demuxBody_frame theParams s4)).respPort
    rw [hrun.exec_symbol, hready.demuxBody_eq] at ht
    rw [hready.demuxBody_eq] at hresp
    cases ht
    have hdemux := demuxRun_same (p := .sequence) nofun nofun theParams s4
    refine ⟨(hdemux.counters .seqErr rfl).trans hseq, _, ?_, (demuxRun_status s4).imp_right .inl⟩
    rw [respondStage, State.respond_respPort, hresp]
  case estEnds =>
    rw [exec, exec, execSymbol, execEst, symbolBody, hest]
    cases code with
    | ok => exact absurd rfl hcode
    | _ => rfl
  case config =>
    obtain ⟨s2, s3, s4, hrun, hready, -, hpos⟩ := exists_runsToDemux htags hest
    obtain ⟨arg, hcfg⟩ : ∃ arg, configCheck s4.cfg = some arg := by
      rw [← Option.ne_none_iff_exists', hrun.frame.cfg, Ne, configCheck_eq_none_iff]
      tauto
    have hdemux := hready.demuxBody_of_unsupported (P := theParams) hcfg
    have hexec := hrun.exec_symbol
    have hresp := (hrun.frame.trans (demuxBody_frame theParams s4)).respPort
    rw [hdemux] at hexec hresp
    obtain ⟨hcounters, hdmx, -, hdmxPort⟩ := hrun.same (.inl rfl)
    obtain ⟨-, hvit, hvitPort⟩ := hrun.same (.inr rfl)
    have hcount : s4.cnt.configErr = s.cnt.configErr := hcounters .configErr rfl
    refine ⟨s2, s3, s4, _, hrun.fft, hrun.eq, hrun.tps, hdemux, hexec, hresp, ?_, ?_, rfl, hpos, rfl, hready.fdId,
      hready.eqId, hready.tpsId, hdmx, hvit, congrArg (satAdd · 1) hcount⟩
    · rw [State.diag_dmxPort, State.count_dmxPort]
      exact hdmxPort
    · rw [State.diag_vitPort, State.count_vitPort]
      exact hvitPort

end Sys2Proof.Machine
end

section
/-! Conditions (60_exceptions R351 to R355): each as the state its response leaves, and the first check of a stage body
that fails as the condition it raises. The illegal word, the halted block, the stage out of order and the two ends of
the stream are then uses of these. -/

namespace Sys2Proof.Machine

/-! ## Illegal words -/

/-- Settles O5. -/
theorem illegalWordAnswersIllegalCmd : Obligations.IllegalWordAnswersIllegalCmd := by
  intro s w rest e hhold hcmd hdecode
  rw [step_of_illegal hhold hcmd hdecode, respondCondition_illegalCmd]

/-! ## EST and SYMBOL after a condition of EST -/

/-- When the body of EST ends otherwise than with OK, no later stage runs (46_control R320). -/
theorem finishHoldCmd_done (P : Params) (c : HoldCmd) {code : Status} (hcode : code ≠ .ok) (s : State) :
    finishHoldCmd P c (.done code s) = s.respond code 0 := by
  cases c with
  | est => rfl
  | symbol =>
    cases code with
    | ok => exact absurd rfl hcode
    | _ => rfl

/-- EST and SYMBOL answer the condition that the body of EST meets. -/
theorem exec_of_estBody_condition {i : Instr} (hi : i = .est ∨ i = .symbol) {s t : State} {code : Status}
    (hbody : estBody theParams s = .done code t) (hcode : code ≠ .ok) : exec i s = .next (t.respond code 0) := by
  obtain ⟨c, hexec⟩ := exec_eq_finishHoldCmd hi
  rw [hexec, hbody, finishHoldCmd_done theParams c hcode]

/-! ## The halted block -/

theorem estBody_of_halted (P : Params) {s : State} (h : s.est.halted = true) : estBody P s = .done .halted s :=
  if_pos h

theorem fftBody_of_halted (P : Params) {s : State} (h : s.est.halted = true) :
    fftBody P s = raiseCondition .halted s := if_pos h

theorem eqBody_of_halted (P : Params) {s : State} (h : s.est.halted = true) :
    eqBody P s = raiseCondition .halted s := if_pos h

theorem tpsBody_of_halted (P : Params) {s : State} (h : s.est.halted = true) :
    tpsBody P s = raiseCondition .halted s := if_pos h

theorem demuxBody_of_halted (P : Params) {s : State} (h : s.est.halted = true) :
    demuxBody P s = raiseCondition .halted s := if_pos h

/-- Settles O15: every body of the chain checks HALTED first, and the condition has no effect. -/
theorem haltedRefusesTheSampleChain : Obligations.HaltedRefusesTheSampleChain := by
  intro s i hhalted hi
  simp only [List.mem_cons, List.not_mem_nil, or_false] at hi
  have hest := estBody_of_halted theParams hhalted
  rcases hi with rfl | rfl | rfl | rfl | rfl | rfl
  · exact exec_of_estBody_condition (.inl rfl) hest nofun
  · rw [exec, execFft, fftBody_of_halted theParams hhalted]
    rfl
  · rw [exec, execEq, eqBody_of_halted theParams hhalted]
    rfl
  · rw [exec, execTps, tpsBody_of_halted theParams hhalted]
    rfl
  · rw [exec, execDemux, demuxBody_of_halted theParams hhalted]
    rfl
  · exact exec_of_estBody_condition (.inr rfl) hest nofun

/-! ## Stages out of order (46_control R330) -/

section OutOfOrder

variable (P : Params) {s : State} (hhalted : s.est.halted = false)
include hhalted

theorem fftBody_of_noBlock (htd : s.blk.tdId = none) : fftBody P s = raiseCondition .seqError s := by
  rw [fftBody, hhalted, if_neg Bool.false_ne_true, if_pos htd]

theorem eqBody_of_noTransform (hfd : s.blk.fdId = none) : eqBody P s = raiseCondition .seqError s := by
  rw [eqBody, hhalted, if_neg Bool.false_ne_true, if_pos hfd]

theorem tpsBody_of_outOfOrder (htags : s.blk.fdId = none ∨ s.blk.tpsId = s.blk.fdId) :
    tpsBody P s = raiseCondition .seqError s := by
  rw [tpsBody, hhalted, if_neg Bool.false_ne_true, if_pos htags]

theorem demuxBody_of_notReady (hready : ¬ demuxReady s.blk = true) : demuxBody P s = raiseCondition .seqError s := by
  rw [demuxBody, hhalted, if_neg Bool.false_ne_true, if_neg hready]

end OutOfOrder

theorem demuxReady_iff (b : BlockRegs) :
    demuxReady b = true ↔ b.fdId ≠ none ∧ b.eqId = b.fdId ∧ b.tpsId = b.fdId ∧ b.dmxId ≠ b.fdId := by
  simp only [demuxReady, Bool.and_eq_true, decide_eq_true_eq, and_assoc]

/-- A stage command out of order counts and answers (60_exceptions R353). -/
theorem respondCondition_seqError (s : State) : respondCondition .seqError s = { s with
    cnt := { s.cnt with seqErr := if s.cnt.seqErr = 0xFFFFFFFF then 0xFFFFFFFF else s.cnt.seqErr + 1 }
    out := s.out ++ [.resp .seqError 0] } := by
  rw [← satAdd_one]
  rfl

/-- Settles O16: each stage's own order check raises the condition. -/
theorem outOfOrderStagesAnswerSeqError : Obligations.OutOfOrderStagesAnswerSeqError := by
  intro s i hhalted horder
  rw [← respondCondition_seqError]
  rcases horder with ⟨rfl, htd⟩ | ⟨rfl, hfd⟩ | ⟨rfl, htags⟩ | ⟨rfl, htags⟩
  · rw [exec, execFft, fftBody_of_noBlock theParams hhalted htd]
    rfl
  · rw [exec, execEq, eqBody_of_noTransform theParams hhalted hfd]
    rfl
  · rw [exec, execTps, tpsBody_of_outOfOrder theParams hhalted htags]
    rfl
  · rw [exec, execDemux, demuxBody_of_notReady theParams hhalted (mt (demuxReady_iff s.blk).mp htags)]
    rfl

/-! ## The end of the stream (40_estimator R131) -/

/-- A fill that meets the end of the stream after at least one sample is short. -/
theorem estBody_of_truncated {P : Params} {s : State} {zs : List Cplx} {rest : List SampleItem}
    (hhalted : s.est.halted = false) (heos : s.est.eosSeen = false) (hs : s.sample = zs.map .sample ++ .eos :: rest)
    (hpos : 0 < zs.length) (hl : s.est.efill + zs.length < s.bufSize P) :
    estBody P s = .done .shortRead (Condition.effect (.shortRead zs.length)
      { s.filled zs rest with est := { (s.filled zs rest).est with eosSeen := true } }) := by
  have hfill : fill P 0 s = .short zs.length
      { s.filled zs rest with est := { (s.filled zs rest).est with eosSeen := true } } := by
    rw [fill, fillLoop_eos heos hs (by omega), Nat.zero_add, if_neg hpos.ne']
  rw [estBody_of_not_halted P hhalted]
  simp only [estFrom, hfill]
  rfl

/-- A fill whose first pull finds the stream ended takes no sample. -/
theorem estBody_of_ended {P : Params} {s t : State} (hhalted : s.est.halted = false)
    (hl : s.est.efill < s.bufSize P) (hpull : pullSample s = .ended t) :
    estBody P s = .done .endOfStream (Condition.effect .endOfStream t) := by
  have hfill : fill P 0 s = .ended t := by
    obtain ⟨missing, hmissing⟩ : ∃ missing, s.bufSize P - s.est.efill = missing + 1 :=
      ⟨s.bufSize P - s.est.efill - 1, by omega⟩
    rw [fill, hmissing, fillLoop, hpull]
    rfl
  rw [estBody_of_not_halted P hhalted]
  simp only [estFrom, hfill]
  rfl

/-- EST and SYMBOL at the end of the stream answer in the state the first pull leaves (60_exceptions R355). -/
theorem exec_of_ended {i : Instr} (hi : i = .est ∨ i = .symbol) {s t : State} (hhalted : s.est.halted = false)
    (hl : s.est.efill < s.bufSize theParams) (hpull : pullSample s = .ended t) :
    ∃ u, exec i s = .next u ∧ AnswersOnly s u .endOfStream 0 ∧ u = { t with out := u.out } := by
  have hbody := estBody_of_ended hhalted hl hpull
  exact ⟨_, exec_of_estBody_condition hi hbody nofun, est_answersOnly hbody, rfl⟩

/-- Settles O19: the fill is short, and the condition halts the block. -/
theorem estAtTruncatedStreamHalts : Obligations.EstAtTruncatedStreamHalts := by
  intro s zs rest hhalted heos hs hpos hl
  have hbody := estBody_of_truncated hhalted heos hs hpos hl
  exact ⟨_, exec_of_estBody_condition (.inl rfl) hbody nofun, est_answersOnly hbody, rfl⟩

/-- Settles O20: once EOS_SEEN is set a pull takes nothing; the first EOS sets it and leaves the port. -/
theorem estAtEndedStreamOnlySetsEosSeen : Obligations.EstAtEndedStreamOnlySetsEosSeen := by
  intro i s hi hhalted hl
  exact ⟨fun hseen => exec_of_ended hi hhalted hl (pullSample_ended hseen),
    fun rest hunseen hs => exec_of_ended hi hhalted hl (pullSample_eos hunseen hs)⟩

end Sys2Proof.Machine
end

section
/-! RESET (70_reset R380, R381): the state it leaves, the values of the reset table in it, and the invariants there. -/

namespace Sys2Proof.Machine

/-- All that RESET leaves (70_reset R380). -/
theorem exec_reset (s : State) : exec .reset s = .next { State.reset with
    cmd := s.cmd, sample := s.sample, mfault := s.mfault, draws := s.draws, out := s.out ++ [.resp .ok 0] } := rfl

/-- At power-on every state element has its reset value, the ports are empty and MFAULT is clear (70_reset R381). -/
theorem State.resetChannel_reset : State.reset.resetChannel = State.reset := rfl

/-- Settles O10. -/
theorem powerOnIsReset : Obligations.PowerOnIsReset := by
  refine ⟨exec_reset, ?_⟩
  rw [exec, execReset, State.resetChannel_reset]
  rfl

theorem Counters.get_reset (c : Counter) : State.reset.cnt.get c = 0 := by
  cases c <;> rfl

/-- The TPS decoder's rows of the reset table: one zero phasor for each TPS carrier (70_reset R380). -/
theorem State.reset_tps : State.reset.tps =
    { pos := 0, shift := 0, payload := 0, prev := List.replicate 17 ⟨0, 0⟩, sync := false, frame := 0,
      idxSym := 0, idxFrame := 0, outValid := false, lastEvent := 0, eventSeen := false } := by
  have hcarriers : theParams.tpsList.length = 17 := by rw [theParams_tpsList]; rfl
  rw [State.reset, hcarriers]
  rfl

/-- The equalizer's tables in the reset table: one entry for each carrier (70_reset R380). -/
theorem State.reset_tables :
    State.reset.blk.eqPh = List.replicate 1705 0 ∧ State.reset.blk.eqAmp = List.replicate 1705 0 := by
  rw [State.reset, theParams_kMax]
  exact ⟨rfl, rfl⟩

/-- Settles O9: the table's rows, unit by unit, in the state of `exec_reset`. -/
theorem resetRestoresTheResetTable : Obligations.ResetRestoresTheResetTable := by
  intro s
  obtain ⟨heqPh, heqAmp⟩ := State.reset_tables
  refine ⟨_, exec_reset s, rfl, ?estimator, ⟨heqPh, heqAmp, ?tags⟩, State.reset_tps, rfl, ?decoder,
    Counters.get_reset, rfl, rfl, rfl, rfl⟩
  case estimator => exact ⟨rfl, rfl, rfl, rfl, rfl, rfl, rfl, rfl, rfl⟩
  case tags => exact ⟨rfl, rfl, rfl, rfl, rfl, rfl⟩
  case decoder => exact ⟨rfl, rfl, rfl, rfl, rfl⟩

/-- Settles O59: the invariants that RESET establishes from any state, at the state it leaves as it is. -/
theorem invariantsHoldAtReset : Obligations.InvariantsHoldAtReset := by
  have hest := estInv_reset State.reset
  have harrays := ArrayInv.reset State.reset
  rw [State.resetChannel_reset] at hest harrays
  exact ⟨tagInv_reset, vitInv_reset, hest, harrays⟩

end Sys2Proof.Machine
end
